-- ==== Sys2Proof/Word.lean ====
section
/-! DEFINITION. The fixed widths the spec gives the values of the block (R6, R11, R30): every value is an
unsigned bit vector, bit 0 the least significant, and nothing is ever sign-extended. -/

namespace Sys2Proof

/-- A command byte on `cmd` (R11, R55). -/
abbrev Byte := BitVec 8

/-- The 128-bit buses `arg` and `rsp_data`, and the two accumulators (R11, R15, R20). -/
abbrev Bus := BitVec 128

/-- A 21-bit value: a scalar value, a ROM entry, or `rsp_info` (R6, R11, R30). Not every such value is a
Unicode scalar value (R58). -/
abbrev Scalar := BitVec 21

/-- A page index, which is also the 4-bit tag (R30, R49). -/
abbrev Page := BitVec 4

/-- A code index within a page (R30, R46). -/
abbrev Code := BitVec 6

/-- One unit of special mode, `scalar - LOW_BOUND + 1` in 15 bits (R47). -/
abbrev SpcUnit := BitVec 15

/-- A width select code as the registers `E.W` and `D.W` hold it (R12, R18). -/
abbrev WidthCode := BitVec 3

end Sys2Proof
end

