-- ==== Sys2Proof/Config.lean ====
section
/-! DEFINITION. The parameters of the block (R4) and the one value of them that the reset state carries, which
the spec leaves open and which therefore has no body here. -/

namespace Sys2Proof

/-- The record `Params` of R4: what the integrator fixes before the block exists (R187). `pages` is the code
page ROM, 16 pages of 64 entries of 21 bits, dense, so every one of the 1024 addresses is present (R30, R37)
and two equal ROMs are equal data (log entry 14). -/
structure Params where
  /-- `PAGES[p][k]`. -/
  pages      : Vector (Vector Scalar 64) 16
  /-- `TERM_CHAR`, the terminator/padding value at entry 0 of every valid page. -/
  termChar   : Scalar
  /-- `SENTINEL`, the value of unassigned entries and of reserved pages. -/
  sentinel   : Scalar
  /-- `LOW_BOUND`, the first scalar value of the special delta block. -/
  lowBound   : Scalar
  /-- `HIGH_BOUND`, the last scalar value of the special delta block, inclusive. -/
  highBound  : Scalar
  /-- `SPECIAL_TAG`, the dedicated tag of the special delta block. -/
  specialTag : Page
  deriving DecidableEq, Repr, Inhabited

/-- `PAGES[p][k]` of R4: the ROM entry at the address with page p and code k. Both fields have exactly the bits of a
ROM address, so no address is out of range (R37). -/
def Params.entry (P : Params) (p : Page) (k : Code) : Scalar :=
  (P.pages[p.toNat]'p.isLt)[k.toNat]'k.isLt

/-- The parameter values of the block at hand. The spec gives none of them (R4, `91_not_in_source.md` N1 to
N6), so this constant has no body: nothing can evaluate it and no statement rests on its value. Log entry 1. -/
opaque Config.params : Params

end Sys2Proof
end

