-- ==== Sys2Proof/Syntax.lean ====
section
/-! DEFINITION. The commands of the block: one constructor for each of the 22 rows of the opcode table, with the
operands R58 names and no others. -/

namespace Sys2Proof

/-- The five packed widths, a closed set (R2). -/
inductive Width where
  | w8 | w16 | w32 | w64 | w128
  deriving DecidableEq, Repr

/-- One command of the block (R56), one constructor per row of the opcode table. An operand has exactly the
bits R58 gives it; the bits R57 and R58 call ignored are no part of an instruction. -/
inductive Instr where
  /-- `NOP` (R81). -/
  | nop
  /-- `ESTART w8` (R106). -/
  | estartW8
  /-- `ESTART w16` (R106). -/
  | estartW16
  /-- `ESTART w32` (R106). -/
  | estartW32
  /-- `ESTART w64` (R106). -/
  | estartW64
  /-- `ESTART w128` (R106). -/
  | estartW128
  /-- `EPUSH U+c`, c = `arg[20:0]` (R107). -/
  | epush (c : Scalar)
  /-- `EREAD` (R119). -/
  | eread
  /-- `DLOAD w8, v`, v = `arg[7:0]` (R131). -/
  | dloadW8 (v : BitVec 8)
  /-- `DLOAD w16, v`, v = `arg[15:0]` (R131). -/
  | dloadW16 (v : BitVec 16)
  /-- `DLOAD w32, v`, v = `arg[31:0]` (R131). -/
  | dloadW32 (v : BitVec 32)
  /-- `DLOAD w64, v`, v = `arg[63:0]` (R131). -/
  | dloadW64 (v : BitVec 64)
  /-- `DLOAD w128, v`, v = `arg[127:0]` (R131). -/
  | dloadW128 (v : BitVec 128)
  /-- `DNEXT` (R135). -/
  | dnext
  /-- `PAGEOF U+c`, c = `arg[20:0]` (R95). -/
  | pageof (c : Scalar)
  /-- `CODEOF p, U+c`, c = `arg[20:0]`, p = `arg[27:24]` (R96). -/
  | codeof (p : Page) (c : Scalar)
  /-- `CHAROF p, k`, k = `arg[5:0]`, p = `arg[9:6]` (R97). -/
  | charof (p : Page) (k : Code)
  /-- `DESC w8` (R80). -/
  | descW8
  /-- `DESC w16` (R80). -/
  | descW16
  /-- `DESC w32` (R80). -/
  | descW32
  /-- `DESC w64` (R80). -/
  | descW64
  /-- `DESC w128` (R80). -/
  | descW128
  deriving DecidableEq, Repr

/-- A command as it stands on the port: the command byte and the operand bus, in the same step (R11, R55). -/
structure Command where
  /-- `cmd`. -/
  cmd : Byte
  /-- `arg`. -/
  arg : Bus
  deriving DecidableEq, Repr

/-- The notation `ESTART wN` of R63, with the width as an argument. -/
def Instr.ofEstart : Width → Instr
  | .w8 => .estartW8
  | .w16 => .estartW16
  | .w32 => .estartW32
  | .w64 => .estartW64
  | .w128 => .estartW128

/-- The notation `DLOAD wN, v` of R63 and R64: the value is `arg[N-1:0]`, the bits above are ignored (R36). -/
def Instr.ofDload (w : Width) (arg : Bus) : Instr :=
  match w with
  | .w8 => .dloadW8 (arg.setWidth 8)
  | .w16 => .dloadW16 (arg.setWidth 16)
  | .w32 => .dloadW32 (arg.setWidth 32)
  | .w64 => .dloadW64 (arg.setWidth 64)
  | .w128 => .dloadW128 arg

/-- The notation `DESC wN` of R63. -/
def Instr.ofDesc : Width → Instr
  | .w8 => .descW8
  | .w16 => .descW16
  | .w32 => .descW32
  | .w64 => .descW64
  | .w128 => .descW128

/-- The commands that touch the encoder registers (R21): ESTART, EPUSH, EREAD. -/
def Instr.isEncoder : Instr → Bool
  | .estartW8 | .estartW16 | .estartW32 | .estartW64 | .estartW128 | .epush _ | .eread => true
  | .nop | .dloadW8 _ | .dloadW16 _ | .dloadW32 _ | .dloadW64 _ | .dloadW128 _ | .dnext
  | .pageof _ | .codeof _ _ | .charof _ _ | .descW8 | .descW16 | .descW32 | .descW64 | .descW128 => false

/-- The commands that touch the decoder registers (R21): DLOAD, DNEXT. -/
def Instr.isDecoder : Instr → Bool
  | .dloadW8 _ | .dloadW16 _ | .dloadW32 _ | .dloadW64 _ | .dloadW128 _ | .dnext => true
  | .nop | .estartW8 | .estartW16 | .estartW32 | .estartW64 | .estartW128 | .epush _ | .eread
  | .pageof _ | .codeof _ _ | .charof _ _ | .descW8 | .descW16 | .descW32 | .descW64 | .descW128 => false

/-- ESTART at any width (R106). -/
def Instr.isEstart : Instr → Bool
  | .estartW8 | .estartW16 | .estartW32 | .estartW64 | .estartW128 => true
  | .nop | .epush _ | .eread | .dloadW8 _ | .dloadW16 _ | .dloadW32 _ | .dloadW64 _ | .dloadW128 _ | .dnext
  | .pageof _ | .codeof _ _ | .charof _ _ | .descW8 | .descW16 | .descW32 | .descW64 | .descW128 => false

end Sys2Proof
end

