-- ==== Sys2Proof/Machine/State.lean ====
section
/-! DEFINITION. The state of the block: the eleven registers of `10_state.md`, the parameters the block was built
with, and the command port; the reset state; and the ways a step could stop (none does, R165). -/

namespace Sys2Proof.Machine

/-- The status codes of R61, in the order of their numbers 0 to 7. They are all eight values of the three bits of
`rsp_status` and of `E.ERR`; `Status.code` gives the number (log entry 8). -/
inductive Status where
  | ok
  | tooLong
  | noCodePage
  | pageUnavailable
  | missingFromPage
  | endOfSequence
  | notFound
  | badCmd
  deriving DecidableEq, Repr

/-- The values of `E.MODE`, in the order of their numbers 0 to 3 (R13). `EncMode.code` gives the number (log entry 8). -/
inductive EncMode where
  /-- No character accepted yet. -/
  | empty
  /-- Ordinary mode: 6-bit units on a table page. -/
  | ord
  /-- Special mode: 15-bit units of the special delta block. -/
  | spc
  /-- An error is latched. -/
  | err
  deriving DecidableEq, Repr

/-- The encoder registers (R12 to R17). -/
structure EncRegs where
  /-- `E.W`, the width select code. -/
  w    : WidthCode
  /-- `E.MODE`. -/
  mode : EncMode
  /-- `E.PAGE`, the page chosen by the first character. -/
  page : Page
  /-- `E.ACC`, the output accumulator. -/
  acc  : Bus
  /-- `E.REM`, the unit slots still free. -/
  rem  : BitVec 5
  /-- `E.ERR`, the status code of the latched error; `ok` (0) when none is. -/
  err  : Status
  /-- `E.INFO`, the information of the latched error. -/
  info : Scalar
  deriving DecidableEq, Repr

/-- The decoder registers (R18 to R20). -/
structure DecRegs where
  /-- `D.W`, the width select code of the last DLOAD. -/
  w   : WidthCode
  /-- `D.TAG`, the normalised tag. -/
  tag : Page
  /-- `D.SPC`, 1 in a transaction of special units. -/
  spc : Bool
  /-- `D.ACC`, the coding bits not yet consumed, left-justified at bit 127. -/
  acc : Bus
  deriving DecidableEq, Repr

/-- A response as the block presents it (R11, R60). -/
structure Response where
  /-- `rsp_status`. -/
  status : Status
  /-- `rsp_data`. -/
  data   : Bus
  /-- `rsp_info`. -/
  info   : Scalar
  deriving DecidableEq, Repr

/-- The input signals as one rising edge of `clk` samples them (R11, R185). -/
structure Edge where
  /-- `rst`. -/
  rst      : Bool
  /-- `cmd_valid`. -/
  cmdValid : Bool
  /-- `cmd`. -/
  cmd      : Byte
  /-- `arg`. -/
  arg      : Bus
  deriving DecidableEq, Repr

/-- The state. `enc` and `dec` are the spec's registers. The other three fields are the model's own: `params` is
what the block was built with, which no step changes (log entry 1); `inputs` is what the host will drive on the
port at the coming edges, soonest first (log entry 2); `rsp` is the response presented after the last edge, `none`
where `rsp_valid` is 0 (log entry 3). -/
structure State where
  enc    : EncRegs
  dec    : DecRegs
  params : Params
  inputs : List Edge
  rsp    : Option Response
  deriving DecidableEq, Repr

/-- Why a step stops with a fault. There is no constructor: nothing in the block traps, faults or halts, and every
outcome of every command is a response with a status code (R165; log entry 10). -/
inductive Fault
  deriving DecidableEq, Repr

/-- Why a step is refused. No meaning raises it. -/
inductive Refusal where
  /-- Raised by an arm of `exec` whose instruction has no meaning yet; safe, as nothing is then said of the
  instruction. No arm raises it: every row of the table has its meaning. -/
  | notModelled (mnemonic : String)
  deriving DecidableEq, Repr

/-- The encoder registers after reset: all 0 (R27). -/
def EncRegs.reset : EncRegs :=
  { w := 0, mode := .empty, page := 0, acc := 0, rem := 0, err := .ok, info := 0 }

/-- The decoder registers after reset: all 0 (R27). -/
def DecRegs.reset : DecRegs := { w := 0, tag := 0, spc := false, acc := 0 }

/-- The machine after reset (R27, R185): every register 0, the parameters the block was built with, no command
presented and no response. -/
def State.reset : State :=
  { enc := EncRegs.reset, dec := DecRegs.reset, params := Config.params, inputs := [], rsp := none }

end Sys2Proof.Machine
end

