-- ==== Sys2Proof/Machine/Flags.lean ====
section
/-! DEFINITION. The block has no flags (R23): the outcome of a command is the status of its response. Here stand the
numbers of the statuses and modes, the four encoder errors with what they carry, and the layouts of `rsp_data`. -/

namespace Sys2Proof.Machine

/-- The number of a status, as `rsp_status` and `E.ERR` carry it (R61). -/
def Status.code : Status → BitVec 3
  | .ok => 0
  | .tooLong => 1
  | .noCodePage => 2
  | .pageUnavailable => 3
  | .missingFromPage => 4
  | .endOfSequence => 5
  | .notFound => 6
  | .badCmd => 7

/-- The number of an encoder mode, as `E.MODE` holds it (R13). -/
def EncMode.code : EncMode → BitVec 2
  | .empty => 0
  | .ord => 1
  | .spc => 2
  | .err => 3

/-- The four encoder errors with their information (R166). -/
inductive EncError where
  | tooLong
  | noCodePage (c : Scalar)
  | pageUnavailable (p : Page)
  | missingFromPage (c : Scalar)
  deriving DecidableEq, Repr

/-- The status of an encoder error (R61, R166). -/
def EncError.status : EncError → Status
  | .tooLong => .tooLong
  | .noCodePage _ => .noCodePage
  | .pageUnavailable _ => .pageUnavailable
  | .missingFromPage _ => .missingFromPage

/-- The information of an encoder error, in `E.INFO` and `rsp_info` (R120, R166). -/
def EncError.info : EncError → Scalar
  | .tooLong => 0
  | .noCodePage c => c
  | .pageUnavailable p => p.setWidth 21
  | .missingFromPage c => c

/-! ### Layouts of `rsp_data` (R60) -/

/-- DLOAD: `[3:0]` = `D.TAG`, `[4]` = `D.SPC`. -/
def dataOfLoad (tag : Page) (spc : Bool) : Bus := (BitVec.ofBool spc ++ tag).setWidth 128

/-- PAGEOF: `[5:0]` = k, `[9:6]` = p. -/
def dataOfPageCode (p : Page) (k : Code) : Bus := (p ++ k).setWidth 128

/-- CODEOF: `[5:0]` = k. -/
def dataOfCode (k : Code) : Bus := k.setWidth 128

/-- DNEXT and CHAROF: `[20:0]` = the value. -/
def dataOfScalar (c : Scalar) : Bus := c.setWidth 128

/-- DESC: `[2:0]` = T, `[12:8]` = `char_slots`, `[19:16]` = `special_slots`. -/
def dataOfDescriptor (t charS spcS : Nat) : Bus :=
  (BitVec.ofNat 4 spcS ++ (0 : BitVec 3) ++ BitVec.ofNat 5 charS ++ (0 : BitVec 5) ++ BitVec.ofNat 3 t).setWidth 128

end Sys2Proof.Machine
end

