-- ==== Sys2Proof/Machine/Operands.lean ====
section
/-! DEFINITION. The packed-width descriptor: the constants of each width, the four bit primitives, and the tag and
units of a packed value. The operand fields of `arg` are read in Sys2Proof/Decode.lean (R58). -/

namespace Sys2Proof.Machine

/-! ### Widths and constants -/

/-- The width select code of a width (R59). -/
def widthCode : Width → WidthCode
  | .w8 => 0
  | .w16 => 1
  | .w32 => 2
  | .w64 => 3
  | .w128 => 4

/-- `N(W) = 8 << W` (R2, R59), for the codes 5 to 7 too, which the registers never hold (R12, R18; log
entry 12). -/
def widthBits (w : WidthCode) : Nat := 8 <<< w.toNat

/-- `T(N) = N mod 6`, the number of tag bits (R70). -/
def tagBits (n : Nat) : Nat := n % 6

/-- `N - T(N)`, the number of coding bits (R74). -/
def codingBits (n : Nat) : Nat := n - tagBits n

/-- `char_slots(N)`, the number of 6-bit slots (R71). -/
def charSlots (n : Nat) : Nat := codingBits n / 6

/-- `special_slots(N)`, the number of 15-bit slots (R72). -/
def specialSlots (n : Nat) : Nat := codingBits n / 15

/-- `slack15(N)`, the coding bits left below the last 15-bit unit (R73). The spec gives it no value at N = 8 and 16,
where nothing uses it (log entry 12). -/
def slack15 (n : Nat) : Nat := codingBits n % 15

/-! ### Bit primitives, on the 128-bit registers (R82) -/

/-- `shiftLeft` (R75). -/
def shiftLeft (v : Bus) (bits : Nat) : Bus := v <<< bits

/-- `widenIndex`: the zero-extending cast of a small unsigned integer (R76). -/
def widenIndex {m : Nat} (x : BitVec m) : Bus := x.setWidth 128

/-- `orInto` (R77). -/
def orInto (v bits : Bus) : Bus := v ||| bits

/-- `topByte` of the left-justified accumulator (R78, R82). -/
def topByte (v : Bus) : BitVec 8 := v.extractLsb' 120 8

/-- `zext_128(v[n-1:0])` (R6). -/
def lowBits (n : Nat) (v : Bus) : Bus := (v.setWidth n).setWidth 128

/-- `v` with bits k-1 to 0 written 0 (R133). -/
def clearLow (k : Nat) (v : Bus) : Bus := (v >>> k) <<< k

/-! ### Tags and units -/

/-- `stored(p, T)`: the tag as it stands in T bits (R50). -/
def storedTag (t : Nat) (p : Page) : Page := if t = 4 then p else p >>> 2

/-- `norm(t, T)`: a stored tag in its 4-bit form (R50, R132). -/
def normTag (t : Nat) (stored : Page) : Page := if t = 4 then stored else stored <<< 2

/-- A page is primary when its low two bits are 0 (R49). -/
abbrev Primary (p : Page) : Prop := p.extractLsb' 0 2 = 0

/-- The stored tag of an N-bit packed value, its top T bits (R45, R131). -/
def tagField (n : Nat) (v : Bus) : Page := (v >>> codingBits n).setWidth 4

/-- The coding region of an N-bit packed value, its low N-T bits (R45, R131). -/
def codingRegion (n : Nat) (v : Bus) : Bus := lowBits (codingBits n) v

/-- The next ordinary unit of the left-justified accumulator: the top byte without its low two bits (R78, R135). -/
def topCode (acc : Bus) : Code := (topByte acc >>> 2).setWidth 6

/-- The next special unit of the left-justified accumulator, `D.ACC[127:113]` (R135). -/
def topSpcUnit (acc : Bus) : SpcUnit := acc.extractLsb' 113 15

end Sys2Proof.Machine
end

