-- ==== Sys2Proof/WellFormed.lean ====
section
/-! DEFINITION. What is well formed: a command byte (R57) and the parameter record (R5, conditions V1 to V10).
An `Instr` needs no check of its own: each operand's type has exactly the bits R58 gives the operand (log entry 15). How
the conditions are read is log entry 13. -/

namespace Sys2Proof

/-! ### Commands -/

/-- `op` = `cmd[7:4]` (R55). -/
def Command.op (c : Command) : BitVec 4 := c.cmd.extractLsb' 4 4

/-- `w` = `cmd[3:0]` (R55). -/
def Command.w (c : Command) : BitVec 4 := c.cmd.extractLsb' 0 4

/-- A command byte is well formed when it is not reserved: `op` is 0x0 to 0x9, and `w` is 0 to 4 for the three
commands that take a width (R57). -/
def Command.wellFormed (c : Command) : Bool :=
  c.op.toNat ≤ 9 && (!(c.op == 1 || c.op == 4 || c.op == 9) || c.w.toNat ≤ 4)

/-! ### Parameters -/

/-- A Unicode scalar value: 0 to 0x10FFFF outside 0xD800 to 0xDFFF (R5, V6). -/
abbrev IsScalarValue (c : Scalar) : Prop :=
  c.toNat ≤ 0x10FFFF ∧ ¬ (0xD800 ≤ c.toNat ∧ c.toNat ≤ 0xDFFF)

/-- `in_special(c)` of R7: c lies in the special delta block. -/
abbrev Params.InSpecial (P : Params) (c : Scalar) : Prop := P.lowBound ≤ c ∧ c ≤ P.highBound

/-- The code indices 1 to 63. -/
def characterCodes : List Code := (List.range' 1 63).map (BitVec.ofNat 6)

/-- `n_p`, the number of assigned entries of page p at indices 1 to 63 (R5 V1, R85). -/
def Params.count (P : Params) (p : Page) : Nat :=
  (characterCodes.filter fun k => P.entry p k != P.sentinel).length

/-- Page p is reserved: all 64 entries are `SENTINEL`, index 0 included (R5, V1). -/
abbrev Params.ReservedPage (P : Params) (p : Page) : Prop := ∀ k : Code, P.entry p k = P.sentinel

/-- Page p has the shape of a valid page: `TERM_CHAR` at index 0, assigned entries at 1 to `n_p`, `SENTINEL`
above (R5, V1). -/
abbrev Params.ValidPage (P : Params) (p : Page) : Prop :=
  P.entry p 0 = P.termChar ∧ 1 ≤ P.count p ∧
    (∀ k : Code, 1 ≤ k.toNat → k.toNat ≤ P.count p → P.entry p k ≠ P.sentinel) ∧
    ∀ k : Code, P.count p < k.toNat → P.entry p k = P.sentinel

/-- c is a real character of page p: it stands at an index other than 0 and is not the sentinel (glossary of
`00_scope.md`). -/
abbrev Params.RealChar (P : Params) (p : Page) (c : Scalar) : Prop :=
  ∃ k : Code, k ≠ 0 ∧ P.entry p k = c ∧ c ≠ P.sentinel

/-- V1, page shape. -/
abbrev Params.V1 (P : Params) : Prop := ∀ p : Page, P.ReservedPage p ∨ P.ValidPage p

/-- V2, a valid page's real characters are strictly ascending. -/
abbrev Params.V2 (P : Params) : Prop :=
  ∀ p : Page, P.ValidPage p → ∀ k : Code, 1 ≤ k.toNat → k.toNat + 1 ≤ P.count p →
    P.entry p k < P.entry p (k + 1)

/-- V3, the whole array ascends: `TERM_CHAR < c < SENTINEL` for every real character. -/
abbrev Params.V3 (P : Params) : Prop :=
  ∀ (p : Page) (k : Code), k ≠ 0 → P.entry p k ≠ P.sentinel →
    P.termChar < P.entry p k ∧ P.entry p k < P.sentinel

/-- V4, valid pages stand in ascending order of their first characters. -/
abbrev Params.V4 (P : Params) : Prop :=
  ∀ p q : Page, p < q → P.ValidPage p → P.ValidPage q → P.entry p 1 < P.entry q 1

/-- V5, terminator and sentinel are no characters. -/
abbrev Params.V5 (P : Params) : Prop :=
  P.termChar ≠ P.sentinel ∧
    (∀ (p : Page) (k : Code), k ≠ 0 → P.entry p k ≠ P.sentinel → P.entry p k ≠ P.termChar) ∧
    IsScalarValue P.sentinel ∧ ¬ P.InSpecial P.termChar ∧ ¬ P.InSpecial P.sentinel

/-- V6, real characters are Unicode scalar values. -/
abbrev Params.V6 (P : Params) : Prop :=
  ∀ (p : Page) (k : Code), k ≠ 0 → P.entry p k ≠ P.sentinel → IsScalarValue (P.entry p k)

/-- V7, no scalar value is a real character of two different pages. -/
abbrev Params.V7 (P : Params) : Prop :=
  ∀ (p q : Page) (c : Scalar), P.RealChar p c → P.RealChar q c → p = q

/-- V8, the special block fits its 15-bit unit with 0 kept for padding, and holds scalar values only. -/
abbrev Params.V8 (P : Params) : Prop :=
  P.lowBound ≤ P.highBound ∧ P.highBound.toNat - P.lowBound.toNat + 1 ≤ 32767 ∧
    ∀ c : Scalar, P.InSpecial c → IsScalarValue c

/-- V9, the special tag is primary. -/
abbrev Params.V9 (P : Params) : Prop := P.specialTag.extractLsb' 0 2 = 0

/-- V10, the table page at index `SPECIAL_TAG` is reserved or holds characters of the special block only. -/
abbrev Params.V10 (P : Params) : Prop :=
  P.ReservedPage P.specialTag ∨ ∀ c : Scalar, P.RealChar P.specialTag c → P.InSpecial c

/-- The special delta block's place in V4, for the cross-page ordering law (R5 at V10, R156): it stands among the valid
pages as a page whose first character is `LOW_BOUND` at index `SPECIAL_TAG`. A premise of that law's clause on first
characters, beside V1 to V10 (log entry 13). -/
abbrev Params.V4WithBlock (P : Params) : Prop :=
  ∀ p : Page, P.ValidPage p →
    (p < P.specialTag → P.entry p 1 < P.lowBound) ∧ (P.specialTag < p → P.lowBound < P.entry p 1)

/-- Valid `Params` (R5): V1 to V10 all hold. A premise of the laws, never tested by the block (R188). -/
structure Params.Valid (P : Params) : Prop where
  v1  : P.V1
  v2  : P.V2
  v3  : P.V3
  v4  : P.V4
  v5  : P.V5
  v6  : P.V6
  v7  : P.V7
  v8  : P.V8
  v9  : P.V9
  v10 : P.V10

end Sys2Proof
end

