-- ==== Sys2Proof/Machine/Ops.lean ====
section
/-! DEFINITION. The named operations the meanings share: the ROM read and the registry's lookups, the response of a
command, the writes of the register sets, and the entry into and the leaving of an encoder error. -/

namespace Sys2Proof.Machine

/-! ### The code page ROM and the registry -/

/-- `RomRead(p, k) = PAGES[p][k]`, the block's only memory read (R7, R30). -/
def romRead (P : Params) (p : Page) (k : Code) : Scalar := P.entry p k

/-- `charOf(p, k)` (R90). -/
def charOf (P : Params) (p : Page) (k : Code) : Scalar := romRead P p k

/-- `codeOf(p, c)`: the least code 1 to 63 at which page p holds c, and none for `SENTINEL` and `TERM_CHAR` (R88). -/
def codeOf (P : Params) (p : Page) (c : Scalar) : Option Code :=
  if c = P.sentinel ∨ c = P.termChar then none
  else characterCodes.find? fun k => romRead P p k == c

/-- The page indices 0 to 15 in the order `pageOf` searches them (R89). -/
def pageIndices : List Page := (List.range 16).map (BitVec.ofNat 4)

/-- `pageOf(c)`: the lowest page that holds c, with c's code there (R89). -/
def pageOf (P : Params) (c : Scalar) : Option (Page × Code) :=
  pageIndices.findSome? fun p => (codeOf P p c).map fun k => (p, k)

/-- `spcUnit(c)`: the unit of a character of the special delta block (R92). -/
def spcUnit (P : Params) (c : Scalar) : Option SpcUnit :=
  if P.InSpecial c then some ((c - P.lowBound + 1).setWidth 15) else none

/-- `spcChar(u)`: the character of a unit, `LOW_BOUND + u - 1` (R92); never evaluated at u = 0 (log entry 12). -/
def spcChar (P : Params) (u : SpcUnit) : Scalar := P.lowBound + u.setWidth 21 - 1

/-! ### Writes -/

/-- `respond(status, data, info)` (R7, R60). -/
def State.respond (s : State) (status : Status) (data : Bus) (info : Scalar) : State :=
  { s with rsp := some { status := status, data := data, info := info } }

/-- Write of the encoder registers. -/
def State.setEnc (s : State) (e : EncRegs) : State := { s with enc := e }

/-- Write of the decoder registers. -/
def State.setDec (s : State) (d : DecRegs) : State := { s with dec := d }

/-! ### Errors: entry, and the way out -/

/-- The registers after `fail K(info)`: the error is latched, everything else is kept (R120, R170). -/
def EncRegs.latch (e : EncRegs) (x : EncError) : EncRegs :=
  { e with mode := .err, err := x.status, info := x.info }

/-- `fail K(info)`: the one way into an error (R120). -/
def State.fail (s : State) (x : EncError) : State :=
  (s.setEnc (s.enc.latch x)).respond x.status 0 x.info

/-- The encoder registers after a valid ESTART, the one command that leaves an error (R106, R172). -/
def EncRegs.start (w : WidthCode) : EncRegs :=
  { w := w, mode := .empty, page := 0, acc := 0, rem := 0, err := .ok, info := 0 }

/-- The end of an EPUSH: the registers of an accepted character, or the error (R107, R120). -/
def State.settle (s : State) : Except EncError EncRegs → State
  | .ok e => (s.setEnc e).respond .ok 0 0
  | .error x => s.fail x

end Sys2Proof.Machine
end

