-- ==== Sys2Proof/Machine/Decoder.lean ====
section
/-! DEFINITION. The meanings of DLOAD and DNEXT (`43_decoder.md`). -/

namespace Sys2Proof.Machine

/-! ### DLOAD -/

/-- The decoder registers DLOAD writes (R131): the normalised tag (R132), the choice of mode (R48), and the coding
region left-justified, its spare bits cleared in special mode (R133). -/
def loadedRegs (P : Params) (w : WidthCode) (arg : Bus) : DecRegs :=
  let n := widthBits w
  let v := lowBits n arg
  let tag := normTag (tagBits n) (tagField n v)
  let spc := decide (tag = P.specialTag ∧ 0 < specialSlots n)
  let region := codingRegion n v
  let body := if spc then clearLow (slack15 n) region else region
  { w := w, tag := tag, spc := spc, acc := shiftLeft body (128 - codingBits n) }

/-- DLOAD at a width (R131). -/
def loadDecoder (w : WidthCode) (arg : Bus) (s : State) : State :=
  let d := loadedRegs s.params w arg
  (s.setDec d).respond .ok (dataOfLoad d.tag d.spc) 0

/-- DLOAD w8 (R131). -/
def execDloadW8 (v : BitVec 8) (s : State) : Host.Outcome State Fault Refusal :=
  .next (loadDecoder (widthCode .w8) (v.setWidth 128) s)

/-- DLOAD w16 (R131). -/
def execDloadW16 (v : BitVec 16) (s : State) : Host.Outcome State Fault Refusal :=
  .next (loadDecoder (widthCode .w16) (v.setWidth 128) s)

/-- DLOAD w32 (R131). -/
def execDloadW32 (v : BitVec 32) (s : State) : Host.Outcome State Fault Refusal :=
  .next (loadDecoder (widthCode .w32) (v.setWidth 128) s)

/-- DLOAD w64 (R131). -/
def execDloadW64 (v : BitVec 64) (s : State) : Host.Outcome State Fault Refusal :=
  .next (loadDecoder (widthCode .w64) (v.setWidth 128) s)

/-- DLOAD w128 (R131). -/
def execDloadW128 (v : BitVec 128) (s : State) : Host.Outcome State Fault Refusal :=
  .next (loadDecoder (widthCode .w128) v s)

/-! ### DNEXT -/

/-- DNEXT when the next unit is not 0: the accumulator moves past the unit and the character is the response. -/
def emit (c : Scalar) (unitBits : Nat) (s : State) : State :=
  (s.setDec { s.dec with acc := shiftLeft s.dec.acc unitBits }).respond .ok (dataOfScalar c) 0

/-- DNEXT (R135): a zero unit ends the sequence and changes no register (R136); otherwise the character of the page or
of the special block, unchecked (R137, R138). -/
def execDnext (s : State) : Host.Outcome State Fault Refusal :=
  .next (match s.dec.spc with
    | true =>
      if topSpcUnit s.dec.acc = 0 then s.respond .endOfSequence 0 0
      else emit (spcChar s.params (topSpcUnit s.dec.acc)) 15 s
    | false =>
      if topCode s.dec.acc = 0 then s.respond .endOfSequence 0 0
      else emit (charOf s.params s.dec.tag (topCode s.dec.acc)) 6 s)

end Sys2Proof.Machine
end

