-- ==== Sys2Proof/Machine/Descriptor.lean ====
section
/-! DEFINITION. The meanings of NOP and DESC (`40_descriptor.md`). Neither reads or writes a register. -/

namespace Sys2Proof.Machine

/-- DESC at a width (R80). -/
def describe (w : WidthCode) (s : State) : State :=
  let n := widthBits w
  s.respond .ok (dataOfDescriptor (tagBits n) (charSlots n) (specialSlots n)) 0

/-- NOP (R81). -/
def execNop (s : State) : Host.Outcome State Fault Refusal := .next (s.respond .ok 0 0)

/-- DESC w8 (R80). -/
def execDescW8 (s : State) : Host.Outcome State Fault Refusal := .next (describe (widthCode .w8) s)

/-- DESC w16 (R80). -/
def execDescW16 (s : State) : Host.Outcome State Fault Refusal := .next (describe (widthCode .w16) s)

/-- DESC w32 (R80). -/
def execDescW32 (s : State) : Host.Outcome State Fault Refusal := .next (describe (widthCode .w32) s)

/-- DESC w64 (R80). -/
def execDescW64 (s : State) : Host.Outcome State Fault Refusal := .next (describe (widthCode .w64) s)

/-- DESC w128 (R80). -/
def execDescW128 (s : State) : Host.Outcome State Fault Refusal := .next (describe (widthCode .w128) s)

end Sys2Proof.Machine
end

