-- ==== Sys2Proof/Machine/Encoder.lean ====
section
/-! DEFINITION. The meanings of ESTART, EPUSH and EREAD (`42_encoder.md`). -/

namespace Sys2Proof.Machine

/-! ### ESTART -/

/-- ESTART at a width: every encoder register is written (R106). -/
def startEncoder (w : WidthCode) (s : State) : State := (s.setEnc (EncRegs.start w)).respond .ok 0 0

/-- ESTART w8 (R106). -/
def execEstartW8 (s : State) : Host.Outcome State Fault Refusal := .next (startEncoder (widthCode .w8) s)

/-- ESTART w16 (R106). -/
def execEstartW16 (s : State) : Host.Outcome State Fault Refusal := .next (startEncoder (widthCode .w16) s)

/-- ESTART w32 (R106). -/
def execEstartW32 (s : State) : Host.Outcome State Fault Refusal := .next (startEncoder (widthCode .w32) s)

/-- ESTART w64 (R106). -/
def execEstartW64 (s : State) : Host.Outcome State Fault Refusal := .next (startEncoder (widthCode .w64) s)

/-- ESTART w128 (R106). -/
def execEstartW128 (s : State) : Host.Outcome State Fault Refusal := .next (startEncoder (widthCode .w128) s)

/-! ### EPUSH -/

/-- The choice of page by the first character (R110 to R112): the special block first, then the table pages, then
the check that a narrow width's page is primary. -/
def choosePage (P : Params) (c : Scalar) (e : EncRegs) : Except EncError EncRegs :=
  let n := widthBits e.w
  let t := tagBits n
  if P.InSpecial c ∧ 0 < specialSlots n then
    .ok { e with
      mode := .spc, page := P.specialTag, acc := widenIndex (storedTag t P.specialTag),
      rem := BitVec.ofNat 5 (specialSlots n) }
  else match pageOf P c with
    | none => .error (.noCodePage c)
    | some (p, _) =>
      if t = 2 ∧ ¬ Primary p then .error (.pageUnavailable p)
      else .ok { e with
        mode := .ord, page := p, acc := widenIndex (storedTag t p), rem := BitVec.ofNat 5 (charSlots n) }

/-- One unit into the accumulator, or TOO_LONG when no slot is left (R114, R115, R117, R118). -/
def acceptUnit (bits : Nat) (u : Bus) (e : EncRegs) : Except EncError EncRegs :=
  if e.rem = 0 then .error .tooLong
  else .ok { e with acc := orInto (shiftLeft e.acc bits) u, rem := e.rem - 1 }

/-- Ordinary mode: membership in the page first, then capacity (R113 to R115). -/
def pushOrdinary (P : Params) (c : Scalar) (e : EncRegs) : Except EncError EncRegs :=
  match codeOf P e.page c with
  | none => .error (.missingFromPage c)
  | some k => acceptUnit 6 (widenIndex k) e

/-- Special mode: membership in the block first, then capacity (R116 to R118). -/
def pushSpecial (P : Params) (c : Scalar) (e : EncRegs) : Except EncError EncRegs :=
  match spcUnit P c with
  | none => .error (.missingFromPage c)
  | some u => acceptUnit 15 (widenIndex u) e

/-- The branch of R107 that every character takes once a page is chosen. `choosePage` leaves the mode `ord` or `spc`;
the other two modes do not come here (log entry 12). -/
def pushUnit (P : Params) (c : Scalar) (e : EncRegs) : Except EncError EncRegs :=
  match e.mode with
  | .ord => pushOrdinary P c e
  | .spc => pushSpecial P c e
  | .empty => .ok e
  | .err => .ok e

/-- The encoder registers after a character, or its error, where no error is latched yet (R107). -/
def pushChar (P : Params) (c : Scalar) (e : EncRegs) : Except EncError EncRegs :=
  if e.mode = .empty then
    match choosePage P c e with
    | .ok e' => pushUnit P c e'
    | .error x => .error x
  else pushUnit P c e

/-- EPUSH (R107, R108): the latched error again, or one character. -/
def execEpush (c : Scalar) (s : State) : Host.Outcome State Fault Refusal :=
  .next (if s.enc.mode = .err then s.respond s.enc.err 0 s.enc.info
    else s.settle (pushChar s.params c s.enc))

/-! ### EREAD -/

/-- The padded packed value of the characters fed so far, in ORD or SPC mode: the pad shift brings the tag to the top
T bits (R119). -/
def paddedValue (e : EncRegs) (padBits : Nat) : Bus := lowBits (widthBits e.w) (shiftLeft e.acc padBits)

/-- EREAD (R119). -/
def execEread (s : State) : Host.Outcome State Fault Refusal :=
  .next (match s.enc.mode with
    | .err => s.respond s.enc.err 0 s.enc.info
    | .empty => s.respond .ok 0 0
    | .ord => s.respond .ok (paddedValue s.enc (6 * s.enc.rem.toNat)) 0
    | .spc => s.respond .ok (paddedValue s.enc (15 * s.enc.rem.toNat + slack15 (widthBits s.enc.w))) 0)

end Sys2Proof.Machine
end

