-- ==== Sys2Proof/Machine/Registry.lean ====
section
/-! DEFINITION. The meanings of PAGEOF, CODEOF and CHAROF (`41_registry.md`). They read the ROM and no register. -/

namespace Sys2Proof.Machine

/-- PAGEOF (R95). -/
def execPageof (c : Scalar) (s : State) : Host.Outcome State Fault Refusal :=
  .next (match pageOf s.params c with
    | some (p, k) => s.respond .ok (dataOfPageCode p k) 0
    | none => s.respond .notFound 0 0)

/-- CODEOF (R96). -/
def execCodeof (p : Page) (c : Scalar) (s : State) : Host.Outcome State Fault Refusal :=
  .next (match codeOf s.params p c with
    | some k => s.respond .ok (dataOfCode k) 0
    | none => s.respond .notFound 0 0)

/-- CHAROF (R97). -/
def execCharof (p : Page) (k : Code) (s : State) : Host.Outcome State Fault Refusal :=
  .next (s.respond .ok (dataOfScalar (charOf s.params p k)) 0)

end Sys2Proof.Machine
end

