-- ==== Sys2Proof/Machine/Dispatch.lean ====
section
/-! DEFINITION. The meaning of each instruction, one arm per constructor. -/

namespace Sys2Proof.Machine

/-- The effect of one accepted command on the registers and the response (R8). -/
def exec (i : Instr) (s : State) : Host.Outcome State Fault Refusal :=
  match i with
  | .nop => Sys2Proof.Machine.execNop s
  | .estartW8 => Sys2Proof.Machine.execEstartW8 s
  | .estartW16 => Sys2Proof.Machine.execEstartW16 s
  | .estartW32 => Sys2Proof.Machine.execEstartW32 s
  | .estartW64 => Sys2Proof.Machine.execEstartW64 s
  | .estartW128 => Sys2Proof.Machine.execEstartW128 s
  | .epush c => Sys2Proof.Machine.execEpush c s
  | .eread => Sys2Proof.Machine.execEread s
  | .dloadW8 v => Sys2Proof.Machine.execDloadW8 v s
  | .dloadW16 v => Sys2Proof.Machine.execDloadW16 v s
  | .dloadW32 v => Sys2Proof.Machine.execDloadW32 v s
  | .dloadW64 v => Sys2Proof.Machine.execDloadW64 v s
  | .dloadW128 v => Sys2Proof.Machine.execDloadW128 v s
  | .dnext => Sys2Proof.Machine.execDnext s
  | .pageof c => Sys2Proof.Machine.execPageof c s
  | .codeof p c => Sys2Proof.Machine.execCodeof p c s
  | .charof p k => Sys2Proof.Machine.execCharof p k s
  | .descW8 => Sys2Proof.Machine.execDescW8 s
  | .descW16 => Sys2Proof.Machine.execDescW16 s
  | .descW32 => Sys2Proof.Machine.execDescW32 s
  | .descW64 => Sys2Proof.Machine.execDescW64 s
  | .descW128 => Sys2Proof.Machine.execDescW128 s

end Sys2Proof.Machine
end

