-- ==== Sys2Proof/Decode.lean ====
section
/-! DEFINITION. The decoder of a command, total on every command byte and operand and rejecting by name, the
encoder beside it, the opcode table as rows of masks and patterns, and the reading of a table word. -/

namespace Sys2Proof

/-- Why a command byte has no instruction (R57). Not a fault: the block answers `BAD_CMD` (log entry 7). -/
inductive Reserved where
  /-- `op` is 0xA to 0xF. -/
  | op (op : BitVec 4)
  /-- `op` is ESTART, DLOAD or DESC and `w` is 5 to 15. -/
  | width (op w : BitVec 4)
  deriving DecidableEq, Repr

/-- The width select code of the three commands that take one (R59); `none` for 5 to 15. -/
def decodeWidth (w : BitVec 4) : Option Width :=
  match w.toNat with
  | 0 => some .w8
  | 1 => some .w16
  | 2 => some .w32
  | 3 => some .w64
  | 4 => some .w128
  | _ => none

/-- EPUSH and PAGEOF: `arg[20:0]` = c (R58). -/
def argScalar (arg : Bus) : Scalar := arg.extractLsb' 0 21

/-- CODEOF: `arg[27:24]` = p (R58). -/
def argCodeofPage (arg : Bus) : Page := arg.extractLsb' 24 4

/-- CHAROF: `arg[9:6]` = p (R58). -/
def argCharofPage (arg : Bus) : Page := arg.extractLsb' 6 4

/-- CHAROF: `arg[5:0]` = k (R58). -/
def argCode (arg : Bus) : Code := arg.extractLsb' 0 6

/-- The opcode map of R56, with the reserved bytes of R57. -/
def decode (c : Command) : Except Reserved Instr :=
  match c.op.toNat with
  | 0x0 => .ok .nop
  | 0x1 => match decodeWidth c.w with
    | some w => .ok (.ofEstart w)
    | none => .error (.width c.op c.w)
  | 0x2 => .ok (.epush (argScalar c.arg))
  | 0x3 => .ok .eread
  | 0x4 => match decodeWidth c.w with
    | some w => .ok (.ofDload w c.arg)
    | none => .error (.width c.op c.w)
  | 0x5 => .ok .dnext
  | 0x6 => .ok (.pageof (argScalar c.arg))
  | 0x7 => .ok (.codeof (argCodeofPage c.arg) (argScalar c.arg))
  | 0x8 => .ok (.charof (argCharofPage c.arg) (argCode c.arg))
  | 0x9 => match decodeWidth c.w with
    | some w => .ok (.ofDesc w)
    | none => .error (.width c.op c.w)
  | _ => .error (.op c.op)

/-- The command of an instruction, from R56, R58 and R63: where a command ignores `w` the spec writes it 0, and
every `arg` bit that names nothing is 0. -/
def encode : Instr → Command
  | .nop => ⟨0x00, 0⟩
  | .estartW8 => ⟨0x10, 0⟩
  | .estartW16 => ⟨0x11, 0⟩
  | .estartW32 => ⟨0x12, 0⟩
  | .estartW64 => ⟨0x13, 0⟩
  | .estartW128 => ⟨0x14, 0⟩
  | .epush c => ⟨0x20, c.setWidth 128⟩
  | .eread => ⟨0x30, 0⟩
  | .dloadW8 v => ⟨0x40, v.setWidth 128⟩
  | .dloadW16 v => ⟨0x41, v.setWidth 128⟩
  | .dloadW32 v => ⟨0x42, v.setWidth 128⟩
  | .dloadW64 v => ⟨0x43, v.setWidth 128⟩
  | .dloadW128 v => ⟨0x44, v⟩
  | .dnext => ⟨0x50, 0⟩
  | .pageof c => ⟨0x60, c.setWidth 128⟩
  | .codeof p c => ⟨0x70, (p ++ (0 : BitVec 3) ++ c).setWidth 128⟩
  | .charof p k => ⟨0x80, (p ++ k).setWidth 128⟩
  | .descW8 => ⟨0x90, 0⟩
  | .descW16 => ⟨0x91, 0⟩
  | .descW32 => ⟨0x92, 0⟩
  | .descW64 => ⟨0x93, 0⟩
  | .descW128 => ⟨0x94, 0⟩

/-! ### The opcode table -/

/-- One row of the opcode table: the row's mnemonic, and the mask and pattern of its command byte. -/
structure OpcodeRow where
  mnemonic : String
  mask : Byte
  pattern : Byte
  deriving DecidableEq, Repr

/-- The command byte `b` is one of the row's. -/
def OpcodeRow.admits (r : OpcodeRow) (b : Byte) : Bool := b &&& r.mask == r.pattern

/-- The table's row of an instruction. -/
def Instr.row : Instr → OpcodeRow
  | .nop => ⟨"NOP", 0xF0, 0x00⟩
  | .estartW8 => ⟨"ESTART.w8", 0xFF, 0x10⟩
  | .estartW16 => ⟨"ESTART.w16", 0xFF, 0x11⟩
  | .estartW32 => ⟨"ESTART.w32", 0xFF, 0x12⟩
  | .estartW64 => ⟨"ESTART.w64", 0xFF, 0x13⟩
  | .estartW128 => ⟨"ESTART.w128", 0xFF, 0x14⟩
  | .epush _ => ⟨"EPUSH", 0xF0, 0x20⟩
  | .eread => ⟨"EREAD", 0xF0, 0x30⟩
  | .dloadW8 _ => ⟨"DLOAD.w8", 0xFF, 0x40⟩
  | .dloadW16 _ => ⟨"DLOAD.w16", 0xFF, 0x41⟩
  | .dloadW32 _ => ⟨"DLOAD.w32", 0xFF, 0x42⟩
  | .dloadW64 _ => ⟨"DLOAD.w64", 0xFF, 0x43⟩
  | .dloadW128 _ => ⟨"DLOAD.w128", 0xFF, 0x44⟩
  | .dnext => ⟨"DNEXT", 0xF0, 0x50⟩
  | .pageof _ => ⟨"PAGEOF", 0xF0, 0x60⟩
  | .codeof _ _ => ⟨"CODEOF", 0xF0, 0x70⟩
  | .charof _ _ => ⟨"CHAROF", 0xF0, 0x80⟩
  | .descW8 => ⟨"DESC.w8", 0xFF, 0x90⟩
  | .descW16 => ⟨"DESC.w16", 0xFF, 0x91⟩
  | .descW32 => ⟨"DESC.w32", 0xFF, 0x92⟩
  | .descW64 => ⟨"DESC.w64", 0xFF, 0x93⟩
  | .descW128 => ⟨"DESC.w128", 0xFF, 0x94⟩

/-! ### Table words -/

/-- The command whose bits, numbered as the table numbers them, are the low `nbits` of `w`: bits 7 to 0 are `cmd`
and the operand bus counts on from bit 8; every bit above `nbits` is 0 (log entry 5). -/
def Command.ofTableWord (nbits w : Nat) : Command :=
  let v := w % 2 ^ nbits
  ⟨BitVec.ofNat 8 v, BitVec.ofNat 128 (v / 2 ^ 8)⟩

/-- The instruction the decoder reads from a table word; `none` where the command byte is reserved. -/
def decodeTableWord (nbits w : Nat) : Option Instr :=
  match decode (Command.ofTableWord nbits w) with
  | .ok i => some i
  | .error _ => none

end Sys2Proof
end

