-- ==== Sys2Proof/Machine/Port.lean ====
section
/-! DEFINITION. The command port (R11): what an edge samples, what the edges that run no command do, and the output
signals. -/

namespace Sys2Proof.Machine

/-- An edge at which the host drives nothing: `rst` = 0 and `cmd_valid` = 0. -/
def Edge.idle : Edge := { rst := false, cmdValid := false, cmd := 0, arg := 0 }

/-- An edge at which the host presents a command. -/
def Edge.present (c : Command) : Edge := { rst := false, cmdValid := true, cmd := c.cmd, arg := c.arg }

/-- An edge at which `rst` is 1. -/
def Edge.resetting : Edge := { rst := true, cmdValid := false, cmd := 0, arg := 0 }

/-- The command an edge samples: none unless `cmd_valid` is 1, and none where `rst` is 1 (R11, R185). -/
def Edge.command (e : Edge) : Option Command :=
  if e.rst then none else if e.cmdValid then some { cmd := e.cmd, arg := e.arg } else none

/-- What the coming edge samples: the next of the host's inputs, or an idle port when the host has none (R10). -/
def State.edge (s : State) : Edge := s.inputs.headD Edge.idle

/-- The coming edge has passed: its inputs are gone from the port. -/
def State.advance (s : State) : State := { s with inputs := s.inputs.tail }

/-- An edge with `rst` = 1: every register takes its reset value, the parameters stay, and nothing is answered
(R185). -/
def State.resetEdge (s : State) : State :=
  { s with enc := EncRegs.reset, dec := DecRegs.reset, rsp := none }

/-- An edge with no command: all registers keep their values and no response is presented (R10, R181). -/
def State.idleEdge (s : State) : State := { s with rsp := none }

/-- A reserved command byte: BAD_CMD and no register changes (R57). -/
def State.badCommand (s : State) : State := s.respond .badCmd 0 0

/-- `rsp_valid` (R11). While it is 1 the other three output signals are the fields of the response; while it is 0 the
spec gives them no value and the model none (log entry 3). -/
def State.rspValid (s : State) : BitVec 1 := BitVec.ofBool s.rsp.isSome

/-- `rsp_status` as a wire, while a response is presented (R11, R61). -/
def State.rspStatus (s : State) : Option (BitVec 3) := s.rsp.map fun r => r.status.code

end Sys2Proof.Machine
end

