-- ==== Sys2Proof/Machine/Step.lean ====
section
/-! DEFINITION. One step: one rising edge of the clock (R8, R11, R185). -/

namespace Sys2Proof.Machine

/-- One rising edge, which gives the response too (log entry 6). Reset wins over a command presented on the same edge;
a command is decoded and executed, or answered BAD_CMD; with neither, the block is idle. -/
def step (s : State) : Host.Outcome State Fault Refusal :=
  if s.edge.rst then .next s.advance.resetEdge
  else match s.edge.command with
    | none => .next s.advance.idleEdge
    | some c =>
      match decode c with
      | .ok i => exec i s.advance
      | .error _ => .next s.advance.badCommand

/-- The state with an instruction's bits presented at the coming edge, in place of whatever the host was to drive
there (log entry 4). -/
def State.withFetchWord (s : State) (nbits w : Nat) : State :=
  { s with inputs := Edge.present (Command.ofTableWord nbits w) :: s.inputs.tail }

end Sys2Proof.Machine
end

