-- ==== Sys2Proof/Machine/Codec.lean ====
section
/-! DEFINITION. The whole-string function `Encode(N, s)` and the whole-value function `Decode(N, v)` as the spec
writes them out (R122, R143), apart from any command or register. That the transactions compute them is stated,
not assumed. -/

namespace Sys2Proof.Machine

/-- The loop of R122 over the characters after the tag: the unit of each character goes into the next slot of
`unitBits` bits; the membership test comes before the capacity test. -/
def packUnits (n unitBits slots : Nat) (unitOf : Scalar → Option Bus) : Nat → Bus → List Scalar → Response
  | _, v, [] => { status := .ok, data := v, info := 0 }
  | i, v, c :: cs =>
    match unitOf c with
    | none => { status := .missingFromPage, data := 0, info := c }
    | some u =>
      if slots ≤ i then { status := .tooLong, data := 0, info := 0 }
      else packUnits n unitBits slots unitOf (i + 1) (v ||| u <<< (codingBits n - unitBits * (i + 1))) cs

/-- `stored(p, T) << (N - T)`: a value of page p with an empty coding region. -/
def tagged (n : Nat) (p : Page) : Bus := widenIndex (storedTag (tagBits n) p) <<< codingBits n

/-- `Encode(N, s)` written out (R122). -/
def encodeFunction (P : Params) (n : Nat) (cs : List Scalar) : Response :=
  match cs with
  | [] => { status := .ok, data := 0, info := 0 }
  | c :: _ =>
    if P.InSpecial c ∧ 0 < specialSlots n then
      packUnits n 15 (specialSlots n) (fun d => (spcUnit P d).map widenIndex) 0 (tagged n P.specialTag) cs
    else match pageOf P c with
      | none => { status := .noCodePage, data := 0, info := c }
      | some (p, _) =>
        if tagBits n = 2 ∧ ¬ Primary p then { status := .pageUnavailable, data := 0, info := p.setWidth 21 }
        else packUnits n 6 (charSlots n) (fun d => (codeOf P p d).map widenIndex) 0 (tagged n p) cs

/-- Unit j of a packed value, the bits `[N-T-1-b*j : N-T-b-b*j]` (R46, R47). -/
def unitAt (n unitBits : Nat) (v : Bus) (j : Nat) : BitVec unitBits :=
  (v >>> (codingBits n - unitBits * (j + 1))).setWidth unitBits

/-- The loop of R143: the characters of the units from unit j on, up to the first zero unit, at most `slots` more. -/
def readUnits (n unitBits : Nat) (charOfUnit : BitVec unitBits → Scalar) (v : Bus) : Nat → Nat → List Scalar
  | 0, _ => []
  | slots + 1, j =>
    if unitAt n unitBits v j = 0 then []
    else charOfUnit (unitAt n unitBits v j) :: readUnits n unitBits charOfUnit v slots (j + 1)

/-- `Decode(N, v)` written out (R143), for a value whose bits above N are 0. -/
def decodeFunction (P : Params) (n : Nat) (v : Bus) : List Scalar :=
  let tag := normTag (tagBits n) (tagField n v)
  if tag = P.specialTag ∧ 0 < specialSlots n then readUnits n 15 (spcChar P) v (specialSlots n) 0
  else readUnits n 6 (charOf P tag) v (charSlots n) 0

/-- The canonical values of a width as R53 lists them, for a value whose bits above N are 0: the value 0, the ordinary
values, and the special values. -/
def CanonicalForm (P : Params) (n : Nat) (v : Bus) : Prop :=
  let p := normTag (tagBits n) (tagField n v)
  v = 0 ∨
  (P.ValidPage p ∧ (0 < specialSlots n → ¬ P.InSpecial (P.entry p (unitAt n 6 v 0))) ∧
    ∃ m, 1 ≤ m ∧ m ≤ charSlots n ∧
      (∀ j < m, 1 ≤ (unitAt n 6 v j).toNat ∧ (unitAt n 6 v j).toNat ≤ P.count p) ∧
      ∀ j, m ≤ j → j < charSlots n → unitAt n 6 v j = 0) ∨
  (0 < specialSlots n ∧ p = P.specialTag ∧ v.toNat % 2 ^ slack15 n = 0 ∧
    ∃ m, 1 ≤ m ∧ m ≤ specialSlots n ∧
      (∀ j < m, 1 ≤ (unitAt n 15 v j).toNat ∧
        (unitAt n 15 v j).toNat ≤ P.highBound.toNat - P.lowBound.toNat + 1) ∧
      ∀ j, m ≤ j → j < specialSlots n → unitAt n 15 v j = 0)

/-- The page a string is encoded on, the special delta block counted as page `SPECIAL_TAG` (R110, R156); none for
the empty string and for a first character found nowhere. -/
def chosenPage (P : Params) (n : Nat) (cs : List Scalar) : Option Page :=
  match cs with
  | [] => none
  | c :: _ =>
    if P.InSpecial c ∧ 0 < specialSlots n then some P.specialTag else (pageOf P c).map Prod.fst

/-- The first character of what a string is encoded on: of the table page, or `LOW_BOUND` for the special delta block,
which at a width with a special slot stands as page `SPECIAL_TAG` (R5 at V10, R156). -/
def firstCharacter (P : Params) (n : Nat) (p : Page) : Scalar :=
  if p = P.specialTag ∧ 0 < specialSlots n then P.lowBound else P.entry p 1

/-- The first character of a sequence selects another page or mode than the tag of the value names (R161). -/
def SelectsAnotherPage (P : Params) (n : Nat) (v : Bus) (cs : List Scalar) : Prop :=
  ∃ p : Page, chosenPage P n cs = some p ∧ p ≠ normTag (tagBits n) (tagField n v)

/-- R161's reasons why what a value decodes to fails to encode: the sequence holds the sentinel, or a value above
`HIGH_BOUND`, or its first character selects another page or mode. -/
def ReencodingFails (P : Params) (n : Nat) (v : Bus) (cs : List Scalar) : Prop :=
  P.sentinel ∈ cs ∨ (∃ c ∈ cs, P.highBound < c) ∨ SelectsAnotherPage P n v cs

/-- R161's reasons why what a value decodes to encodes to another value: a nonzero unit after a zero one, nonzero spare
bits in special mode, or a value other than 0 whose first unit is 0. -/
def ReencodingDiffers (P : Params) (n : Nat) (v : Bus) : Prop :=
  let spc := normTag (tagBits n) (tagField n v) = P.specialTag ∧ 0 < specialSlots n
  (spc ∧ ((∃ i j, i < j ∧ j < specialSlots n ∧ unitAt n 15 v i = 0 ∧ unitAt n 15 v j ≠ 0) ∨
      v.toNat % 2 ^ slack15 n ≠ 0 ∨ (unitAt n 15 v 0 = 0 ∧ v ≠ 0))) ∨
  (¬ spc ∧ ((∃ i j, i < j ∧ j < charSlots n ∧ unitAt n 6 v i = 0 ∧ unitAt n 6 v j ≠ 0) ∨
      (unitAt n 6 v 0 = 0 ∧ v ≠ 0)))

end Sys2Proof.Machine
end

