-- ==== Sys2Proof/Machine/Transaction.lean ====
section
/-! DEFINITION. Sequences of commands: the fold of the command rules (R40), the two pseudo-commands ENCODE and DECODE as
what they stand for (R64, R105, R130), and strict validation by re-encoding (R161). -/

namespace Sys2Proof.Machine

/-- The commands of a list, each after the one before (R40). -/
def runCommands : List Instr → State → Host.Outcome State Fault Refusal
  | [], s => .next s
  | i :: is, s =>
    match exec i s with
    | .next s' => runCommands is s'
    | .fault r => .fault r
    | .refused r => .refused r

/-- The edges at which the host presents the commands of a list, one an edge. -/
def presentAll (is : List Instr) : List Edge := is.map fun i => Edge.present (encode i)

/-- The commands of an encode transaction (R105): ESTART, one EPUSH for each character, EREAD. -/
def encodeCommands (w : Width) (cs : List Scalar) : List Instr :=
  Instr.ofEstart w :: (cs.map Instr.epush ++ [Instr.eread])

/-- `ENCODE wN, cs` (R64): the response of the EREAD that ends the transaction. -/
def encodeResult (w : Width) (cs : List Scalar) (s : State) : Option Response :=
  match runCommands (encodeCommands w cs) s with
  | .next t => t.rsp
  | .fault _ => none
  | .refused _ => none

/-- The characters of at most `fuel` DNEXTs, up to the first that does not respond OK (R130). -/
def pullCharacters : Nat → State → List Scalar
  | 0, _ => []
  | fuel + 1, s =>
    match exec .dnext s with
    | .next t =>
      match t.rsp with
      | some r => if r.status = .ok then r.data.setWidth 21 :: pullCharacters fuel t else []
      | none => []
    | .fault _ => []
    | .refused _ => []

/-- `DECODE wN, v` (R64): the characters the DNEXTs after the DLOAD return with status OK. One DNEXT more than the
slots of the width is enough to meet END (R140). -/
def decodeResult (w : Width) (v : Bus) (s : State) : List Scalar :=
  match exec (Instr.ofDload w v) s with
  | .next t => pullCharacters (charSlots (widthBits (widthCode w)) + 1) t
  | .fault _ => []
  | .refused _ => []

/-! ### Validation by re-encoding (R161) -/

/-- `v` is canonical at a width: some string encodes to it (R53), by the encode transaction that defines `Encode`
(R122). -/
def Canonical (w : Width) (v : Bus) (s : State) : Prop :=
  ∃ cs : List Scalar, encodeResult w cs s = some { status := .ok, data := v, info := 0 }

/-- What a caller that needs strict validation does (R137, R161): decode the value and encode the result again. -/
def reencode (w : Width) (arg : Bus) (s : State) : Option Response := encodeResult w (decodeResult w arg s) s

/-- Strict validation (R161): re-encoding gives the value `arg[N-1:0]` back. -/
def strictlyValid (w : Width) (arg : Bus) (s : State) : Bool :=
  reencode w arg s == some { status := .ok, data := lowBits (widthBits (widthCode w)) arg, info := 0 }

end Sys2Proof.Machine
end

