-- ==== Sys2Proof/Safety.lean ====
section
/-! DEFINITION. What holds of every register at every time, in the terms the statements use. Each part holds at
reset and every step keeps it, for any parameters at all. -/

namespace Sys2Proof.Machine

/-- The value an accumulator holds with a stored tag and the units accepted so far, the first unit the most
significant (R15). -/
def accValue (unitBits tag : Nat) (units : List Nat) : Nat :=
  units.foldl (fun a u => a * 2 ^ unitBits + u) tag

/-- The form of `E.ACC` in ORD and SPC mode (R15, R16): the stored tag and m units, m = slots - `E.REM` ≥ 1, each the
unit of some character. -/
def EncRegs.Holds (e : EncRegs) (unitBits slots : Nat) (isUnit : Nat → Prop) : Prop :=
  e.rem.toNat < slots ∧
    ∃ units : List Nat, units.length = slots - e.rem.toNat ∧ (∀ u ∈ units, isUnit u) ∧
      e.acc.toNat = accValue unitBits (storedTag (tagBits (widthBits e.w)) e.page).toNat units

/-- The encoder registers are in a state the spec allows (R12 to R17). -/
structure EncRegs.Inv (P : Params) (e : EncRegs) : Prop where
  /-- `E.W` never holds 5 to 7 (R12). -/
  width : e.w.toNat ≤ 4
  /-- `E.ACC` never holds a one above bit N-1 (R15, R121). -/
  accBelow : e.acc.toNat < 2 ^ widthBits e.w
  /-- Nothing is held in EMPTY mode (R14 to R16). -/
  emptyMode : e.mode = .empty → e.page = 0 ∧ e.acc = 0 ∧ e.rem = 0
  /-- ORD mode: a page the width admits, and 6-bit codes of characters of that page. -/
  ordMode : e.mode = .ord →
    (tagBits (widthBits e.w) = 2 → Primary e.page) ∧
      e.Holds 6 (charSlots (widthBits e.w)) fun u => ∃ c k, codeOf P e.page c = some k ∧ u = k.toNat
  /-- SPC mode: the special tag, and 15-bit units of characters of the block. -/
  spcMode : e.mode = .spc →
    e.page = P.specialTag ∧
      e.Holds 15 (specialSlots (widthBits e.w)) fun u => ∃ c k, spcUnit P c = some k ∧ u = k.toNat
  /-- `E.ERR` and `E.INFO` are 0 unless an error is latched (R17). -/
  noError : e.mode ≠ .err → e.err = .ok ∧ e.info = 0
  /-- A latched error is one of the four kinds with its information (R17, R166). -/
  latched : e.mode = .err → ∃ x : EncError, e.err = x.status ∧ e.info = x.info

/-- The decoder registers are in a state the spec allows (R18 to R20). -/
structure DecRegs.Inv (P : Params) (d : DecRegs) : Prop where
  /-- `D.W` holds 0 to 4 (R18). -/
  width : d.w.toNat ≤ 4
  /-- A narrow tag always names a primary page (R132). -/
  tagPrimary : tagBits (widthBits d.w) = 2 → Primary d.tag
  /-- Special mode exactly when the tag is the special tag and the width has a special slot (R19, R48). -/
  specialIff : d.spc = true ↔ d.tag = P.specialTag ∧ 0 < specialSlots (widthBits d.w)
  /-- Zeros below the coding region, and below the last special unit in special mode (R20, R133). -/
  zerosBelow : d.acc.toNat %
    2 ^ (128 - (if d.spc then 15 * specialSlots (widthBits d.w) else codingBits (widthBits d.w))) = 0

/-- A response as R60 lays it out: `rsp_data` is 0 unless the status is OK, and `rsp_info` is 0 unless the status is
one of the three errors that carry information. -/
def Response.WellShaped (r : Response) : Prop :=
  (r.status ≠ .ok → r.data = 0) ∧
    (r.status ≠ .noCodePage → r.status ≠ .pageUnavailable → r.status ≠ .missingFromPage → r.info = 0)

/-- The invariant of the machine. -/
structure State.Inv (s : State) : Prop where
  enc : s.enc.Inv s.params
  dec : s.dec.Inv s.params
  rsp : ∀ r, s.rsp = some r → r.WellShaped

end Sys2Proof.Machine
end

