-- ==== Sys2Proof/Certificates/Slice0/Obligations.lean ====
section
/-! DEFINITION. The statements for the provers. Where a result is a number, the statement writes the number out of the
operands by arithmetic, not by the operation the meaning uses. N is `widthBits w`, T is `tagBits N`. -/

open Sys2Proof
open Sys2Proof.Machine

/-! ### Encodings -/

/-- R55, R56, R58: every instruction, with every operand at every value its field admits, is read back from its own
encoding. -/
def Obligations.DecodeInvertsEncode : Prop := ∀ i : Instr, decode (encode i) = .ok i

/-- R63's worked encodings, and DESC w64 of R80: the words as the spec writes them decode to the commands it names. -/
def Obligations.DecodeOfSpecWords : Prop :=
  decode ⟨0x11, 0⟩ = .ok .estartW16 ∧ decode ⟨0x20, 0x4F⟩ = .ok (.epush 0x4F) ∧
  decode ⟨0x41, 0x655⟩ = .ok (.dloadW16 0x655) ∧ decode ⟨0x70, 0x40003B1⟩ = .ok (.codeof 4 0x3B1) ∧
  decode ⟨0x80, 0x101⟩ = .ok (.charof 4 1) ∧ decode ⟨0x93, 0⟩ = .ok .descW64

/-- R56, R57: the decoder rejects exactly the reserved command bytes. -/
def Obligations.DecoderRejectsExactlyReserved : Prop :=
  ∀ c : Command, (∃ r, decode c = .error r) ↔
    0xA ≤ c.op.toNat ∨ ((c.op = 0x1 ∨ c.op = 0x4 ∨ c.op = 0x9) ∧ 5 ≤ c.w.toNat)

/-- R57: a reserved command byte changes no state and answers BAD_CMD, and the other seven commands ignore `w`. -/
def Obligations.ReservedByteAnswersBadCmd : Prop :=
  (∀ (s : State) (c : Command), s.edge = Edge.present c →
    0xA ≤ c.op.toNat ∨ ((c.op = 0x1 ∨ c.op = 0x4 ∨ c.op = 0x9) ∧ 5 ≤ c.w.toNat) →
    step s = .next { s with inputs := s.inputs.tail, rsp := some ⟨.badCmd, 0, 0⟩ }) ∧
  (∀ c d : Command, c.op = d.op → c.arg = d.arg → c.op.toNat ≤ 9 → c.op ≠ 0x1 → c.op ≠ 0x4 → c.op ≠ 0x9 →
    decode c = decode d ∧ ∃ i, decode c = .ok i)

/-- R55, R56, R58, R59: the command each command byte stands for, with its operands read from the bits of `arg` that
R58 names: no other bit of `arg`, and no bit of `w` where the command takes none, is looked at. -/
def Obligations.DecodeReadsNamedBits : Prop :=
  ∀ c : Command,
    (c.op = 0x0 → decode c = .ok .nop) ∧
    (c.op = 0x1 → (c.w = 0 → decode c = .ok .estartW8) ∧ (c.w = 1 → decode c = .ok .estartW16) ∧
      (c.w = 2 → decode c = .ok .estartW32) ∧ (c.w = 3 → decode c = .ok .estartW64) ∧
      (c.w = 4 → decode c = .ok .estartW128)) ∧
    (c.op = 0x2 → decode c = .ok (.epush (BitVec.ofNat 21 c.arg.toNat))) ∧
    (c.op = 0x3 → decode c = .ok .eread) ∧
    (c.op = 0x4 → (c.w = 0 → decode c = .ok (.dloadW8 (BitVec.ofNat 8 c.arg.toNat))) ∧
      (c.w = 1 → decode c = .ok (.dloadW16 (BitVec.ofNat 16 c.arg.toNat))) ∧
      (c.w = 2 → decode c = .ok (.dloadW32 (BitVec.ofNat 32 c.arg.toNat))) ∧
      (c.w = 3 → decode c = .ok (.dloadW64 (BitVec.ofNat 64 c.arg.toNat))) ∧
      (c.w = 4 → decode c = .ok (.dloadW128 c.arg))) ∧
    (c.op = 0x5 → decode c = .ok .dnext) ∧
    (c.op = 0x6 → decode c = .ok (.pageof (BitVec.ofNat 21 c.arg.toNat))) ∧
    (c.op = 0x7 →
      decode c = .ok (.codeof (BitVec.ofNat 4 (c.arg.toNat / 2 ^ 24)) (BitVec.ofNat 21 c.arg.toNat))) ∧
    (c.op = 0x8 →
      decode c = .ok (.charof (BitVec.ofNat 4 (c.arg.toNat / 2 ^ 6)) (BitVec.ofNat 6 c.arg.toNat))) ∧
    (c.op = 0x9 → (c.w = 0 → decode c = .ok .descW8) ∧ (c.w = 1 → decode c = .ok .descW16) ∧
      (c.w = 2 → decode c = .ok .descW32) ∧ (c.w = 3 → decode c = .ok .descW64) ∧
      (c.w = 4 → decode c = .ok .descW128))

/-- R55, R56: a decoded command byte is one of its instruction's row of the opcode table, and of no other row. -/
def Obligations.DecodedByteMatchesOneRow : Prop :=
  ∀ (c : Command) (i : Instr), decode c = .ok i →
    i.row.admits c.cmd = true ∧ ∀ j : Instr, j.row.admits c.cmd = true → j.row = i.row

/-- R13, R61: the numbers of the statuses and of the encoder modes. -/
def Obligations.StatusAndModeNumbers : Prop :=
  Status.ok.code = 0 ∧ Status.tooLong.code = 1 ∧ Status.noCodePage.code = 2 ∧ Status.pageUnavailable.code = 3 ∧
  Status.missingFromPage.code = 4 ∧ Status.endOfSequence.code = 5 ∧ Status.notFound.code = 6 ∧
  Status.badCmd.code = 7 ∧
  EncMode.empty.code = 0 ∧ EncMode.ord.code = 1 ∧ EncMode.spc.code = 2 ∧ EncMode.err.code = 3

/-! ### The machine around the commands -/

/-- R8, R11: at an edge that presents a command which decodes to i, the step is exec of i, on the state whose port has
moved past that edge. -/
def Obligations.StepRunsDecodedCommand : Prop :=
  ∀ (s : State) (c : Command) (i : Instr), s.edge = Edge.present c → decode c = .ok i →
    step s = exec i { s with inputs := s.inputs.tail }

/-- R27, R185: every register is 0 after reset; an edge with `rst` = 1 brings the registers there from any state,
runs no command, presents no response and keeps the parameters; and the registers are then as ESTART w8 and as DLOAD w8
of the value 0 leave them. -/
def Obligations.ResetPutsEveryRegisterToZero : Prop :=
  State.reset.enc = { w := 0, mode := .empty, page := 0, acc := 0, rem := 0, err := .ok, info := 0 } ∧
  State.reset.dec = { w := 0, tag := 0, spc := false, acc := 0 } ∧
  (∀ s : State, s.edge.rst = true → step s = .next
    { enc := State.reset.enc, dec := State.reset.dec, params := s.params, inputs := s.inputs.tail, rsp := none }) ∧
  ∀ s : State, (∃ t, exec .estartW8 s = .next t ∧ t.enc = State.reset.enc) ∧
    ∃ t, exec (.dloadW8 0) s = .next t ∧ t.dec = State.reset.dec

/-- R10, R181: at an edge with neither `rst` nor `cmd_valid`, and where the host drives nothing, every register keeps
its value. That `rsp_valid` is 0 after such an edge is the model's (log entry 3). -/
def Obligations.IdleEdgeKeepsRegisters : Prop :=
  ∀ s : State, s.edge.rst = false → s.edge.cmdValid = false →
    step s = .next { s with inputs := s.inputs.tail, rsp := none }

/-- R165: no step faults or is refused, every command completes, and its outcome is a response; and a step presents a
response exactly where it took a command. -/
def Obligations.EveryOutcomeIsResponse : Prop :=
  (∀ (i : Instr) (s : State), ∃ t r, exec i s = .next t ∧ t.rsp = some r) ∧
  ∀ s : State, ∃ t, step s = .next t ∧ (t.rsp.isSome = true ↔ s.edge.command.isSome = true)

/-- R38, R87, R187: no step writes the ROM or any other parameter. -/
def Obligations.NoStepWritesParams : Prop :=
  ∀ s t : State, step s = .next t → t.params = s.params

/-- R40: the steps that take a list of presented commands are the fold of the command rules over the list, whatever
the host drives afterwards. -/
def Obligations.PresentedCommandsRunAsFold : Prop :=
  ∀ (is : List Instr) (rest : List Edge) (s : State),
    Host.Core.run Sys2Proof.core is.length { s with inputs := presentAll is ++ rest } =
      runCommands is { s with inputs := rest }

/-- R196: idle edges between the commands change nothing: the registers after a spaced sequence are those after the
commands alone. `none` is an idle edge, `some i` an edge that presents the command i. -/
def Obligations.SpacingDoesNotMatter : Prop :=
  ∀ (l : List (Option Instr)) (rest : List Edge) (s : State), ∃ t u,
    Host.Core.run Sys2Proof.core l.length { s with inputs :=
      (l.map fun o => match o with | some i => Edge.present (encode i) | none => Edge.idle) ++ rest } = .next t ∧
    runCommands l.reduceOption { s with inputs := rest } = .next u ∧
    t.enc = u.enc ∧ t.dec = u.dec ∧ t.params = u.params ∧ t.inputs = u.inputs ∧
    (l.getLast?.join.isSome = true → t.rsp = u.rsp)

/-- R21: encoder commands read and write no decoder register, decoder commands no encoder register, the other commands
no register at all; ESTART overwrites every encoder register and DLOAD every decoder register. What a command reads is
said by two states that agree there. -/
def Obligations.EncoderAndDecoderAreDisjoint : Prop :=
  ∀ (i : Instr) (s s' t t' : State), exec i s = .next t → exec i s' = .next t' → s.params = s'.params →
    (i.isEncoder = true → t.dec = s.dec ∧ (s.enc = s'.enc → t.enc = t'.enc ∧ t.rsp = t'.rsp)) ∧
    (i.isDecoder = true → t.enc = s.enc ∧ (s.dec = s'.dec → t.dec = t'.dec ∧ t.rsp = t'.rsp)) ∧
    (i.isEncoder = false → i.isDecoder = false → t.enc = s.enc ∧ t.dec = s.dec ∧ t.rsp = t'.rsp) ∧
    (i.isEstart = true → t.enc = t'.enc ∧ t.rsp = t'.rsp) ∧
    (∀ w arg, i = Instr.ofDload w arg → t.dec = t'.dec ∧ t.rsp = t'.rsp)

/-- R21, R105, R130: commands of other kinds in between disturb neither an encode nor a decode transaction: dropping
them from a sequence leaves the registers of the transaction as they were. -/
def Obligations.OtherCommandsDoNotDisturb : Prop :=
  ∀ (is : List Instr) (s : State), ∃ t te td,
    runCommands is s = .next t ∧ runCommands (is.filter Instr.isEncoder) s = .next te ∧
    runCommands (is.filter Instr.isDecoder) s = .next td ∧ te.enc = t.enc ∧ td.dec = t.dec

/-! ### Descriptor -/

/-- R74: the constants of the five widths. -/
def Obligations.DescriptorConstants : Prop :=
  (∀ w : Width, tagBits (widthBits (widthCode w)) =
    match w with | .w8 => 2 | .w16 => 4 | .w32 => 2 | .w64 => 4 | .w128 => 2) ∧
  (∀ w : Width, codingBits (widthBits (widthCode w)) =
    match w with | .w8 => 6 | .w16 => 12 | .w32 => 30 | .w64 => 60 | .w128 => 126) ∧
  (∀ w : Width, charSlots (widthBits (widthCode w)) =
    match w with | .w8 => 1 | .w16 => 2 | .w32 => 5 | .w64 => 10 | .w128 => 21) ∧
  (∀ w : Width, specialSlots (widthBits (widthCode w)) =
    match w with | .w8 => 0 | .w16 => 0 | .w32 => 2 | .w64 => 4 | .w128 => 8) ∧
  slack15 (widthBits (widthCode .w32)) = 0 ∧ slack15 (widthBits (widthCode .w64)) = 0 ∧
  slack15 (widthBits (widthCode .w128)) = 6

/-- R80: DESC answers the constants of its width and changes nothing else. -/
def Obligations.DescAnswersConstants : Prop :=
  ∀ s : State,
    exec .descW8 s = .next { s with rsp := some ⟨.ok, 0x000102, 0⟩ } ∧
    exec .descW16 s = .next { s with rsp := some ⟨.ok, 0x000204, 0⟩ } ∧
    exec .descW32 s = .next { s with rsp := some ⟨.ok, 0x020502, 0⟩ } ∧
    exec .descW64 s = .next { s with rsp := some ⟨.ok, 0x040A04, 0⟩ } ∧
    exec .descW128 s = .next { s with rsp := some ⟨.ok, 0x081502, 0⟩ }

/-- R81: op 0x0 is NOP whatever `w` and `arg` hold, and NOP answers OK and changes nothing else. -/
def Obligations.NopAnswersOk : Prop :=
  (∀ c : Command, c.op = 0x0 → decode c = .ok .nop) ∧
  ∀ s : State, exec .nop s = .next { s with rsp := some ⟨.ok, 0, 0⟩ }

/-! ### Registry -/

/-- R88: `codeOf` gives the least code 1 to 63 at which the page holds the character, and nothing for `SENTINEL`, for
`TERM_CHAR` and for a character the page does not hold; with valid parameters at most one code matches. -/
def Obligations.CodeOfIsLeastMatch : Prop :=
  ∀ (P : Params) (p : Page) (c : Scalar),
    (∀ k : Code, codeOf P p c = some k ↔
      c ≠ P.sentinel ∧ c ≠ P.termChar ∧ 1 ≤ k.toNat ∧ P.entry p k = c ∧
        ∀ j : Code, 1 ≤ j.toNat → j < k → P.entry p j ≠ c) ∧
    (codeOf P p c = none ↔
      c = P.sentinel ∨ c = P.termChar ∨ ∀ k : Code, 1 ≤ k.toNat → P.entry p k ≠ c) ∧
    (P.Valid → c ≠ P.sentinel → ∀ j k : Code, 1 ≤ j.toNat → 1 ≤ k.toNat →
      P.entry p j = c → P.entry p k = c → j = k)

/-- R89: `pageOf` gives the lowest page that holds the character, with its code there; with valid parameters at most
one page holds it. -/
def Obligations.PageOfIsLowestPage : Prop :=
  ∀ (P : Params) (c : Scalar),
    (∀ (p : Page) (k : Code), pageOf P c = some (p, k) ↔
      codeOf P p c = some k ∧ ∀ q : Page, q < p → codeOf P q c = none) ∧
    (pageOf P c = none ↔ ∀ p : Page, codeOf P p c = none) ∧
    (P.Valid → ∀ p q : Page, codeOf P p c ≠ none → codeOf P q c ≠ none → p = q)

/-- R95: PAGEOF answers the ROM address 64p + k of the first page and code that hold the character, or NOT_FOUND. -/
def Obligations.PageofAnswersAddress : Prop :=
  ∀ (c : Scalar) (s : State),
    (∀ (p : Page) (k : Code), codeOf s.params p c = some k → (∀ q : Page, q < p → codeOf s.params q c = none) →
      exec (.pageof c) s =
        .next { s with rsp := some ⟨.ok, BitVec.ofNat 128 (64 * p.toNat + k.toNat), 0⟩ }) ∧
    ((∀ p : Page, codeOf s.params p c = none) →
      exec (.pageof c) s = .next { s with rsp := some ⟨.notFound, 0, 0⟩ })

/-- R96: CODEOF answers the code of the character in the page, or NOT_FOUND. -/
def Obligations.CodeofAnswersCode : Prop :=
  ∀ (p : Page) (c : Scalar) (s : State),
    (∀ k : Code, c ≠ s.params.sentinel → c ≠ s.params.termChar → 1 ≤ k.toNat → s.params.entry p k = c →
      (∀ j : Code, 1 ≤ j.toNat → j < k → s.params.entry p j ≠ c) →
      exec (.codeof p c) s = .next { s with rsp := some ⟨.ok, BitVec.ofNat 128 k.toNat, 0⟩ }) ∧
    (c = s.params.sentinel ∨ c = s.params.termChar ∨ (∀ k : Code, 1 ≤ k.toNat → s.params.entry p k ≠ c) →
      exec (.codeof p c) s = .next { s with rsp := some ⟨.notFound, 0, 0⟩ })

/-- R97, R90: CHAROF answers the ROM entry, always with status OK. -/
def Obligations.CharofAnswersEntry : Prop :=
  ∀ (p : Page) (k : Code) (s : State),
    exec (.charof p k) s =
      .next { s with rsp := some ⟨.ok, BitVec.ofNat 128 (s.params.entry p k).toNat, 0⟩ }

/-- R95: the operand bits of CHAROF, fed with what PAGEOF answered, read the character PAGEOF was asked for. -/
def Obligations.CharofInvertsPageof : Prop :=
  ∀ (c : Scalar) (s t : State) (d : Bus), exec (.pageof c) s = .next t → t.rsp = some ⟨.ok, d, 0⟩ →
    ∃ i u, decode ⟨0x80, d⟩ = .ok i ∧ exec i t = .next u ∧
      u.rsp = some ⟨.ok, BitVec.ofNat 128 c.toNat, 0⟩

/-- R91: with valid parameters the terminator, the sentinel, a value that is no Unicode scalar value, and a value that
is a real character of no page are found nowhere. -/
def Obligations.FoundNowhere : Prop :=
  ∀ (P : Params) (c : Scalar), P.Valid →
    (c = P.termChar ∨ c = P.sentinel ∨ ¬ IsScalarValue c ∨ ∀ p : Page, ¬ P.RealChar p c) →
    (∀ p : Page, codeOf P p c = none) ∧ pageOf P c = none

/-- R98: the three facts about the lookups the laws need, under valid parameters. -/
def Obligations.LookupsAgreeOnValidPages : Prop :=
  ∀ (P : Params) (p : Page), P.Valid → P.ValidPage p →
    (∀ (c : Scalar) (k : Code), codeOf P p c = some k →
      charOf P p k = c ∧ 1 ≤ k.toNat ∧ k.toNat ≤ P.count p) ∧
    (∀ k : Code, 1 ≤ k.toNat → k.toNat ≤ P.count p → codeOf P p (charOf P p k) = some k) ∧
    (∀ (c c' : Scalar) (k k' : Code), c < c' → codeOf P p c = some k → codeOf P p c' = some k' → k < k')

/-- R92: the special block's two functions for any parameters, and that they stay in range and invert each other for
valid ones. -/
def Obligations.SpecialUnitsInvert : Prop :=
  ∀ (P : Params) (c : Scalar),
    (P.InSpecial c → ∃ u : SpcUnit, spcUnit P c = some u ∧ u.toNat = (c.toNat - P.lowBound.toNat + 1) % 2 ^ 15) ∧
    (¬ P.InSpecial c → spcUnit P c = none) ∧
    (∀ u : SpcUnit, 1 ≤ u.toNat →
      (spcChar P u).toNat = (P.lowBound.toNat + u.toNat - 1) % 2 ^ 21 ∧
      (P.lowBound.toNat ≤ 0x10FFFF → (spcChar P u).toNat = P.lowBound.toNat + u.toNat - 1)) ∧
    (P.Valid → P.InSpecial c → ∃ u : SpcUnit, spcUnit P c = some u ∧ 1 ≤ u.toNat ∧
      u.toNat ≤ P.highBound.toNat - P.lowBound.toNat + 1 ∧
      P.highBound.toNat - P.lowBound.toNat + 1 ≤ 32767 ∧ spcChar P u = c)

/-! ### Encoder -/

/-- R106: ESTART writes every encoder register, whatever the encoder held, and nothing else. -/
def Obligations.EstartClearsEncoder : Prop :=
  ∀ s : State,
    exec .estartW8 s = .next { s with enc := ⟨0, .empty, 0, 0, 0, .ok, 0⟩, rsp := some ⟨.ok, 0, 0⟩ } ∧
    exec .estartW16 s = .next { s with enc := ⟨1, .empty, 0, 0, 0, .ok, 0⟩, rsp := some ⟨.ok, 0, 0⟩ } ∧
    exec .estartW32 s = .next { s with enc := ⟨2, .empty, 0, 0, 0, .ok, 0⟩, rsp := some ⟨.ok, 0, 0⟩ } ∧
    exec .estartW64 s = .next { s with enc := ⟨3, .empty, 0, 0, 0, .ok, 0⟩, rsp := some ⟨.ok, 0, 0⟩ } ∧
    exec .estartW128 s = .next { s with enc := ⟨4, .empty, 0, 0, 0, .ok, 0⟩, rsp := some ⟨.ok, 0, 0⟩ }

/-- R108: with an error latched EPUSH changes no register and repeats the error. -/
def Obligations.EpushRepeatsLatchedError : Prop :=
  ∀ (c : Scalar) (s : State), s.enc.mode = .err →
    exec (.epush c) s = .next { s with rsp := some ⟨s.enc.err, 0, s.enc.info⟩ }

/-- R110, R112, R118: a first character of the special block, at a width with a special slot, starts special mode and
is the first unit. -/
def Obligations.EpushFirstSpecial : Prop :=
  ∀ (c : Scalar) (s : State), s.enc.mode = .empty → s.enc.w.toNat ≤ 4 →
    s.params.InSpecial c → 0 < specialSlots (widthBits s.enc.w) →
    exec (.epush c) s = .next { s with
      enc := { s.enc with
        mode := .spc, page := s.params.specialTag,
        acc := BitVec.ofNat 128
          ((if tagBits (widthBits s.enc.w) = 4 then s.params.specialTag.toNat else s.params.specialTag.toNat / 4)
            * 2 ^ 15 + (c.toNat - s.params.lowBound.toNat + 1) % 2 ^ 15),
        rem := BitVec.ofNat 5 (specialSlots (widthBits s.enc.w) - 1) },
      rsp := some ⟨.ok, 0, 0⟩ }

/-- R110 to R112, R115: a first character that a table page holds, on a page the width admits, starts ordinary mode and
is the first unit. -/
def Obligations.EpushFirstOrdinary : Prop :=
  ∀ (c : Scalar) (s : State) (p : Page) (k : Code), s.enc.mode = .empty → s.enc.w.toNat ≤ 4 →
    ¬ (s.params.InSpecial c ∧ 0 < specialSlots (widthBits s.enc.w)) →
    pageOf s.params c = some (p, k) → (tagBits (widthBits s.enc.w) = 2 → Primary p) →
    exec (.epush c) s = .next { s with
      enc := { s.enc with
        mode := .ord, page := p,
        acc := BitVec.ofNat 128
          ((if tagBits (widthBits s.enc.w) = 4 then p.toNat else p.toNat / 4) * 2 ^ 6 + k.toNat),
        rem := BitVec.ofNat 5 (charSlots (widthBits s.enc.w) - 1) },
      rsp := some ⟨.ok, 0, 0⟩ }

/-- R110, R111, R120: a first character that no page holds fails with NO_CODE_PAGE, and one on a page that is not
primary fails with PAGE_UNAVAILABLE at a width with two tag bits; the error is latched and the rest is kept. -/
def Obligations.EpushFirstFails : Prop :=
  ∀ (c : Scalar) (s : State), s.enc.mode = .empty →
    ¬ (s.params.InSpecial c ∧ 0 < specialSlots (widthBits s.enc.w)) →
    (pageOf s.params c = none →
      exec (.epush c) s = .next { s with
        enc := { s.enc with mode := .err, err := .noCodePage, info := c }, rsp := some ⟨.noCodePage, 0, c⟩ }) ∧
    (∀ (p : Page) (k : Code), pageOf s.params c = some (p, k) → tagBits (widthBits s.enc.w) = 2 → ¬ Primary p →
      exec (.epush c) s = .next { s with
        enc := { s.enc with mode := .err, err := .pageUnavailable, info := BitVec.ofNat 21 p.toNat },
        rsp := some ⟨.pageUnavailable, 0, BitVec.ofNat 21 p.toNat⟩ })

/-- R113 to R115, R120: a later character in ordinary mode: missing from the page first, then no slot left, then one
6-bit unit more. -/
def Obligations.EpushLaterOrdinary : Prop :=
  ∀ (c : Scalar) (s : State), s.enc.mode = .ord →
    (codeOf s.params s.enc.page c = none →
      exec (.epush c) s = .next { s with
        enc := { s.enc with mode := .err, err := .missingFromPage, info := c },
        rsp := some ⟨.missingFromPage, 0, c⟩ }) ∧
    (∀ k : Code, codeOf s.params s.enc.page c = some k → s.enc.rem.toNat = 0 →
      exec (.epush c) s = .next { s with
        enc := { s.enc with mode := .err, err := .tooLong, info := 0 }, rsp := some ⟨.tooLong, 0, 0⟩ }) ∧
    (∀ k : Code, codeOf s.params s.enc.page c = some k → 0 < s.enc.rem.toNat →
      exec (.epush c) s = .next { s with
        enc := { s.enc with
          acc := BitVec.ofNat 128 (s.enc.acc.toNat * 2 ^ 6 + k.toNat),
          rem := BitVec.ofNat 5 (s.enc.rem.toNat - 1) },
        rsp := some ⟨.ok, 0, 0⟩ })

/-- R116 to R118, R120: a later character in special mode: outside the block first, then no slot left, then one 15-bit
unit more. -/
def Obligations.EpushLaterSpecial : Prop :=
  ∀ (c : Scalar) (s : State), s.enc.mode = .spc →
    (¬ s.params.InSpecial c →
      exec (.epush c) s = .next { s with
        enc := { s.enc with mode := .err, err := .missingFromPage, info := c },
        rsp := some ⟨.missingFromPage, 0, c⟩ }) ∧
    (s.params.InSpecial c → s.enc.rem.toNat = 0 →
      exec (.epush c) s = .next { s with
        enc := { s.enc with mode := .err, err := .tooLong, info := 0 }, rsp := some ⟨.tooLong, 0, 0⟩ }) ∧
    (s.params.InSpecial c → 0 < s.enc.rem.toNat →
      exec (.epush c) s = .next { s with
        enc := { s.enc with
          acc := BitVec.ofNat 128
            (s.enc.acc.toNat * 2 ^ 15 + (c.toNat - s.params.lowBound.toNat + 1) % 2 ^ 15),
          rem := BitVec.ofNat 5 (s.enc.rem.toNat - 1) },
        rsp := some ⟨.ok, 0, 0⟩ })

/-- R167: when an EPUSH raises each of the four errors, and with which information: exactly then; and an error records
nothing else. -/
def Obligations.ErrorsAreRaisedExactlyWhen : Prop :=
  ∀ (c : Scalar) (s t : State) (x : EncError), s.enc.mode ≠ .err → s.enc.w.toNat ≤ 4 →
    exec (.epush c) s = .next t →
    ((t.enc.mode = .err ∧ t.enc.err = x.status ∧ t.enc.info = x.info) ↔
      match x with
      | .noCodePage d => d = c ∧ s.enc.mode = .empty ∧
          ¬ (s.params.InSpecial c ∧ 0 < specialSlots (widthBits s.enc.w)) ∧ pageOf s.params c = none
      | .pageUnavailable p => s.enc.mode = .empty ∧
          ¬ (s.params.InSpecial c ∧ 0 < specialSlots (widthBits s.enc.w)) ∧
          (∃ k, pageOf s.params c = some (p, k)) ∧ tagBits (widthBits s.enc.w) = 2 ∧ ¬ Primary p
      | .missingFromPage d => d = c ∧
          ((s.enc.mode = .ord ∧ codeOf s.params s.enc.page c = none) ∨
            (s.enc.mode = .spc ∧ ¬ s.params.InSpecial c))
      | .tooLong => s.enc.rem.toNat = 0 ∧
          ((s.enc.mode = .ord ∧ codeOf s.params s.enc.page c ≠ none) ∨
            (s.enc.mode = .spc ∧ s.params.InSpecial c))) ∧
    (t.enc.mode = .err → t.enc = { s.enc with mode := .err, err := t.enc.err, info := t.enc.info })

/-- R171: while an error is latched no command but ESTART changes an encoder register, and EPUSH and EREAD answer the
error with no data. -/
def Obligations.LatchedErrorIsSticky : Prop :=
  ∀ (i : Instr) (s : State), s.enc.mode = .err → i.isEstart = false →
    ∃ t, exec i s = .next t ∧ t.enc = s.enc ∧
      (i = .eread ∨ (∃ c, i = .epush c) → t.rsp = some ⟨s.enc.err, 0, s.enc.info⟩)

/-- R172: an edge that leaves a latched error either resets the block or takes a valid ESTART; and both do leave it, with
a new transaction begun and `E.ERR` and `E.INFO` cleared. -/
def Obligations.OnlyEstartOrResetClearsError : Prop :=
  ∀ s t : State, step s = .next t → s.enc.mode = .err →
    (t.enc.mode ≠ .err ↔
      s.edge.rst = true ∨ ∃ c i, s.edge.command = some c ∧ decode c = .ok i ∧ i.isEstart = true) ∧
    (t.enc.mode ≠ .err → t.enc.mode = .empty ∧ t.enc.page = 0 ∧ t.enc.acc = 0 ∧ t.enc.rem = 0 ∧
      t.enc.err = .ok ∧ t.enc.info = 0) ∧
    (t.enc.mode = .err → t.enc = s.enc)

/-- R119: what EREAD answers in each mode; it changes no register. -/
def Obligations.EreadAnswersPaddedValue : Prop :=
  ∀ s : State, s.enc.w.toNat ≤ 4 →
    (s.enc.mode = .err → exec .eread s = .next { s with rsp := some ⟨s.enc.err, 0, s.enc.info⟩ }) ∧
    (s.enc.mode = .empty → exec .eread s = .next { s with rsp := some ⟨.ok, 0, 0⟩ }) ∧
    (s.enc.mode = .ord → exec .eread s = .next { s with rsp := some ⟨.ok,
      BitVec.ofNat 128 (s.enc.acc.toNat * 2 ^ (6 * s.enc.rem.toNat) % 2 ^ widthBits s.enc.w), 0⟩ }) ∧
    (s.enc.mode = .spc → 0 < specialSlots (widthBits s.enc.w) → exec .eread s = .next { s with rsp := some ⟨.ok,
      BitVec.ofNat 128 (s.enc.acc.toNat * 2 ^ (15 * s.enc.rem.toNat + slack15 (widthBits s.enc.w))
        % 2 ^ widthBits s.enc.w), 0⟩ })

/-- R124, R121: the closed form of a successful result: with m units accepted, EREAD answers the stored tag in the top
T bits and each unit in its slot, and nothing is cut off. -/
def Obligations.EreadClosedForm : Prop :=
  ∀ (s : State) (units : List Nat) (b slots : Nat), s.enc.w.toNat ≤ 4 →
    (s.enc.mode = .ord ∧ b = 6 ∧ slots = charSlots (widthBits s.enc.w)) ∨
      (s.enc.mode = .spc ∧ b = 15 ∧ slots = specialSlots (widthBits s.enc.w) ∧ 0 < slots) →
    s.enc.rem.toNat + units.length = slots → (∀ u ∈ units, u < 2 ^ b) →
    s.enc.acc.toNat = accValue b (storedTag (tagBits (widthBits s.enc.w)) s.enc.page).toNat units →
    ∃ t v, exec .eread s = .next t ∧ t.rsp = some ⟨.ok, v, 0⟩ ∧ v.toNat < 2 ^ widthBits s.enc.w ∧
      v.toNat = (storedTag (tagBits (widthBits s.enc.w)) s.enc.page).toNat * 2 ^ codingBits (widthBits s.enc.w) +
        ((units.zipIdx 1).map fun ui => ui.1 * 2 ^ (codingBits (widthBits s.enc.w) - b * ui.2)).sum

/-! ### The invariant -/

/-- R12 to R20, R121, R132: reset meets the invariant of the registers. -/
def Obligations.ResetMeetsInvariant : Prop := State.reset.Inv

/-- R12 to R20, R60, R121, R132, R140: every step keeps the invariant of the registers, whatever the parameters. -/
def Obligations.StepKeepsInvariant : Prop :=
  ∀ s t : State, s.Inv → step s = .next t → t.Inv

/-! ### Decoder -/

/-- R131 to R133: what DLOAD leaves in the decoder registers and answers, by the width; no other register changes. The
five commands `dloadW8` to `dloadW128` with every operand are `Instr.ofDload` at the five widths. -/
def Obligations.DloadLoadsRegisters : Prop :=
  ∀ (w : Width) (arg : Bus) (s : State) (n t v region : Nat) (tag : Page) (spc : Bool),
    n = widthBits (widthCode w) → t = tagBits n → v = arg.toNat % 2 ^ n → region = v % 2 ^ (n - t) →
    tag = BitVec.ofNat 4 (if t = 4 then v / 2 ^ (n - t) else 4 * (v / 2 ^ (n - t))) →
    spc = decide (tag = s.params.specialTag ∧ 0 < specialSlots n) →
    exec (Instr.ofDload w arg) s = .next { s with
      dec := {
        w := widthCode w, tag := tag, spc := spc,
        acc := BitVec.ofNat 128
          ((if spc then region - region % 2 ^ slack15 n else region) * 2 ^ (128 - (n - t))) },
      rsp := some ⟨.ok, BitVec.ofNat 128 (tag.toNat + if spc then 16 else 0), 0⟩ }

/-- R133: at 128 bits in special mode the six spare bits of the loaded value change nothing. -/
def Obligations.SpareBitsAreIgnored : Prop :=
  ∀ (v v' : Bus) (s t : State), v.toNat / 2 ^ 6 = v'.toNat / 2 ^ 6 →
    exec (.dloadW128 v) s = .next t → t.dec.spc = true → exec (.dloadW128 v') s = .next t

/-- R135 to R138: what DNEXT does: a zero unit answers END and changes no register; any other unit is emitted, from the
page in ordinary mode and by the offset in special mode, and the accumulator moves past it. -/
def Obligations.DnextEmitsNextUnit : Prop :=
  ∀ s : State,
    (s.dec.spc = true → s.dec.acc.toNat / 2 ^ 113 = 0 →
      exec .dnext s = .next { s with rsp := some ⟨.endOfSequence, 0, 0⟩ }) ∧
    (∀ u, s.dec.spc = true → u = s.dec.acc.toNat / 2 ^ 113 → 0 < u →
      exec .dnext s = .next { s with
        dec := { s.dec with acc := BitVec.ofNat 128 (s.dec.acc.toNat * 2 ^ 15) },
        rsp := some ⟨.ok, BitVec.ofNat 128 ((s.params.lowBound.toNat + u - 1) % 2 ^ 21), 0⟩ }) ∧
    (s.dec.spc = false → s.dec.acc.toNat / 2 ^ 122 = 0 →
      exec .dnext s = .next { s with rsp := some ⟨.endOfSequence, 0, 0⟩ }) ∧
    (∀ u, s.dec.spc = false → u = s.dec.acc.toNat / 2 ^ 122 → 0 < u →
      exec .dnext s = .next { s with
        dec := { s.dec with acc := BitVec.ofNat 128 (s.dec.acc.toNat * 2 ^ 6) },
        rsp := some ⟨.ok, BitVec.ofNat 128 (s.params.entry s.dec.tag (BitVec.ofNat 6 u)).toNat, 0⟩ })

/-- R136: once a DNEXT answers END, every later DNEXT of the transaction answers END and changes nothing. -/
def Obligations.EndIsForEver : Prop :=
  ∀ (k : Nat) (s t : State) (d : Bus) (x : Scalar), exec .dnext s = .next t → t.rsp = some ⟨.endOfSequence, d, x⟩ →
    t.dec = s.dec ∧ runCommands (List.replicate k .dnext) t = .next t

/-- R173: no DLOAD or DNEXT response has a status other than OK or END. -/
def Obligations.DecoderNeverFails : Prop :=
  ∀ (i : Instr) (s : State), i.isDecoder = true →
    ∃ t r, exec i s = .next t ∧ t.rsp = some r ∧ (r.status = .ok ∨ r.status = .endOfSequence)

/-- R140: after any DLOAD at most `char_slots(N)` or `special_slots(N)` characters come, however often DNEXT is
issued. -/
def Obligations.DecodeIsFinite : Prop :=
  ∀ (w : Width) (arg : Bus) (s t : State) (fuel : Nat), exec (Instr.ofDload w arg) s = .next t →
    (pullCharacters fuel t).length ≤
      if t.dec.spc then specialSlots (widthBits (widthCode w)) else charSlots (widthBits (widthCode w))

/-- R143: a decode transaction gives the sequence the spec writes out as `Decode(N, v)`. -/
def Obligations.DecodeTransactionComputesFunction : Prop :=
  ∀ (w : Width) (arg : Bus) (s : State),
    decodeResult w arg s =
      decodeFunction s.params (widthBits (widthCode w)) (lowBits (widthBits (widthCode w)) arg)

/-! ### Whole strings -/

/-- R122: an encode transaction, started from any state, answers what the spec writes out as `Encode(N, s)`. -/
def Obligations.EncodeTransactionComputesFunction : Prop :=
  ∀ (w : Width) (cs : List Scalar) (s : State),
    encodeResult w cs s = some (encodeFunction s.params (widthBits (widthCode w)) cs)

/-- R159: the empty string encodes to 0 and 0 decodes to the empty sequence, at every width and for every parameters. -/
def Obligations.EmptyStringIsZero : Prop :=
  ∀ (w : Width) (s : State), encodeResult w [] s = some ⟨.ok, 0, 0⟩ ∧ decodeResult w 0 s = []

/-- R158: a string whose first characters, one more than there are slots, all lie in one admissible page encodes when it
is at most `char_slots(N)` long and fails with TOO_LONG when it is longer, whatever follows; and so in special mode with
`special_slots(N)`. -/
def Obligations.CapacityBoundary : Prop :=
  ∀ (w : Width) (s : State) (cs : List Scalar) (n : Nat), s.params.Valid → n = widthBits (widthCode w) →
    (∀ p : Page, (tagBits n = 2 → Primary p) →
      (∀ c ∈ cs.take (charSlots n + 1), codeOf s.params p c ≠ none) →
      (∀ c, cs.head? = some c → ¬ (s.params.InSpecial c ∧ 0 < specialSlots n)) →
      (cs.length ≤ charSlots n → ∃ v, encodeResult w cs s = some ⟨.ok, v, 0⟩) ∧
      (charSlots n < cs.length → encodeResult w cs s = some ⟨.tooLong, 0, 0⟩)) ∧
    (0 < specialSlots n → (∀ c ∈ cs.take (specialSlots n + 1), s.params.InSpecial c) →
      (cs.length ≤ specialSlots n → ∃ v, encodeResult w cs s = some ⟨.ok, v, 0⟩) ∧
      (specialSlots n < cs.length → encodeResult w cs s = some ⟨.tooLong, 0, 0⟩))

/-- R151: with valid parameters, what a string encodes to decodes to that string, from any state of the block; it holds
no sentinel, and in special mode nothing above `HIGH_BOUND` (for an ordinary page the rule's last sentence cannot be
meant as written, log entry 9). -/
def Obligations.RoundTrip : Prop :=
  ∀ (w : Width) (cs : List Scalar) (v : Bus) (s s' : State), s.params.Valid → s'.params = s.params →
    encodeResult w cs s = some ⟨.ok, v, 0⟩ →
    decodeResult w v s' = cs ∧ s.params.sentinel ∉ cs ∧
      ((∃ c, cs.head? = some c ∧ s.params.InSpecial c) → 0 < specialSlots (widthBits (widthCode w)) →
        ∀ c ∈ cs, c ≤ s.params.highBound)

/-- R152: with valid parameters no two strings encode to the same value, and only the empty string encodes to 0. -/
def Obligations.EncodingIsInjective : Prop :=
  ∀ (w : Width) (cs cs' : List Scalar) (v : Bus) (s s' : State), s.params.Valid → s'.params = s.params →
    encodeResult w cs s = some ⟨.ok, v, 0⟩ → encodeResult w cs' s' = some ⟨.ok, v, 0⟩ →
    cs = cs' ∧ (v = 0 → cs = [])

/-- R154, R155: for two strings encoded on the same page, the special block counted as a page, the values compare as
the strings do lexicographically by scalar value. -/
def Obligations.OrderWithinPage : Prop :=
  ∀ (w : Width) (a b : List Scalar) (va vb : Bus) (s : State) (p : Page), s.params.Valid →
    encodeResult w a s = some ⟨.ok, va, 0⟩ → encodeResult w b s = some ⟨.ok, vb, 0⟩ →
    chosenPage s.params (widthBits (widthCode w)) a = some p →
    chosenPage s.params (widthBits (widthCode w)) b = some p →
    (a < b ↔ va < vb)

/-- R156: for two strings encoded on different pages, the special block counted as page `SPECIAL_TAG`, the values
compare as the page indices do; and where the special block stands in V4 as R5 says at V10, page-index order is the order
of the pages' first characters, `LOW_BOUND` being the special block's. -/
def Obligations.OrderAcrossPages : Prop :=
  ∀ (w : Width) (a b : List Scalar) (va vb : Bus) (s : State) (p q : Page), s.params.Valid →
    encodeResult w a s = some ⟨.ok, va, 0⟩ → encodeResult w b s = some ⟨.ok, vb, 0⟩ →
    chosenPage s.params (widthBits (widthCode w)) a = some p →
    chosenPage s.params (widthBits (widthCode w)) b = some q →
    (p < q → va < vb) ∧
    (s.params.V4WithBlock →
      (p < q ↔ firstCharacter s.params (widthBits (widthCode w)) p <
        firstCharacter s.params (widthBits (widthCode w)) q))

/-- R157: the empty string's value is below every other. -/
def Obligations.EmptyStringSortsFirst : Prop :=
  ∀ (w : Width) (a : List Scalar) (v : Bus) (s : State), s.params.Valid →
    encodeResult w [] s = some ⟨.ok, 0, 0⟩ ∧
    (a ≠ [] → encodeResult w a s = some ⟨.ok, v, 0⟩ → 0 < v)

/-- R53: with valid parameters the values some string encodes to are exactly the canonical ones the spec lists. -/
def Obligations.CanonicalValuesAreExactly : Prop :=
  ∀ (w : Width) (v : Bus) (s : State), s.params.Valid → v.toNat < 2 ^ widthBits (widthCode w) →
    (Canonical w v s ↔ CanonicalForm s.params (widthBits (widthCode w)) v)

/-- R161: with valid parameters `arg[N-1:0]` is canonical exactly when decoding and encoding it again gives it back; so a
value that is not canonical fails to encode again or encodes to another value. -/
def Obligations.StrictValidationByReencoding : Prop :=
  ∀ (w : Width) (arg v : Bus) (s : State), s.params.Valid → v = lowBits (widthBits (widthCode w)) arg →
    (Canonical w v s ↔ strictlyValid w arg s = true) ∧
    (Canonical w v s ↔ encodeResult w (decodeResult w arg s) s = some ⟨.ok, v, 0⟩) ∧
    (¬ Canonical w v s → ∃ r, reencode w arg s = some r ∧ (r.status ≠ .ok ∨ r.data ≠ v))

/-- R161's last sentence, as far as it can hold: the reasons why re-encoding fails, and why it gives another value. That a
first character which selects another mode may also give another value is the model's reading (log entry 17). -/
def Obligations.ReencodingFailsForReasons : Prop :=
  ∀ (w : Width) (arg v : Bus) (s : State) (r : Response) (n : Nat), s.params.Valid → n = widthBits (widthCode w) →
    v = lowBits n arg → reencode w arg s = some r →
    (r.status ≠ .ok → ReencodingFails s.params n v (decodeResult w arg s)) ∧
    (r.status = .ok → r.data ≠ v →
      ReencodingDiffers s.params n v ∨ SelectsAnotherPage s.params n v (decodeResult w arg s))
end

