-- ==== Sys2Proof/Laws/Operands.lean ====
section
/-! SUPPORT. The fields, layouts and descriptor operations as arithmetic on unsigned numbers (R6, R58, R60, R75 to
R78), and what DLOAD computes from its operand. -/

namespace Sys2Proof.Machine

theorem widthBits_eq (w : WidthCode) : widthBits w = 8 * 2 ^ w.toNat := by
  simp [widthBits, Nat.shiftLeft_eq]

/-- The five widths of a code that a register may hold. -/
theorem widthBits_cases {w : WidthCode} (h : w.toNat ≤ 4) :
    widthBits w = 8 ∨ widthBits w = 16 ∨ widthBits w = 32 ∨ widthBits w = 64 ∨ widthBits w = 128 := by
  have : w.toNat = 0 ∨ w.toNat = 1 ∨ w.toNat = 2 ∨ w.toNat = 3 ∨ w.toNat = 4 := by omega
  rcases this with h | h | h | h | h <;> simp [widthBits, h]

theorem widthCode_le (w : Width) : (widthCode w).toNat ≤ 4 := by cases w <;> decide

@[simp] theorem shiftLeft_toNat (v : Bus) (k : Nat) : (shiftLeft v k).toNat = v.toNat * 2 ^ k % 2 ^ 128 := by
  simp [shiftLeft, Nat.shiftLeft_eq]

@[simp] theorem widenIndex_toNat {m : Nat} (x : BitVec m) (h : m ≤ 128) : (widenIndex x).toNat = x.toNat := by
  have := x.isLt
  have : 2 ^ m ≤ 2 ^ 128 := Nat.pow_le_pow_right (by decide) h
  simp only [widenIndex, BitVec.toNat_setWidth]
  exact Nat.mod_eq_of_lt (by omega)

theorem lowBits_toNat (n : Nat) (v : Bus) (h : n ≤ 128) : (lowBits n v).toNat = v.toNat % 2 ^ n := by
  have : 2 ^ n ≤ 2 ^ 128 := Nat.pow_le_pow_right (by decide) h
  have := Nat.mod_lt v.toNat (Nat.two_pow_pos n)
  simp only [lowBits, BitVec.toNat_setWidth]
  exact Nat.mod_eq_of_lt (by omega)

/-- Padding a value with zeros below and ORing something that fits there is addition (R77). -/
theorem orInto_shiftLeft_toNat (v u : Bus) (k : Nat) (hu : u.toNat < 2 ^ k) (hk : k ≤ 128) :
    (orInto (shiftLeft v k) u).toNat = (v.toNat * 2 ^ k + u.toNat) % 2 ^ 128 := by
  have hd : v.toNat * 2 ^ k % 2 ^ 128 = 2 ^ k * (v.toNat % 2 ^ (128 - k)) := by
    rw [← Nat.mul_mod_mul_left, ← Nat.pow_add, Nat.add_sub_cancel' hk, Nat.mul_comm]
  have hlt : v.toNat % 2 ^ (128 - k) < 2 ^ (128 - k) := Nat.mod_lt _ (Nat.two_pow_pos _)
  have hp : (2 : Nat) ^ 128 = 2 ^ k * 2 ^ (128 - k) := by rw [← Nat.pow_add, Nat.add_sub_cancel' hk]
  have hb : 2 ^ k * (v.toNat % 2 ^ (128 - k)) + u.toNat < 2 ^ 128 := by
    rw [hp]
    calc 2 ^ k * (v.toNat % 2 ^ (128 - k)) + u.toNat
        < 2 ^ k * (v.toNat % 2 ^ (128 - k)) + 2 ^ k := by omega
      _ = 2 ^ k * (v.toNat % 2 ^ (128 - k) + 1) := by rw [Nat.mul_add, Nat.mul_one]
      _ ≤ 2 ^ k * 2 ^ (128 - k) := Nat.mul_le_mul_left _ hlt
  simp only [orInto, BitVec.toNat_or, shiftLeft_toNat]
  rw [hd, ← Nat.two_pow_add_eq_or_of_lt hu, Nat.add_mod (v.toNat * 2 ^ k), hd,
    Nat.mod_eq_of_lt u.isLt, Nat.mod_eq_of_lt hb]

theorem clearLow_toNat (k : Nat) (v : Bus) : (clearLow k v).toNat = v.toNat - v.toNat % 2 ^ k := by
  have h : v.toNat / 2 ^ k * 2 ^ k = v.toNat - v.toNat % 2 ^ k := by
    have := Nat.div_add_mod v.toNat (2 ^ k)
    rw [Nat.mul_comm] at this
    omega
  simp only [clearLow, BitVec.toNat_shiftLeft, BitVec.toNat_ushiftRight, Nat.shiftLeft_eq, Nat.shiftRight_eq_div_pow]
  rw [h]
  exact Nat.mod_eq_of_lt (by have := v.isLt; omega)

theorem storedTag_toNat (t : Nat) (p : Page) :
    (storedTag t p).toNat = if t = 4 then p.toNat else p.toNat / 4 := by
  unfold storedTag
  split <;> simp [Nat.shiftRight_eq_div_pow]

theorem normTag_toNat (t : Nat) (p : Page) :
    (normTag t p).toNat = if t = 4 then p.toNat else p.toNat * 4 % 16 := by
  unfold normTag
  split <;> simp [Nat.shiftLeft_eq]

theorem primary_iff (p : Page) : Primary p ↔ p.toNat % 4 = 0 := by
  simp [Primary, BitVec.toNat_eq]

/-- Normalising what was stored gives the page back (R50). -/
theorem normTag_storedTag (t : Nat) (p : Page) (h : t ≠ 4 → Primary p) : normTag t (storedTag t p) = p := by
  apply BitVec.eq_of_toNat_eq
  rw [normTag_toNat, storedTag_toNat]
  split
  · rfl
  · rename_i ht
    have := (primary_iff p).1 (h ht)
    have := p.isLt
    omega

theorem topCode_toNat (acc : Bus) : (topCode acc).toNat = acc.toNat / 2 ^ 122 := by
  have := acc.isLt
  simp [topCode, topByte, Nat.shiftRight_eq_div_pow]
  omega

theorem topSpcUnit_toNat (acc : Bus) : (topSpcUnit acc).toNat = acc.toNat / 2 ^ 113 := by
  have := acc.isLt
  simp [topSpcUnit, Nat.shiftRight_eq_div_pow]
  omega

theorem unitAt_toNat (n b : Nat) (v : Bus) (j : Nat) :
    (unitAt n b v j).toNat = v.toNat / 2 ^ (codingBits n - b * (j + 1)) % 2 ^ b := by
  simp [unitAt, Nat.shiftRight_eq_div_pow]

/-! ### Fields of `arg` and layouts of `rsp_data` -/

theorem append_toNat {m n : Nat} (x : BitVec m) (y : BitVec n) :
    (x ++ y).toNat = x.toNat * 2 ^ n + y.toNat := by
  rw [BitVec.toNat_append, Nat.shiftLeft_eq, Nat.mul_comm, ← Nat.two_pow_add_eq_or_of_lt y.isLt]

theorem setWidth_append_toNat {m n k : Nat} (x : BitVec m) (y : BitVec n) (h : m + n ≤ k) :
    ((x ++ y).setWidth k).toNat = x.toNat * 2 ^ n + y.toNat := by
  rw [BitVec.toNat_setWidth, append_toNat]
  apply Nat.mod_eq_of_lt
  have := (x ++ y).isLt
  rw [append_toNat] at this
  exact lt_of_lt_of_le this (Nat.pow_le_pow_right (by decide) h)

theorem argScalar_toNat (a : Bus) : (argScalar a).toNat = a.toNat % 2 ^ 21 := by simp [argScalar]

theorem argCodeofPage_toNat (a : Bus) : (argCodeofPage a).toNat = a.toNat / 2 ^ 24 % 2 ^ 4 := by
  simp [argCodeofPage, Nat.shiftRight_eq_div_pow]

theorem argCharofPage_toNat (a : Bus) : (argCharofPage a).toNat = a.toNat / 2 ^ 6 % 2 ^ 4 := by
  simp [argCharofPage, Nat.shiftRight_eq_div_pow]

theorem argCode_toNat (a : Bus) : (argCode a).toNat = a.toNat % 2 ^ 6 := by simp [argCode]

theorem bus_eq_ofNat {v : Bus} {n : Nat} (h : v.toNat = n) : v = BitVec.ofNat 128 n := by
  rw [← h, BitVec.ofNat_toNat, BitVec.setWidth_eq]

theorem bus_ofNat_toNat {n : Nat} (h : n < 2 ^ 128) : (BitVec.ofNat 128 n).toNat = n := by
  rw [BitVec.toNat_ofNat, Nat.mod_eq_of_lt h]

theorem dataOfPageCode_toNat (p : Page) (k : Code) : (dataOfPageCode p k).toNat = p.toNat * 64 + k.toNat :=
  setWidth_append_toNat p k (by decide)

theorem dataOfLoad_toNat (p : Page) (b : Bool) : (dataOfLoad p b).toNat = (if b then 16 else 0) + p.toNat := by
  rw [dataOfLoad, setWidth_append_toNat _ _ (by decide)]
  cases b <;> simp

theorem dataOfCode_eq (k : Code) : dataOfCode k = BitVec.ofNat 128 k.toNat :=
  bus_eq_ofNat (widenIndex_toNat k (by decide))

theorem dataOfScalar_eq (c : Scalar) : dataOfScalar c = BitVec.ofNat 128 c.toNat :=
  bus_eq_ofNat (widenIndex_toNat c (by decide))

/-! ### Widths -/

/-- How the constants of a width fit together (R70 to R74). -/
structure WidthFacts (n : Nat) : Prop where
  le      : n ≤ 128
  tag     : tagBits n = 2 ∨ tagBits n = 4
  split   : codingBits n + tagBits n = n
  ord     : codingBits n = 6 * charSlots n
  spc     : codingBits n = 15 * specialSlots n + slack15 n
  ordPos  : 0 < charSlots n
  ordLe   : charSlots n ≤ 21
  spcLe   : specialSlots n ≤ charSlots n

theorem widthFacts {w : WidthCode} (h : w.toNat ≤ 4) : WidthFacts (widthBits w) := by
  rcases widthBits_cases h with h | h | h | h | h <;> rw [h] <;> constructor <;> decide

theorem storedTag_lt {n : Nat} (h : WidthFacts n) (p : Page) : (storedTag (tagBits n) p).toNat < 2 ^ tagBits n := by
  rw [storedTag_toNat]
  have := p.isLt
  rcases h.tag with h | h <;> rw [h] <;> simp <;> omega

/-! ### What DLOAD computes from its operand -/

/-- The stored tag of the loaded value: its top T bits. -/
theorem tagField_lowBits {n : Nat} (h : WidthFacts n) (a : Bus) :
    (tagField n (lowBits n a)).toNat = a.toNat % 2 ^ n / 2 ^ codingBits n ∧
      (tagField n (lowBits n a)).toNat < 2 ^ tagBits n := by
  have h1 : a.toNat % 2 ^ n / 2 ^ codingBits n < 2 ^ tagBits n := by
    rw [Nat.div_lt_iff_lt_mul (Nat.two_pow_pos _), ← Nat.pow_add, Nat.add_comm, h.split]
    exact Nat.mod_lt _ (Nat.two_pow_pos _)
  have h2 : 2 ^ tagBits n ≤ 16 := by rcases h.tag with h | h <;> rw [h] <;> decide
  have : (tagField n (lowBits n a)).toNat = a.toNat % 2 ^ n / 2 ^ codingBits n := by
    simp only [tagField, BitVec.toNat_setWidth, BitVec.toNat_ushiftRight, Nat.shiftRight_eq_div_pow,
      lowBits_toNat n a h.le]
    exact Nat.mod_eq_of_lt (by omega)
  exact ⟨this, by rw [this]; exact h1⟩

/-- The coding region of the loaded value: its low N - T bits. -/
theorem codingRegion_lowBits {n : Nat} (h : WidthFacts n) (a : Bus) :
    (codingRegion n (lowBits n a)).toNat = a.toNat % 2 ^ codingBits n := by
  have h1 := h.split
  have h2 := h.le
  rw [codingRegion, lowBits_toNat _ _ (by omega), lowBits_toNat _ _ h.le,
    Nat.mod_mod_of_dvd _ (Nat.pow_dvd_pow 2 (by omega))]

/-- The body of the accumulator DLOAD writes, left-justified, its spare bits cleared where `b` is set. -/
theorem justified_toNat {n : Nat} (h : WidthFacts n) (a : Bus) (b : Bool) :
    (shiftLeft (if b then clearLow (slack15 n) (codingRegion n (lowBits n a)) else codingRegion n (lowBits n a))
        (128 - codingBits n)).toNat =
      (if b then a.toNat % 2 ^ codingBits n - a.toNat % 2 ^ codingBits n % 2 ^ slack15 n
        else a.toNat % 2 ^ codingBits n) * 2 ^ (128 - codingBits n) := by
  have hc := h.split
  have hle := h.le
  have hlt : a.toNat % 2 ^ codingBits n < 2 ^ codingBits n := Nat.mod_lt _ (Nat.two_pow_pos _)
  have e : (if b then clearLow (slack15 n) (codingRegion n (lowBits n a)) else codingRegion n (lowBits n a)).toNat =
      if b then a.toNat % 2 ^ codingBits n - a.toNat % 2 ^ codingBits n % 2 ^ slack15 n
      else a.toNat % 2 ^ codingBits n := by
    cases b
    · simpa using codingRegion_lowBits h a
    · simp only [if_true]
      rw [clearLow_toNat, codingRegion_lowBits h]
  rw [shiftLeft_toNat, e]
  apply Nat.mod_eq_of_lt
  have h3 : (if b then a.toNat % 2 ^ codingBits n - a.toNat % 2 ^ codingBits n % 2 ^ slack15 n
      else a.toNat % 2 ^ codingBits n) < 2 ^ codingBits n := by
    split <;> omega
  calc _ < 2 ^ codingBits n * 2 ^ (128 - codingBits n) := Nat.mul_lt_mul_of_pos_right h3 (Nat.two_pow_pos _)
    _ = 2 ^ 128 := by rw [← Nat.pow_add]; congr 1; omega

/-- The accumulator DLOAD writes: the coding region, its spare bits cleared in special mode, left-justified. -/
theorem loadedRegs_acc_toNat (P : Params) {w : WidthCode} (hw : w.toNat ≤ 4) (a : Bus) :
    (loadedRegs P w a).acc.toNat =
      (if (loadedRegs P w a).spc then
        a.toNat % 2 ^ codingBits (widthBits w) -
          a.toNat % 2 ^ codingBits (widthBits w) % 2 ^ slack15 (widthBits w)
        else a.toNat % 2 ^ codingBits (widthBits w)) * 2 ^ (128 - codingBits (widthBits w)) := by
  simp only [loadedRegs]
  exact justified_toNat (widthFacts hw) a _

/-- DLOAD looks at the low N bits of its operand only. -/
theorem loadedRegs_congr {P : Params} {w : WidthCode} {a b : Bus}
    (h : lowBits (widthBits w) a = lowBits (widthBits w) b) : loadedRegs P w a = loadedRegs P w b := by
  simp only [loadedRegs, h]

end Sys2Proof.Machine
end

