-- ==== Sys2Proof/Laws/Encoder.lean ====
section
/-! SUPPORT. What the encoder's shared operations do: one unit into the accumulator, the way into an error, and the
accumulator as a sum of units. -/

namespace Sys2Proof.Machine

/-! ### One unit -/

theorem rem_ne_zero_iff {e : EncRegs} : e.rem ≠ 0 ↔ 0 < e.rem.toNat := by
  rw [Nat.pos_iff_ne_zero, ne_eq, ne_eq, BitVec.toNat_eq]
  rfl

/-- With a slot left a unit goes into the accumulator below the ones before it. -/
theorem acceptUnit_of_pos {b : Nat} {u : Bus} {e : EncRegs} (h : 0 < e.rem.toNat) (hu : u.toNat < 2 ^ b)
    (hb : b ≤ 128) :
    acceptUnit b u e = .ok { e with
      acc := BitVec.ofNat 128 (e.acc.toNat * 2 ^ b + u.toNat), rem := BitVec.ofNat 5 (e.rem.toNat - 1) } := by
  rw [acceptUnit, if_neg (rem_ne_zero_iff.2 h)]
  congr 2
  · apply BitVec.eq_of_toNat_eq
    rw [orInto_shiftLeft_toNat _ _ _ hu hb, BitVec.toNat_ofNat]
  · apply BitVec.eq_of_toNat_eq
    have := e.rem.isLt
    simp
    omega

/-- With no slot left a unit is one too many. -/
theorem acceptUnit_of_zero {b : Nat} {u : Bus} {e : EncRegs} (h : e.rem.toNat = 0) :
    acceptUnit b u e = .error .tooLong := by
  rw [acceptUnit, if_pos (BitVec.eq_of_toNat_eq h)]

theorem acceptUnit_eq_error {b : Nat} {u : Bus} {e : EncRegs} {x : EncError} :
    acceptUnit b u e = .error x ↔ e.rem.toNat = 0 ∧ x = .tooLong := by
  unfold acceptUnit
  split
  · rename_i h
    simp [h]
    exact eq_comm
  · rename_i h
    simp [BitVec.toNat_eq] at h ⊢
    exact fun h' => absurd h' h

theorem acceptUnit_mode {b : Nat} {u : Bus} {e e' : EncRegs} (h : acceptUnit b u e = .ok e') : e'.mode = e.mode := by
  unfold acceptUnit at h
  split at h <;> cases h
  rfl

theorem widenIndex_lt {m : Nat} (x : BitVec m) (h : m ≤ 128) : (widenIndex x).toNat < 2 ^ m := by
  rw [widenIndex_toNat x h]
  exact x.isLt

/-! ### Errors -/

/-- The status and the information together tell the error. -/
theorem encError_eq {x y : EncError} (h : x.status = y.status) (hi : x.info = y.info) : x = y := by
  cases x <;> cases y <;> simp [EncError.status, EncError.info] at h hi ⊢ <;> try exact hi
  have := congrArg BitVec.toNat hi
  simp at this
  apply BitVec.eq_of_toNat_eq
  omega

theorem encError_status_ne_ok (x : EncError) : x.status ≠ .ok := by cases x <;> simp [EncError.status]

/-- An EPUSH that started without an error ends in the error x exactly when its character gives x. -/
theorem settle_err_iff {s : State} {r : Except EncError EncRegs} {x : EncError}
    (hr : ∀ e, r = .ok e → e.mode ≠ .err) :
    ((s.settle r).enc.mode = .err ∧ (s.settle r).enc.err = x.status ∧ (s.settle r).enc.info = x.info) ↔
      r = .error x := by
  cases r with
  | ok e => exact ⟨fun h => absurd h.1 (hr e rfl), fun h => by cases h⟩
  | error y =>
    constructor
    · rintro ⟨-, h1, h2⟩
      exact congrArg _ (encError_eq h1 h2)
    · intro h
      cases h
      exact ⟨rfl, rfl, rfl⟩

/-! ### The accumulator as a sum of units -/

theorem accValue_append (b t : Nat) (us : List Nat) (u : Nat) :
    accValue b t (us ++ [u]) = accValue b t us * 2 ^ b + u := by
  simp [accValue]

theorem accValue_lt (b k : Nat) : ∀ (us : List Nat) (t : Nat), t < 2 ^ k → (∀ u ∈ us, u < 2 ^ b) →
    accValue b t us < 2 ^ (k + b * us.length) := by
  intro us
  induction us using List.reverseRecOn with
  | nil => intro t h _; simpa [accValue] using h
  | append_singleton us u ih =>
    intro t h hu
    rw [accValue_append]
    have := ih t h (fun v hv => hu v (by simp [hv]))
    have hu := hu u (by simp)
    rw [List.length_append, List.length_singleton, Nat.mul_add, ← Nat.add_assoc, Nat.mul_one, Nat.pow_add]
    calc _ < accValue b t us * 2 ^ b + 2 ^ b := by omega
      _ = (accValue b t us + 1) * 2 ^ b := by ring
      _ ≤ _ := Nat.mul_le_mul_right _ this

/-- Padding the accumulator below puts the tag above C bits and unit i into the bits from C - b·i up. -/
theorem accValue_mul_pow (b C : Nat) : ∀ (us : List Nat) (t : Nat), b * us.length ≤ C →
    accValue b t us * 2 ^ (C - b * us.length) =
      t * 2 ^ C + ((us.zipIdx 1).map fun ui => ui.1 * 2 ^ (C - b * ui.2)).sum := by
  intro us
  induction us using List.reverseRecOn with
  | nil => intro t h; simp [accValue]
  | append_singleton us u ih =>
    intro t h
    simp only [List.length_append, List.length_singleton] at h ⊢
    rw [accValue_append, List.zipIdx_append, List.map_append, List.sum_append, ← Nat.add_assoc,
      ← ih t (by rw [Nat.mul_add] at h; omega)]
    have e : C - b * us.length = b + (C - b * (us.length + 1)) := by rw [Nat.mul_add] at h ⊢; omega
    simp only [List.zipIdx_singleton, List.map_cons, List.map_nil, List.sum_cons, List.sum_nil]
    rw [Nat.add_comm 1, e, Nat.pow_add]
    ring

end Sys2Proof.Machine
end

