-- ==== Sys2Proof/Laws/State.lean ====
section
/-! SUPPORT. One lemma for each field after each write of the state, so that no proof unfolds a record update. -/

namespace Sys2Proof.Machine

variable (s : State) (e : EncRegs) (d : DecRegs) (x : EncError) (st : Status) (v : Bus) (c : Scalar)

@[simp] theorem respond_enc : (s.respond st v c).enc = s.enc := rfl
@[simp] theorem respond_dec : (s.respond st v c).dec = s.dec := rfl
@[simp] theorem respond_params : (s.respond st v c).params = s.params := rfl
@[simp] theorem respond_inputs : (s.respond st v c).inputs = s.inputs := rfl
@[simp] theorem respond_rsp : (s.respond st v c).rsp = some ⟨st, v, c⟩ := rfl

@[simp] theorem setEnc_enc : (s.setEnc e).enc = e := rfl
@[simp] theorem setEnc_dec : (s.setEnc e).dec = s.dec := rfl
@[simp] theorem setEnc_params : (s.setEnc e).params = s.params := rfl
@[simp] theorem setEnc_inputs : (s.setEnc e).inputs = s.inputs := rfl
@[simp] theorem setEnc_rsp : (s.setEnc e).rsp = s.rsp := rfl

@[simp] theorem setDec_enc : (s.setDec d).enc = s.enc := rfl
@[simp] theorem setDec_dec : (s.setDec d).dec = d := rfl
@[simp] theorem setDec_params : (s.setDec d).params = s.params := rfl
@[simp] theorem setDec_inputs : (s.setDec d).inputs = s.inputs := rfl
@[simp] theorem setDec_rsp : (s.setDec d).rsp = s.rsp := rfl

@[simp] theorem latch_w : (e.latch x).w = e.w := rfl
@[simp] theorem latch_mode : (e.latch x).mode = .err := rfl
@[simp] theorem latch_page : (e.latch x).page = e.page := rfl
@[simp] theorem latch_acc : (e.latch x).acc = e.acc := rfl
@[simp] theorem latch_rem : (e.latch x).rem = e.rem := rfl
@[simp] theorem latch_err : (e.latch x).err = x.status := rfl
@[simp] theorem latch_info : (e.latch x).info = x.info := rfl

@[simp] theorem fail_enc : (s.fail x).enc = s.enc.latch x := rfl
@[simp] theorem fail_dec : (s.fail x).dec = s.dec := rfl
@[simp] theorem fail_params : (s.fail x).params = s.params := rfl
@[simp] theorem fail_inputs : (s.fail x).inputs = s.inputs := rfl
@[simp] theorem fail_rsp : (s.fail x).rsp = some ⟨x.status, 0, x.info⟩ := rfl

@[simp] theorem settle_ok : s.settle (.ok e) = (s.setEnc e).respond .ok 0 0 := rfl
@[simp] theorem settle_error : s.settle (.error x) = s.fail x := rfl

@[simp] theorem advance_enc : s.advance.enc = s.enc := rfl
@[simp] theorem advance_dec : s.advance.dec = s.dec := rfl
@[simp] theorem advance_params : s.advance.params = s.params := rfl
@[simp] theorem advance_inputs : s.advance.inputs = s.inputs.tail := rfl
@[simp] theorem advance_rsp : s.advance.rsp = s.rsp := rfl

@[simp] theorem resetEdge_enc : s.resetEdge.enc = EncRegs.reset := rfl
@[simp] theorem resetEdge_dec : s.resetEdge.dec = DecRegs.reset := rfl
@[simp] theorem resetEdge_params : s.resetEdge.params = s.params := rfl
@[simp] theorem resetEdge_inputs : s.resetEdge.inputs = s.inputs := rfl
@[simp] theorem resetEdge_rsp : s.resetEdge.rsp = none := rfl

@[simp] theorem idleEdge_enc : s.idleEdge.enc = s.enc := rfl
@[simp] theorem idleEdge_dec : s.idleEdge.dec = s.dec := rfl
@[simp] theorem idleEdge_params : s.idleEdge.params = s.params := rfl
@[simp] theorem idleEdge_inputs : s.idleEdge.inputs = s.inputs := rfl
@[simp] theorem idleEdge_rsp : s.idleEdge.rsp = none := rfl

@[simp] theorem badCommand_enc : s.badCommand.enc = s.enc := rfl
@[simp] theorem badCommand_dec : s.badCommand.dec = s.dec := rfl
@[simp] theorem badCommand_params : s.badCommand.params = s.params := rfl
@[simp] theorem badCommand_inputs : s.badCommand.inputs = s.inputs := rfl
@[simp] theorem badCommand_rsp : s.badCommand.rsp = some ⟨.badCmd, 0, 0⟩ := rfl

@[simp] theorem withFetchWord_enc (nbits w : Nat) : (s.withFetchWord nbits w).enc = s.enc := rfl
@[simp] theorem withFetchWord_dec (nbits w : Nat) : (s.withFetchWord nbits w).dec = s.dec := rfl
@[simp] theorem withFetchWord_params (nbits w : Nat) : (s.withFetchWord nbits w).params = s.params := rfl
@[simp] theorem withFetchWord_rsp (nbits w : Nat) : (s.withFetchWord nbits w).rsp = s.rsp := rfl
@[simp] theorem withFetchWord_edge (nbits w : Nat) :
    (s.withFetchWord nbits w).edge = Edge.present (Command.ofTableWord nbits w) := rfl

@[simp] theorem startEncoder_enc (w : WidthCode) : (startEncoder w s).enc = EncRegs.start w := rfl
@[simp] theorem startEncoder_dec (w : WidthCode) : (startEncoder w s).dec = s.dec := rfl
@[simp] theorem startEncoder_params (w : WidthCode) : (startEncoder w s).params = s.params := rfl
@[simp] theorem startEncoder_inputs (w : WidthCode) : (startEncoder w s).inputs = s.inputs := rfl
@[simp] theorem startEncoder_rsp (w : WidthCode) : (startEncoder w s).rsp = some ⟨.ok, 0, 0⟩ := rfl

@[simp] theorem loadDecoder_enc (w : WidthCode) : (loadDecoder w v s).enc = s.enc := rfl
@[simp] theorem loadDecoder_dec (w : WidthCode) : (loadDecoder w v s).dec = loadedRegs s.params w v := rfl
@[simp] theorem loadDecoder_params (w : WidthCode) : (loadDecoder w v s).params = s.params := rfl
@[simp] theorem loadDecoder_inputs (w : WidthCode) : (loadDecoder w v s).inputs = s.inputs := rfl
@[simp] theorem loadDecoder_rsp (w : WidthCode) : (loadDecoder w v s).rsp =
    some ⟨.ok, dataOfLoad (loadedRegs s.params w v).tag (loadedRegs s.params w v).spc, 0⟩ := rfl

@[simp] theorem emit_enc (b : Nat) : (emit c b s).enc = s.enc := rfl
@[simp] theorem emit_dec (b : Nat) : (emit c b s).dec = { s.dec with acc := shiftLeft s.dec.acc b } := rfl
@[simp] theorem emit_params (b : Nat) : (emit c b s).params = s.params := rfl
@[simp] theorem emit_inputs (b : Nat) : (emit c b s).inputs = s.inputs := rfl
@[simp] theorem emit_rsp (b : Nat) : (emit c b s).rsp = some ⟨.ok, dataOfScalar c, 0⟩ := rfl

@[simp] theorem present_rst (c : Command) : (Edge.present c).rst = false := rfl
@[simp] theorem present_command (c : Command) : (Edge.present c).command = some c := rfl

end Sys2Proof.Machine
end

