-- ==== Sys2Proof/Laws/Exec.lean ====
section
/-! SUPPORT. What a command and a step can do, said once: the proofs about steps cite these and unfold neither. -/

namespace Sys2Proof.Machine

/-- All a command can do: it completes with a response, writes the encoder registers only if it is an encoder command
and the decoder registers only if it is a decoder command, and leaves the parameters and the port alone. -/
theorem exec_answers (i : Instr) (s : State) : ∃ e d r,
    exec i s = .next { s with enc := e, dec := d, rsp := some r } ∧
    (i.isEncoder = false → e = s.enc) ∧ (i.isDecoder = false → d = s.dec) := by
  cases i
  case epush c =>
    simp only [exec, execEpush]
    split
    · exact ⟨s.enc, s.dec, _, rfl, fun h => rfl, fun h => rfl⟩
    · cases pushChar s.params c s.enc <;> exact ⟨_, s.dec, _, rfl, fun h => Bool.noConfusion h, fun h => rfl⟩
  case eread =>
    simp only [exec, execEread]
    split <;> exact ⟨s.enc, s.dec, _, rfl, fun h => rfl, fun h => rfl⟩
  case dnext =>
    simp only [exec, execDnext]
    split <;> split
    · exact ⟨s.enc, s.dec, _, rfl, fun _ => rfl, fun _ => rfl⟩
    · exact ⟨s.enc, _, _, rfl, fun _ => rfl, fun h => Bool.noConfusion h⟩
    · exact ⟨s.enc, s.dec, _, rfl, fun _ => rfl, fun _ => rfl⟩
    · exact ⟨s.enc, _, _, rfl, fun _ => rfl, fun h => Bool.noConfusion h⟩
  case pageof c =>
    simp only [exec, execPageof]
    split <;> exact ⟨s.enc, s.dec, _, rfl, fun h => rfl, fun h => rfl⟩
  case codeof p c =>
    simp only [exec, execCodeof]
    split <;> exact ⟨s.enc, s.dec, _, rfl, fun h => rfl, fun h => rfl⟩
  case dloadW8 v => exact ⟨s.enc, _, _, rfl, fun _ => rfl, fun h => Bool.noConfusion h⟩
  case dloadW16 v => exact ⟨s.enc, _, _, rfl, fun _ => rfl, fun h => Bool.noConfusion h⟩
  case dloadW32 v => exact ⟨s.enc, _, _, rfl, fun _ => rfl, fun h => Bool.noConfusion h⟩
  case dloadW64 v => exact ⟨s.enc, _, _, rfl, fun _ => rfl, fun h => Bool.noConfusion h⟩
  case dloadW128 v => exact ⟨s.enc, _, _, rfl, fun _ => rfl, fun h => Bool.noConfusion h⟩
  case estartW8 => exact ⟨_, s.dec, _, rfl, fun h => Bool.noConfusion h, fun _ => rfl⟩
  case estartW16 => exact ⟨_, s.dec, _, rfl, fun h => Bool.noConfusion h, fun _ => rfl⟩
  case estartW32 => exact ⟨_, s.dec, _, rfl, fun h => Bool.noConfusion h, fun _ => rfl⟩
  case estartW64 => exact ⟨_, s.dec, _, rfl, fun h => Bool.noConfusion h, fun _ => rfl⟩
  case estartW128 => exact ⟨_, s.dec, _, rfl, fun h => Bool.noConfusion h, fun _ => rfl⟩
  all_goals exact ⟨s.enc, s.dec, _, rfl, fun _ => rfl, fun _ => rfl⟩

/-- No command looks at the port. -/
theorem exec_inputs (i : Instr) (s : State) (l : List Edge) {t : State} (h : exec i s = .next t) :
    exec i { s with inputs := l } = .next { t with inputs := l } := by
  cases i
  case epush c =>
    simp only [exec, execEpush] at h ⊢
    split at h
    · rename_i hm; simp only [hm, if_true]; cases h; rfl
    · rename_i hm
      simp only [hm, if_false]
      cases hp : pushChar s.params c s.enc <;> rw [hp] at h <;> cases h <;> rfl
  case eread =>
    simp only [exec, execEread] at h ⊢
    cases hm : s.enc.mode <;> rw [hm] at h <;> cases h <;> rfl
  case dnext =>
    simp only [exec, execDnext] at h ⊢
    cases hm : s.dec.spc <;> simp only [hm] at h <;> split at h <;> rename_i hh <;> simp only [hh] <;>
      cases h <;> rfl
  case pageof c =>
    simp only [exec, execPageof] at h ⊢
    cases hm : pageOf s.params c <;> rw [hm] at h <;> cases h <;> rfl
  case codeof p c =>
    simp only [exec, execCodeof] at h ⊢
    cases hm : codeOf s.params p c <;> rw [hm] at h <;> cases h <;> rfl
  all_goals (cases h; rfl)

theorem exec_params {i : Instr} {s t : State} (h : exec i s = .next t) : t.params = s.params := by
  obtain ⟨e, d, r, h', -⟩ := exec_answers i s
  rw [h'] at h
  cases h
  rfl

theorem exec_port {i : Instr} {s t : State} (h : exec i s = .next t) : t.inputs = s.inputs := by
  obtain ⟨e, d, r, h', -⟩ := exec_answers i s
  rw [h'] at h
  cases h
  rfl

/-- DLOAD at any width, on the whole operand bus: the bits above the width are not looked at. -/
theorem exec_ofDload (w : Width) (arg : Bus) (s : State) :
    exec (.ofDload w arg) s = .next (loadDecoder (widthCode w) arg s) := by
  have key : ∃ a : Bus, exec (.ofDload w arg) s = .next (loadDecoder (widthCode w) a s) ∧
      lowBits (widthBits (widthCode w)) a = lowBits (widthBits (widthCode w)) arg := by
    cases w
    case w128 => exact ⟨_, rfl, rfl⟩
    all_goals
      refine ⟨_, rfl, ?_⟩
      apply BitVec.eq_of_toNat_eq
      rw [lowBits_toNat _ _ (by decide), lowBits_toNat _ _ (by decide)]
      simp [widthCode, widthBits]
  obtain ⟨a, h1, h2⟩ := key
  rw [h1, loadDecoder, loadDecoder, loadedRegs_congr h2]

/-- ESTART at any width. -/
theorem exec_ofEstart (w : Width) (s : State) :
    exec (.ofEstart w) s = .next (startEncoder (widthCode w) s) := by cases w <;> rfl

/-- All a step can do: a reset edge, an idle edge, a command, or a reserved command byte. -/
theorem step_cases {s t : State} (h : step s = .next t) :
    (s.edge.rst = true ∧ t = s.advance.resetEdge) ∨
    (s.edge.rst = false ∧ s.edge.command = none ∧ t = s.advance.idleEdge) ∨
    (∃ c i, s.edge.command = some c ∧ decode c = .ok i ∧ exec i s.advance = .next t) ∨
    (∃ c r, s.edge.command = some c ∧ decode c = .error r ∧ t = s.advance.badCommand) := by
  unfold step at h
  split at h
  · cases h; exact .inl ⟨by assumption, rfl⟩
  · split at h
    · cases h; exact .inr (.inl ⟨by simp_all, by assumption, rfl⟩)
    · split at h
      · exact .inr (.inr (.inl ⟨_, _, by assumption, by assumption, h⟩))
      · cases h; exact .inr (.inr (.inr ⟨_, _, by assumption, by assumption, rfl⟩))

/-- The first step of a run. -/
theorem run_succ {s t : State} (k : Nat) (h : step s = .next t) :
    Host.Core.run Sys2Proof.core (k + 1) s = Host.Core.run Sys2Proof.core k t := by
  have : ∀ (M : Host.Core) (s t : M.State), M.step s = .next t → M.run (k + 1) s = M.run k t := by
    intro M s t h
    simp [Host.Core.run, h]
  exact this Sys2Proof.core s t h

/-- The first command of a sequence. -/
theorem runCommands_cons {i : Instr} {s t : State} (is : List Instr) (h : exec i s = .next t) :
    runCommands (i :: is) s = runCommands is t := by
  simp only [runCommands, h]

/-- Strict validation as an equation of responses. -/
theorem strictlyValid_iff {w : Width} {arg : Bus} {s : State} : strictlyValid w arg s = true ↔
    reencode w arg s = some ⟨.ok, lowBits (widthBits (widthCode w)) arg, 0⟩ := by
  rw [strictlyValid, beq_iff_eq]

theorem runCommands_append (is js : List Instr) : ∀ {s t : State}, runCommands is s = .next t →
    runCommands (is ++ js) s = runCommands js t := by
  induction is with
  | nil => intro s t h; cases h; rfl
  | cons i is ih =>
    intro s t h
    obtain ⟨e, d, r, h', -⟩ := exec_answers i s
    rw [runCommands_cons is h'] at h
    rw [List.cons_append, runCommands_cons _ h']
    exact ih h

end Sys2Proof.Machine
end

