-- ==== Sys2Proof/Laws/PerInstr.lean ====
section
/-! SUPPORT. A statement about every instruction as syntax, one lemma per constructor. -/

/-- The command byte an instruction is encoded with is one of its own row of the opcode table, and is not reserved
(R56, R57). -/
def Sys2Proof.Laws.EncodedInOwnRow.Statement (i : Sys2Proof.Instr) : Prop :=
  i.row.admits (Sys2Proof.encode i).cmd = true ∧ (Sys2Proof.encode i).wellFormed = true

namespace Sys2Proof.Laws

/-- An instruction is encoded in its own row when its command byte is the row's pattern. -/
theorem encodedInOwnRow_of_pattern {i : Instr} (m b : Byte) (hm : i.row.mask = m) (hb : i.row.pattern = b)
    (hc : (encode i).cmd = b) (h : (b &&& m == b) = true ∧ Command.wellFormed ⟨b, 0⟩ = true) :
    EncodedInOwnRow.Statement i := by
  obtain ⟨h1, h2⟩ := h
  subst hm hc
  exact ⟨by rw [OpcodeRow.admits, hb]; exact h1, h2⟩

theorem EncodedInOwnRow.nop : EncodedInOwnRow.Statement .nop :=
  encodedInOwnRow_of_pattern 0xF0 0x00 rfl rfl rfl (by decide)
theorem EncodedInOwnRow.estartW8 : EncodedInOwnRow.Statement .estartW8 :=
  encodedInOwnRow_of_pattern 0xFF 0x10 rfl rfl rfl (by decide)
theorem EncodedInOwnRow.estartW16 : EncodedInOwnRow.Statement .estartW16 :=
  encodedInOwnRow_of_pattern 0xFF 0x11 rfl rfl rfl (by decide)
theorem EncodedInOwnRow.estartW32 : EncodedInOwnRow.Statement .estartW32 :=
  encodedInOwnRow_of_pattern 0xFF 0x12 rfl rfl rfl (by decide)
theorem EncodedInOwnRow.estartW64 : EncodedInOwnRow.Statement .estartW64 :=
  encodedInOwnRow_of_pattern 0xFF 0x13 rfl rfl rfl (by decide)
theorem EncodedInOwnRow.estartW128 : EncodedInOwnRow.Statement .estartW128 :=
  encodedInOwnRow_of_pattern 0xFF 0x14 rfl rfl rfl (by decide)
theorem EncodedInOwnRow.epush (c : Scalar) : EncodedInOwnRow.Statement (.epush c) :=
  encodedInOwnRow_of_pattern 0xF0 0x20 rfl rfl rfl (by decide)
theorem EncodedInOwnRow.eread : EncodedInOwnRow.Statement .eread :=
  encodedInOwnRow_of_pattern 0xF0 0x30 rfl rfl rfl (by decide)
theorem EncodedInOwnRow.dloadW8 (v : BitVec 8) : EncodedInOwnRow.Statement (.dloadW8 v) :=
  encodedInOwnRow_of_pattern 0xFF 0x40 rfl rfl rfl (by decide)
theorem EncodedInOwnRow.dloadW16 (v : BitVec 16) : EncodedInOwnRow.Statement (.dloadW16 v) :=
  encodedInOwnRow_of_pattern 0xFF 0x41 rfl rfl rfl (by decide)
theorem EncodedInOwnRow.dloadW32 (v : BitVec 32) : EncodedInOwnRow.Statement (.dloadW32 v) :=
  encodedInOwnRow_of_pattern 0xFF 0x42 rfl rfl rfl (by decide)
theorem EncodedInOwnRow.dloadW64 (v : BitVec 64) : EncodedInOwnRow.Statement (.dloadW64 v) :=
  encodedInOwnRow_of_pattern 0xFF 0x43 rfl rfl rfl (by decide)
theorem EncodedInOwnRow.dloadW128 (v : BitVec 128) : EncodedInOwnRow.Statement (.dloadW128 v) :=
  encodedInOwnRow_of_pattern 0xFF 0x44 rfl rfl rfl (by decide)
theorem EncodedInOwnRow.dnext : EncodedInOwnRow.Statement .dnext :=
  encodedInOwnRow_of_pattern 0xF0 0x50 rfl rfl rfl (by decide)
theorem EncodedInOwnRow.pageof (c : Scalar) : EncodedInOwnRow.Statement (.pageof c) :=
  encodedInOwnRow_of_pattern 0xF0 0x60 rfl rfl rfl (by decide)
theorem EncodedInOwnRow.codeof (p : Page) (c : Scalar) : EncodedInOwnRow.Statement (.codeof p c) :=
  encodedInOwnRow_of_pattern 0xF0 0x70 rfl rfl rfl (by decide)
theorem EncodedInOwnRow.charof (p : Page) (k : Code) : EncodedInOwnRow.Statement (.charof p k) :=
  encodedInOwnRow_of_pattern 0xF0 0x80 rfl rfl rfl (by decide)
theorem EncodedInOwnRow.descW8 : EncodedInOwnRow.Statement .descW8 :=
  encodedInOwnRow_of_pattern 0xFF 0x90 rfl rfl rfl (by decide)
theorem EncodedInOwnRow.descW16 : EncodedInOwnRow.Statement .descW16 :=
  encodedInOwnRow_of_pattern 0xFF 0x91 rfl rfl rfl (by decide)
theorem EncodedInOwnRow.descW32 : EncodedInOwnRow.Statement .descW32 :=
  encodedInOwnRow_of_pattern 0xFF 0x92 rfl rfl rfl (by decide)
theorem EncodedInOwnRow.descW64 : EncodedInOwnRow.Statement .descW64 :=
  encodedInOwnRow_of_pattern 0xFF 0x93 rfl rfl rfl (by decide)
theorem EncodedInOwnRow.descW128 : EncodedInOwnRow.Statement .descW128 :=
  encodedInOwnRow_of_pattern 0xFF 0x94 rfl rfl rfl (by decide)

end Sys2Proof.Laws
end

