-- ==== Sys2Proof/Laws/Registry.lean ====
section
/-! SUPPORT. The searches of the registry as what they find: over the codes of a page and over the pages. -/

namespace Sys2Proof.Machine

/-- A search over the codes a, a + 1, … finds the least code that passes. -/
theorem find?_codes_eq_some (f : Code → Bool) : ∀ (n a : Nat), a + n ≤ 64 → ∀ k : Code,
    ((List.range' a n).map (BitVec.ofNat 6)).find? f = some k ↔
      a ≤ k.toNat ∧ k.toNat < a + n ∧ f k = true ∧ ∀ j : Code, a ≤ j.toNat → j < k → f j = false := by
  intro n
  induction n with
  | zero => intro a h k; simp; omega
  | succ n ih =>
    intro a h k
    rw [List.range'_succ, List.map_cons, List.find?_cons]
    have hat : (BitVec.ofNat 6 a).toNat = a := by simp; omega
    split
    · rename_i hf
      constructor
      · intro h
        cases h
        exact ⟨by omega, by omega, hf, fun j h1 h2 => by rw [BitVec.lt_def] at h2; omega⟩
      · rintro ⟨h1, h2, h3, h4⟩
        by_cases he : k.toNat = a
        · congr 1
          exact BitVec.eq_of_toNat_eq (by omega)
        · have := h4 (BitVec.ofNat 6 a) (by omega) (by rw [BitVec.lt_def]; omega)
          simp_all
    · rename_i hf
      rw [ih (a + 1) (by omega) k]
      constructor
      · rintro ⟨h1, h2, h3, h4⟩
        refine ⟨by omega, by omega, h3, fun j g1 g2 => ?_⟩
        by_cases he : j.toNat = a
        · have : j = BitVec.ofNat 6 a := BitVec.eq_of_toNat_eq (by omega)
          rw [this]
          simpa using hf
        · exact h4 j (by omega) g2
      · rintro ⟨h1, h2, h3, h4⟩
        have : k.toNat ≠ a := by
          intro he
          have : k = BitVec.ofNat 6 a := BitVec.eq_of_toNat_eq (by omega)
          rw [this] at h3
          simp_all
        exact ⟨by omega, by omega, h3, fun j g1 g2 => h4 j (by omega) g2⟩

/-- A search over the pages a, a + 1, … finds the lowest page that has a code. -/
theorem findSome?_pages_eq_some (f : Page → Option Code) : ∀ (n a : Nat), a + n ≤ 16 → ∀ (p : Page) (k : Code),
    ((List.range' a n).map (BitVec.ofNat 4)).findSome? (fun p => (f p).map fun k => (p, k)) = some (p, k) ↔
      a ≤ p.toNat ∧ p.toNat < a + n ∧ f p = some k ∧ ∀ q : Page, a ≤ q.toNat → q < p → f q = none := by
  intro n
  induction n with
  | zero => intro a h p k; simp; omega
  | succ n ih =>
    intro a h p k
    rw [List.range'_succ, List.map_cons, List.findSome?_cons]
    have hat : (BitVec.ofNat 4 a).toNat = a := by simp; omega
    cases hf : f (BitVec.ofNat 4 a) with
    | some k' =>
      simp
      constructor
      · rintro ⟨rfl, rfl⟩
        exact ⟨by omega, by omega, hf, fun j h1 h2 => by rw [BitVec.lt_def] at h2; omega⟩
      · rintro ⟨h1, h2, h3, h4⟩
        by_cases he : p.toNat = a
        · have : BitVec.ofNat 4 a = p := BitVec.eq_of_toNat_eq (by omega)
          rw [this] at hf
          simp_all
        · have := h4 (BitVec.ofNat 4 a) (by omega) (by rw [BitVec.lt_def]; omega)
          simp_all
    | none =>
      simp only [Option.map_none]
      rw [ih (a + 1) (by omega) p k]
      constructor
      · rintro ⟨h1, h2, h3, h4⟩
        refine ⟨by omega, by omega, h3, fun j g1 g2 => ?_⟩
        by_cases he : j.toNat = a
        · have : j = BitVec.ofNat 4 a := BitVec.eq_of_toNat_eq (by omega)
          rw [this]
          simpa using hf
        · exact h4 j (by omega) g2
      · rintro ⟨h1, h2, h3, h4⟩
        have : p.toNat ≠ a := by
          intro he
          have : p = BitVec.ofNat 4 a := BitVec.eq_of_toNat_eq (by omega)
          rw [this] at h3
          simp_all
        exact ⟨by omega, by omega, h3, fun j g1 g2 => h4 j (by omega) g2⟩

theorem mem_characterCodes (k : Code) : k ∈ characterCodes ↔ 1 ≤ k.toNat := by
  have := k.isLt
  simp only [characterCodes, List.mem_map, List.mem_range'_1]
  constructor
  · rintro ⟨a, ⟨h1, h2⟩, rfl⟩
    rw [BitVec.toNat_ofNat, Nat.mod_eq_of_lt (by omega)]
    exact h1
  · exact fun h => ⟨k.toNat, ⟨h, by omega⟩, by simp⟩

theorem mem_pageIndices (p : Page) : p ∈ pageIndices :=
  List.mem_map.2 ⟨p.toNat, List.mem_range.2 p.isLt, by simp⟩

theorem count_le (P : Params) (p : Page) : P.count p ≤ 63 :=
  le_trans (List.length_filter_le _ _) (by simp [characterCodes])

/-- What `codeOf` gives is a place of the page that holds the character. -/
theorem entry_of_codeOf {P : Params} {p : Page} {c : Scalar} {k : Code} (h : codeOf P p c = some k) :
    P.entry p k = c ∧ 1 ≤ k.toNat ∧ c ≠ P.sentinel ∧ c ≠ P.termChar := by
  unfold codeOf at h
  split at h
  · cases h
  · rename_i hne
    have hk := (mem_characterCodes k).1 (List.mem_of_find?_eq_some h)
    have he := List.find?_some h
    simp only [romRead, beq_iff_eq] at he
    exact ⟨he, hk, fun h => hne (.inl h), fun h => hne (.inr h)⟩

/-- An entry at a code other than 0 stands in its page's row behind the entry at code 0. -/
theorem entry_mem_tail (P : Params) (p : Page) (k : Code) (hk : k ≠ 0) :
    P.entry p k ∈ (P.pages[p.toNat]'p.isLt).toList.tail := by
  have h0 : k.toNat ≠ 0 := fun h => hk (BitVec.eq_of_toNat_eq h)
  have hlt := k.isLt
  refine List.mem_of_getElem (i := k.toNat - 1) (h := by simp; omega) ?_
  simp [Params.entry, Nat.sub_add_cancel (Nat.pos_of_ne_zero h0)]

/-- A page that holds the character at no code answers none. -/
theorem codeOf_eq_none {P : Params} {p : Page} {c : Scalar} (h : ∀ k : Code, k ≠ 0 → P.entry p k ≠ c) :
    codeOf P p c = none := by
  cases hc : codeOf P p c with
  | none => rfl
  | some k =>
    obtain ⟨he, hk, -⟩ := entry_of_codeOf hc
    exact absurd he (h k fun h0 => by simp [h0] at hk)

/-- What `pageOf` gives is a page that holds the character, with its code there. -/
theorem codeOf_of_pageOf {P : Params} {c : Scalar} {p : Page} {k : Code} (h : pageOf P c = some (p, k)) :
    codeOf P p c = some k := by
  obtain ⟨q, -, hq⟩ := List.exists_of_findSome?_eq_some h
  obtain ⟨j, hj, he⟩ := Option.map_eq_some_iff.1 hq
  cases he
  exact hj

/-- A character that no page has a code for has no page. -/
theorem pageOf_eq_none {P : Params} {c : Scalar} (h : ∀ p, codeOf P p c = none) : pageOf P c = none := by
  cases hc : pageOf P c with
  | none => rfl
  | some pk => exact absurd (codeOf_of_pageOf (p := pk.1) (k := pk.2) hc) (by simp [h])

theorem spcUnit_of_not_inSpecial {P : Params} {c : Scalar} (h : ¬ P.InSpecial c) : spcUnit P c = none := if_neg h

theorem spcUnit_of_inSpecial {P : Params} {c : Scalar} (h : P.InSpecial c) :
    ∃ u, spcUnit P c = some u ∧ u.toNat = (c.toNat - P.lowBound.toNat + 1) % 2 ^ 15 := by
  refine ⟨_, by rw [spcUnit, if_pos h], ?_⟩
  have h1 := h.1
  rw [BitVec.le_def] at h1
  have := c.isLt
  simp
  omega

theorem spcChar_toNat (P : Params) (u : SpcUnit) (h : 1 ≤ u.toNat) :
    (spcChar P u).toNat = (P.lowBound.toNat + u.toNat - 1) % 2 ^ 21 := by
  have := u.isLt
  have := P.lowBound.isLt
  simp [spcChar]
  omega

end Sys2Proof.Machine
end

