-- ==== Sys2Proof/Tests/Slice0.lean ====
section
/-! SUPPORT. Tests on fixed values, most of them the vectors of `95_test_vectors.md` under its illustrative `ROM_T`, and
for every statement with hypotheses a concrete case that meets them. -/

open Sys2Proof
open Sys2Proof.Machine

/-! ### The illustrative parameters `ROM_T` -/

namespace Slice0

-- One theorem at a time: every theorem that waits for the kernel would otherwise hold a thread, and its stack, of its own.
set_option Elab.async false

def reservedRow : Vector Scalar 64 := ⟨⟨List.replicate 64 0xFFFF⟩, rfl⟩

/-- '0' to '9', 'A' to 'Z' and '_'. -/
def row0 : Vector Scalar 64 :=
  ⟨⟨[
    0x0, 0x30, 0x31, 0x32, 0x33, 0x34, 0x35, 0x36, 0x37, 0x38, 0x39, 0x41, 0x42, 0x43, 0x44, 0x45, 0x46, 0x47,
    0x48, 0x49, 0x4A, 0x4B, 0x4C, 0x4D, 0x4E, 0x4F, 0x50, 0x51, 0x52, 0x53, 0x54, 0x55, 0x56, 0x57, 0x58, 0x59,
    0x5A, 0x5F] ++ List.replicate 26 0xFFFF⟩, rfl⟩

/-- 'a' to 'z'. -/
def row1 : Vector Scalar 64 :=
  ⟨⟨[
    0x0, 0x61, 0x62, 0x63, 0x64, 0x65, 0x66, 0x67, 0x68, 0x69, 0x6A, 0x6B, 0x6C, 0x6D, 0x6E, 0x6F, 0x70, 0x71,
    0x72, 0x73, 0x74, 0x75, 0x76, 0x77, 0x78, 0x79, 0x7A] ++ List.replicate 37 0xFFFF⟩, rfl⟩

/-- 'α' to 'ω'. -/
def row4 : Vector Scalar 64 :=
  ⟨⟨[
    0x0, 0x3B1, 0x3B2, 0x3B3, 0x3B4, 0x3B5, 0x3B6, 0x3B7, 0x3B8, 0x3B9, 0x3BA, 0x3BB, 0x3BC, 0x3BD, 0x3BE, 0x3BF,
    0x3C0, 0x3C1, 0x3C2, 0x3C3, 0x3C4, 0x3C5, 0x3C6, 0x3C7, 0x3C8, 0x3C9] ++ List.replicate 38 0xFFFF⟩, rfl⟩

/-- `ROM_T` of `95_test_vectors.md`. -/
def romT : Params where
  pages := ⟨#[row0, row1, reservedRow, reservedRow, row4, reservedRow, reservedRow, reservedRow, reservedRow,
    reservedRow, reservedRow, reservedRow, reservedRow, reservedRow, reservedRow, reservedRow], rfl⟩
  termChar := 0
  sentinel := 0xFFFF
  lowBound := 0x4E00
  highBound := 0x9FFF
  specialTag := 12

/-- A state with the given registers and `ROM_T`. -/
def st (e : EncRegs := EncRegs.reset) (d : DecRegs := DecRegs.reset) (inputs : List Edge := []) : State :=
  { enc := e, dec := d, params := romT, inputs := inputs, rsp := none }

/-- The response a command leaves. -/
def answer (o : Host.Outcome State Fault Refusal) : Option Response :=
  match o with
  | .next t => t.rsp
  | .fault _ => none
  | .refused _ => none

/-- The encoder registers a command leaves. -/
def encAfter (o : Host.Outcome State Fault Refusal) : Option EncRegs :=
  match o with
  | .next t => some t.enc
  | .fault _ => none
  | .refused _ => none

/-- The decoder registers a command leaves. -/
def decAfter (o : Host.Outcome State Fault Refusal) : Option DecRegs :=
  match o with
  | .next t => some t.dec
  | .fault _ => none
  | .refused _ => none

/-- Encoder registers in the middle of an encoding. -/
def encIn (w : WidthCode) (mode : EncMode) (page : Page) (acc : Bus) (rem : BitVec 5) : EncRegs :=
  { w := w, mode := mode, page := page, acc := acc, rem := rem, err := .ok, info := 0 }

/-- Encoder registers with an error latched. -/
def encErr (x : EncError) : EncRegs := (encIn 1 .ord 0 0x19 1).latch x

def decIn (w : WidthCode) (tag : Page) (spc : Bool) (acc : Bus) : DecRegs := { w := w, tag := tag, spc := spc, acc := acc }

/-! ### Well-formedness: each check refuses something -/

theorem test_wellFormed_accepts :
    Command.wellFormed ⟨0x94, 0⟩ = true ∧ Command.wellFormed ⟨0x5F, 1⟩ = true := by decide
theorem test_wellFormed_refuses_op : Command.wellFormed ⟨0xA0, 0⟩ = false ∧ Command.wellFormed ⟨0xFF, 0⟩ = false := by
  decide
theorem test_wellFormed_refuses_width :
    Command.wellFormed ⟨0x15, 0⟩ = false ∧ Command.wellFormed ⟨0x45, 0⟩ = false ∧
      Command.wellFormed ⟨0x9F, 0⟩ = false := by decide

/-- `ROM_T` with one entry of page 0 changed. -/
def spoiled (k : Nat) (c : Scalar) : Params :=
  { romT with pages := ⟨#[⟨⟨row0.toList.set k c⟩, by simp⟩, row1, reservedRow, reservedRow, row4, reservedRow,
      reservedRow, reservedRow, reservedRow, reservedRow, reservedRow, reservedRow, reservedRow, reservedRow,
      reservedRow, reservedRow], rfl⟩ }

theorem test_v1_refuses_gap : ¬ (spoiled 5 0xFFFF).V1 := fun h => by
  rcases h 0 with h | h
  · exact absurd (h 1) (by decide +kernel)
  · exact absurd (h.2.2.1 5 (by decide) (by decide +kernel)) (by decide +kernel)
theorem test_v2_refuses_descent : ¬ (spoiled 5 0x31).V2 := fun h =>
  absurd (h 0 (by decide +kernel) 4 (by decide) (by decide +kernel)) (by decide +kernel)
theorem test_v3_refuses_above_sentinel : ¬ (spoiled 37 0x10000).V3 := fun h =>
  absurd (h 0 37 (by decide) (by decide +kernel)).2 (by decide +kernel)
theorem test_v4_refuses_page_order : ¬ (spoiled 1 0x62).V4 := fun h =>
  absurd (h 0 1 (by decide) (by decide +kernel) (by decide +kernel)) (by decide +kernel)
theorem test_v5_refuses_equal : ¬ ({ romT with termChar := 0xFFFF } : Params).V5 := by decide +kernel
theorem test_v6_refuses_surrogate : ¬ (spoiled 37 0xD800).V6 := fun h =>
  absurd (h 0 37 (by decide) (by decide +kernel)) (by decide +kernel)
theorem test_v7_refuses_twice : ¬ (spoiled 37 0x61).V7 := fun h =>
  absurd (h 0 1 0x61 ⟨37, by decide +kernel⟩ ⟨1, by decide +kernel⟩) (by decide)
theorem test_v8_refuses_order : ¬ ({ romT with highBound := 0x4DFF } : Params).V8 := fun h =>
  absurd h.1 (by decide)
theorem test_v9_refuses_tag : ¬ ({ romT with specialTag := 13 } : Params).V9 := by decide
theorem test_v10_refuses_table_page : ¬ ({ romT with specialTag := 4 } : Params).V10 := by
  rintro (h | h)
  · exact absurd (h 1) (by decide +kernel)
  · exact absurd (h 0x3B1 ⟨1, by decide +kernel⟩) (by decide)

/-- Where the real characters of `ROM_T` stand: in three pages, each in a range of its own. -/
abbrev InRange (p : Page) (c : Scalar) : Prop :=
  (p = 0 ∧ 0x30 ≤ c.toNat ∧ c.toNat ≤ 0x5F) ∨ (p = 1 ∧ 0x61 ≤ c.toNat ∧ c.toNat ≤ 0x7A) ∨
    (p = 4 ∧ 0x3B1 ≤ c.toNat ∧ c.toNat ≤ 0x3C9)

theorem romT_rows : ∀ p : Page, (romT.pages[p.toNat]'p.isLt).toList.tail.all (fun c =>
    c == 0xFFFF || (p == 0 && Nat.ble 0x30 c.toNat && Nat.ble c.toNat 0x5F) ||
      (p == 1 && Nat.ble 0x61 c.toNat && Nat.ble c.toNat 0x7A) ||
      (p == 4 && Nat.ble 0x3B1 c.toNat && Nat.ble c.toNat 0x3C9)) = true := by decide +kernel

theorem romT_ranges (p : Page) (k : Code) (hk : k ≠ 0) (hs : romT.entry p k ≠ romT.sentinel) :
    InRange p (romT.entry p k) := by
  have h := List.all_eq_true.1 (romT_rows p) _ (entry_mem_tail romT p k hk)
  simp only [Bool.or_eq_true, Bool.and_eq_true, beq_iff_eq, Nat.ble_eq, or_assoc, and_assoc] at h
  exact h.resolve_left hs

/-- A character that stands in no range of a page has no code there. -/
theorem romT_codeOf_none {p : Page} {c : Scalar} (hs : c ≠ romT.sentinel) (h : ¬ InRange p c) : codeOf romT p c = none :=
  codeOf_eq_none fun k hk he => h (he ▸ romT_ranges p k hk (he ▸ hs))

/-- Every page but three is reserved. -/
theorem romT_reserved {p : Page} (h0 : p ≠ 0) (h1 : p ≠ 1) (h4 : p ≠ 4) : romT.ReservedPage p := fun k => by
  have h : ∀ p : Page, p = 0 ∨ p = 1 ∨ p = 4 ∨
      (romT.pages[p.toNat]'p.isLt).toList.all (fun c => c == 0xFFFF) = true := by decide +kernel
  have h := List.all_eq_true.1 ((((h p).resolve_left h0).resolve_left h1).resolve_left h4) _
    (Vector.mem_toList_iff.2 (Vector.getElem_mem k.isLt))
  exact beq_iff_eq.1 h

theorem romT_validPage_0 : romT.ValidPage 0 := by decide +kernel
theorem romT_validPage_1 : romT.ValidPage 1 := by decide +kernel
theorem romT_validPage_4 : romT.ValidPage 4 := by decide +kernel
theorem romT_ascends_0 : ∀ k : Code, 1 ≤ k.toNat → k.toNat + 1 ≤ romT.count 0 →
    romT.entry 0 k < romT.entry 0 (k + 1) := by decide +kernel
theorem romT_ascends_1 : ∀ k : Code, 1 ≤ k.toNat → k.toNat + 1 ≤ romT.count 1 →
    romT.entry 1 k < romT.entry 1 (k + 1) := by decide +kernel
theorem romT_ascends_4 : ∀ k : Code, 1 ≤ k.toNat → k.toNat + 1 ≤ romT.count 4 →
    romT.entry 4 k < romT.entry 4 (k + 1) := by decide +kernel

/-- `ROM_T` is valid, as its file says. -/
theorem romT_valid : romT.Valid where
  v1 := by
    intro p
    by_cases h0 : p = 0
    · exact .inr (h0 ▸ romT_validPage_0)
    by_cases h1 : p = 1
    · exact .inr (h1 ▸ romT_validPage_1)
    by_cases h4 : p = 4
    · exact .inr (h4 ▸ romT_validPage_4)
    exact .inl (romT_reserved h0 h1 h4)
  v2 := by
    intro p hp
    rcases romT_ranges p 1 (by decide) (hp.2.2.1 1 (by decide) hp.2.1) with ⟨rfl, -⟩ | ⟨rfl, -⟩ | ⟨rfl, -⟩
    · exact romT_ascends_0
    · exact romT_ascends_1
    · exact romT_ascends_4
  v3 := by
    intro p k hk hs
    rw [BitVec.lt_def, BitVec.lt_def, show romT.termChar.toNat = 0 from rfl, show romT.sentinel.toNat = 0xFFFF from rfl]
    rcases romT_ranges p k hk hs with ⟨-, h⟩ | ⟨-, h⟩ | ⟨-, h⟩ <;> omega
  v4 := by
    intro p q hpq hp hq
    rw [BitVec.lt_def]
    rcases romT_ranges p 1 (by decide) (hp.2.2.1 1 (by decide) hp.2.1) with ⟨rfl, h⟩ | ⟨rfl, h⟩ | ⟨rfl, h⟩ <;>
      rcases romT_ranges q 1 (by decide) (hq.2.2.1 1 (by decide) hq.2.1) with ⟨rfl, h'⟩ | ⟨rfl, h'⟩ | ⟨rfl, h'⟩ <;>
        first | omega | exact absurd hpq (by decide)
  v5 := by
    refine ⟨by decide, fun p k hk hs he => ?_, by decide, by decide, by decide⟩
    have h := romT_ranges p k hk hs
    rw [InRange, he, show romT.termChar.toNat = 0 from rfl] at h
    omega
  v6 := by
    intro p k hk hs
    rcases romT_ranges p k hk hs with ⟨-, h⟩ | ⟨-, h⟩ | ⟨-, h⟩ <;> exact ⟨by omega, by omega⟩
  v7 := by
    rintro p q c ⟨j, hj, rfl, hs⟩ ⟨k, hk, he, -⟩
    have h1 := romT_ranges p j hj hs
    have h2 := romT_ranges q k hk (he ▸ hs)
    rw [he] at h2
    rcases h1 with ⟨rfl, h⟩ | ⟨rfl, h⟩ | ⟨rfl, h⟩ <;> rcases h2 with ⟨rfl, h'⟩ | ⟨rfl, h'⟩ | ⟨rfl, h'⟩ <;>
      first | rfl | omega
  v8 := by
    refine ⟨by decide, by decide, fun c h => ?_⟩
    have h1 : 0x4E00 ≤ c.toNat := h.1
    have h2 : c.toNat ≤ 0x9FFF := h.2
    exact ⟨by omega, by omega⟩
  v9 := by decide
  v10 := .inl (romT_reserved (by decide) (by decide) (by decide))

/-- The special block of `ROM_T` stands above all three pages, at the highest tag. -/
theorem romT_v4WithBlock : romT.V4WithBlock := by
  intro p hp
  have h0 : romT.entry p 1 ≠ romT.sentinel := hp.2.2.1 1 (by decide) hp.2.1
  have hlow : romT.lowBound.toNat = 0x4E00 := by decide
  have htag : romT.specialTag.toNat = 12 := by decide
  rw [BitVec.lt_def, BitVec.lt_def, BitVec.lt_def, BitVec.lt_def, hlow, htag]
  rcases romT_ranges p 1 (by decide) h0 with ⟨rfl, h⟩ | ⟨rfl, h⟩ | ⟨rfl, h⟩ <;>
    exact ⟨fun _ => by omega, fun h' => absurd h' (by decide)⟩
/-- U+03B1 of page 4 stands above a block of U+0040 and U+0041, whose tag is higher. -/
theorem test_v4WithBlock_refuses_low_block :
    ¬ ({ romT with lowBound := 0x40, highBound := 0x41 } : Params).V4WithBlock := fun h =>
  absurd ((h 4 (by decide +kernel)).1 (by decide)) (by decide +kernel)

/-! ### Decoding: words written out from R55 to R58 -/

theorem test_decode_nop : decode ⟨0b0000_0000, 0⟩ = .ok .nop ∧ decode ⟨0b0000_1111, 123⟩ = .ok .nop := by decide
theorem test_decode_estart :
    decode ⟨0b0001_0000, 0⟩ = .ok .estartW8 ∧ decode ⟨0b0001_0001, 0⟩ = .ok .estartW16 ∧
    decode ⟨0b0001_0010, 0⟩ = .ok .estartW32 ∧ decode ⟨0b0001_0011, 0⟩ = .ok .estartW64 ∧
    decode ⟨0b0001_0100, 0⟩ = .ok .estartW128 := by decide
theorem test_decode_epush : decode ⟨0b0010_0000, 0xFFE0_004F⟩ = .ok (.epush 0x4F) := by decide
theorem test_decode_eread : decode ⟨0b0011_0000, 7⟩ = .ok .eread := by decide
theorem test_decode_dload :
    decode ⟨0b0100_0000, 0x319⟩ = .ok (.dloadW8 0x19) ∧ decode ⟨0b0100_0001, 0x10655⟩ = .ok (.dloadW16 0x0655) ∧
    decode ⟨0b0100_0010, 0x1_C0008002⟩ = .ok (.dloadW32 0xC0008002) ∧
    decode ⟨0b0100_0011, 0x1_40420C0000000000⟩ = .ok (.dloadW64 0x40420C0000000000) ∧
    decode ⟨0b0100_0100, 0xC000808D0014237004A836E00080DB00⟩ =
      .ok (.dloadW128 0xC000808D0014237004A836E00080DB00) := by decide
theorem test_decode_dnext : decode ⟨0b0101_0000, 0⟩ = .ok .dnext := by decide
theorem test_decode_pageof : decode ⟨0b0110_0000, 0x3C9⟩ = .ok (.pageof 0x3C9) := by decide
theorem test_decode_codeof :
    decode ⟨0b0111_0000, 0b0100_000_0_0000_0000_0011_1011_0001⟩ = .ok (.codeof 4 0x3B1) := by decide
theorem test_decode_charof : decode ⟨0b1000_0000, 0b0001_011010⟩ = .ok (.charof 1 26) := by decide
theorem test_decode_desc :
    decode ⟨0b1001_0000, 0⟩ = .ok .descW8 ∧ decode ⟨0b1001_0001, 0⟩ = .ok .descW16 ∧
    decode ⟨0b1001_0010, 0⟩ = .ok .descW32 ∧ decode ⟨0b1001_0011, 0⟩ = .ok .descW64 ∧
    decode ⟨0b1001_0100, 0⟩ = .ok .descW128 := by decide
theorem test_decode_reserved :
    decode ⟨0b1010_0000, 0⟩ = .error (.op 10) ∧ decode ⟨0b1001_0101, 0⟩ = .error (.width 9 5) := by decide
/-- A table word: the command byte in bits 7 to 0, the operand from bit 8 on. -/
theorem test_tableWord :
    decodeTableWord 8 0x11 = some .estartW16 ∧ decodeTableWord 136 0x40003B1_70 = some (.codeof 4 0x3B1) ∧
      decodeTableWord 8 0xA0 = none := by decide

/-! ### One command at a time: the vectors of `95_test_vectors.md` -/

theorem test_nop : answer (exec .nop (st (encErr .tooLong))) = some ⟨.ok, 0, 0⟩ := by decide
theorem test_desc_w8 : answer (exec .descW8 st) = some ⟨.ok, 0x000102, 0⟩ := by decide
theorem test_desc_w16 : answer (exec .descW16 st) = some ⟨.ok, 0x000204, 0⟩ := by decide
theorem test_desc_w32 : answer (exec .descW32 st) = some ⟨.ok, 0x020502, 0⟩ := by decide
theorem test_desc_w64 : answer (exec .descW64 st) = some ⟨.ok, 0x040A04, 0⟩ := by decide
theorem test_desc_w128 : answer (exec .descW128 st) = some ⟨.ok, 0x081502, 0⟩ := by decide

theorem test_pageof : answer (exec (.pageof 0x3C9) st) = some ⟨.ok, 0x119, 0⟩ := by decide +kernel
theorem test_pageof_notFound : answer (exec (.pageof 0xFFFF) st) = some ⟨.notFound, 0, 0⟩ := by decide +kernel
theorem test_codeof : answer (exec (.codeof 1 0x7A) st) = some ⟨.ok, 0x1A, 0⟩ := by decide +kernel
theorem test_codeof_otherPage : answer (exec (.codeof 0 0x3B1) st) = some ⟨.notFound, 0, 0⟩ := by decide +kernel
theorem test_charof : answer (exec (.charof 1 26) st) = some ⟨.ok, 0x7A, 0⟩ := by decide +kernel
theorem test_charof_reserved : answer (exec (.charof 2 0) st) = some ⟨.ok, 0xFFFF, 0⟩ := by decide +kernel

theorem test_estart_w8 : encAfter (exec .estartW8 (st (encErr .tooLong))) = some (encIn 0 .empty 0 0 0) := by decide
theorem test_estart_w16 : encAfter (exec .estartW16 (st (encErr .tooLong))) = some (encIn 1 .empty 0 0 0) := by decide
theorem test_estart_w32 : encAfter (exec .estartW32 (st (encIn 1 .ord 0 0x19 1))) = some (encIn 2 .empty 0 0 0) := by
  decide
theorem test_estart_w64 : encAfter (exec .estartW64 (st (encIn 1 .ord 0 0x19 1))) = some (encIn 3 .empty 0 0 0) := by
  decide
theorem test_estart_w128 : encAfter (exec .estartW128 (st (encIn 1 .ord 0 0x19 1))) =
    some (encIn 4 .empty 0 0 0) := by decide

/-- R107's worked example: 'O', then 'K', at 16 bits. -/
theorem test_epush_OK :
    encAfter (exec (.epush 0x4F) (st (encIn 1 .empty 0 0 0))) = some (encIn 1 .ord 0 0x19 1) ∧
    encAfter (exec (.epush 0x4B) (st (encIn 1 .ord 0 0x19 1))) = some (encIn 1 .ord 0 0x655 0) := by decide +kernel
/-- Scenario S4: page 1 is not primary. -/
theorem test_epush_pageUnavailable :
    answer (exec (.epush 0x61) (st (encIn 0 .empty 0 0 0))) = some ⟨.pageUnavailable, 0, 1⟩ := by decide +kernel
/-- R119's worked example at 32 bits. -/
theorem test_eread : answer (exec .eread (st (encIn 2 .ord 0 0x655 3))) = some ⟨.ok, 0x19540000, 0⟩ := by decide
/-- U+4E2D alone at 128 bits: the unit stands directly below the tag. -/
theorem test_eread_special : answer (exec .eread (st (encIn 4 .spc 12 0x1802E 7))) =
    some ⟨.ok, 0xC0170000000000000000000000000000, 0⟩ := by decide

theorem test_dload_w8 : decAfter (exec (.dloadW8 0xC1) st) = some (decIn 0 12 false (0x01 <<< 122)) := by decide
theorem test_dload_w16 : decAfter (exec (.dloadW16 0x0655) st) =
    some (decIn 1 0 false 0x65500000000000000000000000000000) := by decide
theorem test_dload_w32 : decAfter (exec (.dloadW32 0xC0008002) st) =
    some (decIn 2 12 true 0x00020008000000000000000000000000) := by decide
theorem test_dload_w64 : decAfter (exec (.dloadW64 0x40420C0000000000) st) =
    some (decIn 3 4 false 0x0420C000000000000000000000000000) := by decide
theorem test_dload_w128_spare : decAfter (exec (.dloadW128 0xC000808D0014237004A836E00080DB3F) st) =
    decAfter (exec (.dloadW128 0xC000808D0014237004A836E00080DB00) st) := by decide
theorem test_dload_answer : answer (exec (.dloadW32 0xC0008002) st) = some ⟨.ok, 0x1C, 0⟩ := by decide
/-- R135's worked example: 'O' out of "OK" at 16 bits. -/
theorem test_dnext :
    answer (exec .dnext (st EncRegs.reset (decIn 1 0 false (0x655 <<< 116)))) = some ⟨.ok, 0x4F, 0⟩ ∧
    decAfter (exec .dnext (st EncRegs.reset (decIn 1 0 false (0x655 <<< 116)))) =
      some (decIn 1 0 false 0x54000000000000000000000000000000) := by decide +kernel
/-- Unit 0x7FFF is above the block and goes out unchecked. -/
theorem test_dnext_unchecked :
    answer (exec .dnext (st EncRegs.reset (decIn 2 12 true (0x3FFFFFFF <<< 98)))) = some ⟨.ok, 0xCDFE, 0⟩ := by
  decide

/-! ### Edges -/

/-- A reserved ESTART answers BAD_CMD and the error stays latched. -/
theorem test_step_badCommand :
    answer (step (st (encErr .tooLong) DecRegs.reset [Edge.present ⟨0x15, 0⟩])) = some ⟨.badCmd, 0, 0⟩ ∧
    encAfter (step (st (encErr .tooLong) DecRegs.reset [Edge.present ⟨0x15, 0⟩])) = some (encErr .tooLong) := by
  decide
/-- A command on an edge with `rst` = 1 is ignored. -/
theorem test_step_reset_wins :
    answer (step (st (encErr .tooLong) DecRegs.reset [{ Edge.present ⟨0x90, 0⟩ with rst := true }])) = none ∧
    encAfter (step (st (encErr .tooLong) DecRegs.reset [{ Edge.present ⟨0x90, 0⟩ with rst := true }])) =
      some EncRegs.reset := by decide +kernel
/-- The first command after reset: R186's EPUSH at 8 bits, on a state that differs from reset in its parameters. -/
theorem test_fetchWord : encAfter (step (st.withFetchWord 136 0x3B1_20)) = some (encIn 0 .ord 4 0x41 0) := by
  decide +kernel
/-- The three output signals of a response, and `rsp_valid` = 0 where there is none. -/
theorem test_signals :
    step (st.withFetchWord 8 0x93) = .next { st with rsp := some ⟨.ok, 0x040A04, 0⟩ } ∧
    ({ st with rsp := some ⟨.badCmd, 0, 0⟩ } : State).rspStatus = some 7 ∧
    ({ st with rsp := some ⟨.badCmd, 0, 0⟩ } : State).rspValid = 1 ∧ st.rspValid = 0 := ⟨rfl, rfl, rfl, rfl⟩

/-! ### Witnesses: for each statement with hypotheses, a case that meets them, at the ends of its ranges -/

theorem witness_ReservedByteAnswersBadCmd :
    (∀ b ∈ [(0xA0 : Byte), 0xFF, 0x15, 0x4F, 0x95], (st (inputs := [Edge.present ⟨b, 1⟩])).edge = Edge.present ⟨b, 1⟩ ∧
      (0xA ≤ (Command.op ⟨b, 1⟩).toNat ∨
        ((Command.op ⟨b, 1⟩ = 0x1 ∨ Command.op ⟨b, 1⟩ = 0x4 ∨ Command.op ⟨b, 1⟩ = 0x9) ∧
          5 ≤ (Command.w ⟨b, 1⟩).toNat))) ∧
    (∀ b ∈ [(0x00 : Byte), 0x80], Command.op ⟨b, 1⟩ = Command.op ⟨b ||| 0xF, 1⟩ ∧
      (Command.op ⟨b, 1⟩).toNat ≤ 9 ∧ Command.op ⟨b, 1⟩ ≠ 0x1 ∧ Command.op ⟨b, 1⟩ ≠ 0x4 ∧
      Command.op ⟨b, 1⟩ ≠ 0x9) := by decide
theorem witness_DecodeReadsNamedBits :
    (∀ o ∈ List.range 10, (Command.op ⟨BitVec.ofNat 8 (16 * o), 1⟩).toNat = o) ∧
    (∀ o ∈ [1, 4, 9], ∀ w ∈ List.range 5, (Command.op ⟨BitVec.ofNat 8 (16 * o + w), 1⟩).toNat = o ∧
      (Command.w ⟨BitVec.ofNat 8 (16 * o + w), 1⟩).toNat = w) := by decide
theorem witness_DecodedByteMatchesOneRow : decode ⟨0x2F, 0x4F⟩ = .ok (.epush 0x4F) := by decide
theorem witness_StepRunsDecodedCommand :
    (st (inputs := [Edge.present ⟨0x20, 0x4F⟩])).edge = Edge.present ⟨0x20, 0x4F⟩ ∧
      decode ⟨0x20, 0x4F⟩ = .ok (.epush 0x4F) := by decide
theorem witness_ResetPutsEveryRegisterToZero : (st (encErr .tooLong) DecRegs.reset [Edge.resetting]).edge.rst = true := by
  decide
theorem witness_IdleEdgeKeepsRegisters :
    (st (encErr .tooLong)).edge.rst = false ∧ (st (encErr .tooLong)).edge.cmdValid = false := by decide
theorem witness_NoStepWritesParams :
    ∃ t, step (st (inputs := [Edge.present ⟨0x11, 0⟩])) = .next t := ⟨_, rfl⟩
theorem witness_SpacingDoesNotMatter :
    ([none, some Instr.nop] : List (Option Instr)).getLast?.join.isSome = true := by decide
theorem witness_NopAnswersOk : Command.op ⟨0x0F, 123⟩ = 0x0 := by decide
theorem witness_EncoderAndDecoderAreDisjoint :
    (st (encErr .tooLong)).params = st.params ∧
    ((Instr.epush 0x4F).isEncoder = true ∧ ∃ t t', exec (.epush 0x4F) (st (encErr .tooLong)) = .next t ∧
      exec (.epush 0x4F) (st (encErr .tooLong) (decIn 1 0 false 5)) = .next t') ∧
    (Instr.dnext.isDecoder = true ∧ ∃ t t', exec .dnext st = .next t ∧ exec .dnext (st (encErr .tooLong)) = .next t') ∧
    (Instr.descW8.isEncoder = false ∧ Instr.descW8.isDecoder = false ∧
      ∃ t t', exec .descW8 st = .next t ∧ exec .descW8 (st (encErr .tooLong)) = .next t') ∧
    (Instr.estartW8.isEstart = true ∧
      ∃ t t', exec .estartW8 st = .next t ∧ exec .estartW8 (st (encErr .tooLong)) = .next t') ∧
    (Instr.dloadW8 1 = Instr.ofDload .w8 1 ∧
      ∃ t t', exec (.dloadW8 1) st = .next t ∧ exec (.dloadW8 1) (st (encErr .tooLong)) = .next t') :=
  ⟨rfl, ⟨rfl, _, _, rfl, rfl⟩, ⟨rfl, _, _, rfl, rfl⟩, ⟨rfl, rfl, _, _, rfl, rfl⟩, ⟨rfl, _, _, rfl, rfl⟩,
    ⟨rfl, _, _, rfl, rfl⟩⟩

theorem witness_CodeOfIsLeastMatch : romT.Valid ∧ (0x5F : Scalar) ≠ romT.sentinel ∧ romT.entry 0 37 = 0x5F ∧
    romT.entry 0 1 = 0x30 ∧ (0x30 : Scalar) ≠ romT.sentinel := ⟨romT_valid, by decide +kernel⟩
theorem witness_PageOfIsLowestPage : romT.Valid ∧ codeOf romT 4 0x3C9 ≠ none ∧ codeOf romT 0 0x30 ≠ none :=
  ⟨romT_valid, by decide +kernel⟩
theorem witness_PageofAnswersAddress :
    (codeOf romT 0 0x30 = some 1 ∧ ∀ q : Page, q < 0 → codeOf romT q 0x30 = none) ∧
    (codeOf romT 4 0x3C9 = some 25 ∧ ∀ q : Page, q < 4 → codeOf romT q 0x3C9 = none) ∧
    ∀ p : Page, codeOf romT p 0xA9 = none :=
  ⟨⟨by decide +kernel, fun q h => romT_codeOf_none (by decide) (by revert q; decide)⟩,
    ⟨by decide +kernel, fun q h => romT_codeOf_none (by decide) (by revert q; decide)⟩,
    fun p => romT_codeOf_none (by decide) (by revert p; decide)⟩
theorem witness_CodeofAnswersCode :
    ((0x7A : Scalar) ≠ romT.sentinel ∧ (0x7A : Scalar) ≠ romT.termChar ∧ romT.entry 1 26 = 0x7A ∧
      ∀ j : Code, 1 ≤ j.toNat → j < 26 → romT.entry 1 j ≠ 0x7A) ∧
    ((0x61 : Scalar) ≠ romT.sentinel ∧ (0x61 : Scalar) ≠ romT.termChar ∧ romT.entry 1 1 = 0x61 ∧
      ∀ j : Code, 1 ≤ j.toNat → j < 1 → romT.entry 1 j ≠ 0x61) ∧
    ((0xFFFF : Scalar) = romT.sentinel ∧ (0 : Scalar) = romT.termChar ∧
      ∀ k : Code, 1 ≤ k.toNat → romT.entry 0 k ≠ 0x3B1) := by decide +kernel
theorem witness_CharofInvertsPageof :
    ∃ t, exec (.pageof 0x4F) st = .next t ∧ t.rsp = some ⟨.ok, 0x019, 0⟩ := ⟨_, rfl, by decide +kernel⟩
theorem witness_FoundNowhere : romT.Valid ∧ (0 : Scalar) = romT.termChar ∧ (0xFFFF : Scalar) = romT.sentinel ∧
    ¬ IsScalarValue 0xD800 ∧ ¬ IsScalarValue 0xDFFF ∧ ¬ IsScalarValue 0x110000 ∧ ¬ IsScalarValue 0x1FFFFF ∧
    ∀ (p : Page) (k : Code), k ≠ 0 → romT.entry p k ≠ 0xA9 :=
  ⟨romT_valid, by decide, by decide, by decide, by decide, by decide, by decide, fun p k hk he =>
    absurd (he ▸ romT_ranges p k hk (by rw [he]; decide)) (by clear he; revert p; decide)⟩
theorem witness_LookupsAgreeOnValidPages : romT.Valid ∧ romT.ValidPage 0 ∧ codeOf romT 0 0x30 = some 1 ∧
    codeOf romT 0 0x5F = some 37 ∧ (0x30 : Scalar) < 0x5F ∧ romT.count 0 = 37 :=
  ⟨romT_valid, romT_validPage_0, by decide +kernel⟩
theorem witness_SpecialUnitsInvert : romT.Valid ∧ romT.InSpecial 0x4E00 ∧ romT.InSpecial 0x9FFF ∧
    ¬ romT.InSpecial 0x4DFF ∧ ¬ romT.InSpecial 0xA000 ∧ 1 ≤ (1 : SpcUnit).toNat ∧ 1 ≤ (0x7FFF : SpcUnit).toNat ∧
    romT.lowBound.toNat ≤ 0x10FFFF := ⟨romT_valid, by decide⟩

theorem witness_EpushRepeatsLatchedError : (st (encErr (.noCodePage 0xA9))).enc.mode = .err := by decide
theorem witness_EpushFirstSpecial : ∀ w ∈ [(2 : WidthCode), 3, 4], (st (encIn w .empty 0 0 0)).enc.mode = .empty ∧
    w.toNat ≤ 4 ∧ romT.InSpecial 0x4E00 ∧ romT.InSpecial 0x9FFF ∧ 0 < specialSlots (widthBits w) := by decide
theorem witness_EpushFirstOrdinary : ∀ w ∈ [(0 : WidthCode), 1, 4], (st (encIn w .empty 0 0 0)).enc.mode = .empty ∧
    w.toNat ≤ 4 ∧ ¬ (romT.InSpecial 0x3B1 ∧ 0 < specialSlots (widthBits w)) ∧
    pageOf romT 0x3B1 = some (4, 1) ∧ (tagBits (widthBits w) = 2 → Primary 4) := by decide +kernel
theorem witness_EpushFirstFails : ∀ w ∈ [(0 : WidthCode), 4], (st (encIn w .empty 0 0 0)).enc.mode = .empty ∧
    ¬ (romT.InSpecial 0xFFFF ∧ 0 < specialSlots (widthBits w)) ∧ pageOf romT 0xFFFF = none ∧
    ¬ (romT.InSpecial 0x61 ∧ 0 < specialSlots (widthBits w)) ∧ pageOf romT 0x61 = some (1, 1) ∧
    tagBits (widthBits w) = 2 ∧ ¬ Primary 1 := by decide +kernel
theorem witness_EpushLaterOrdinary :
    (st (encIn 1 .ord 0 0x19 1)).enc.mode = .ord ∧ codeOf romT 0 0x61 = none ∧ codeOf romT 0 0x4B = some 21 ∧
    0 < (encIn 1 .ord 0 0x19 1).rem.toNat ∧ 0 < (encIn 4 .ord 0 0x19 20).rem.toNat ∧
    (encIn 1 .ord 0 0x655 0).rem.toNat = 0 := by decide +kernel
theorem witness_EpushLaterSpecial :
    (st (encIn 2 .spc 12 0x18001 1)).enc.mode = .spc ∧ ¬ romT.InSpecial 0x3B1 ∧ romT.InSpecial 0x4E01 ∧
    0 < (encIn 2 .spc 12 0x18001 1).rem.toNat ∧ (encIn 2 .spc 12 0xC0008002 0).rem.toNat = 0 := by decide
theorem witness_ErrorsAreRaisedExactlyWhen :
    (∃ t, exec (.epush 0xFFFF) (st (encIn 0 .empty 0 0 0)) = .next t ∧ t.enc.mode = .err ∧
      t.enc.err = (EncError.noCodePage 0xFFFF).status ∧ t.enc.info = (EncError.noCodePage 0xFFFF).info) ∧
    (∃ t, exec (.epush 0x61) (st (encIn 4 .empty 0 0 0)) = .next t ∧ t.enc.mode = .err ∧
      t.enc.err = (EncError.pageUnavailable 1).status ∧ t.enc.info = (EncError.pageUnavailable 1).info) ∧
    (∃ t, exec (.epush 0x61) (st (encIn 1 .ord 0 0x655 0)) = .next t ∧ t.enc.mode = .err ∧
      t.enc.err = (EncError.missingFromPage 0x61).status ∧ t.enc.info = (EncError.missingFromPage 0x61).info) ∧
    (∃ t, exec (.epush 0x4B) (st (encIn 1 .ord 0 0x655 0)) = .next t ∧ t.enc.mode = .err ∧
      t.enc.err = EncError.tooLong.status ∧ t.enc.info = EncError.tooLong.info) :=
  ⟨⟨_, rfl, by decide +kernel⟩, ⟨_, rfl, by decide +kernel⟩, ⟨_, rfl, by decide +kernel⟩, ⟨_, rfl, by decide +kernel⟩⟩
theorem witness_LatchedErrorIsSticky :
    (st (encErr .tooLong)).enc.mode = .err ∧ Instr.eread.isEstart = false ∧ (Instr.epush 0x4F).isEstart = false ∧
      (Instr.dnext).isEstart = false := by decide
theorem witness_OnlyEstartOrResetClearsError :
    (st (encErr .tooLong)).enc.mode = .err ∧
    (∃ t, step (st (encErr .tooLong)) = .next t ∧ t.enc.mode = .err) ∧
    (∃ t, step (st (encErr .tooLong) DecRegs.reset [Edge.present ⟨0x14, 0⟩]) = .next t ∧ t.enc.mode ≠ .err) ∧
    (∃ t, step (st (encErr .tooLong) DecRegs.reset [Edge.present ⟨0x15, 0⟩]) = .next t ∧ t.enc.mode = .err) ∧
    (∃ t, step (st (encErr .tooLong) DecRegs.reset [Edge.resetting]) = .next t ∧ t.enc.mode ≠ .err) :=
  ⟨rfl, ⟨_, rfl, by decide⟩, ⟨_, rfl, by decide⟩, ⟨_, rfl, by decide⟩, ⟨_, rfl, by decide⟩⟩
theorem witness_EreadAnswersPaddedValue :
    (encErr .tooLong).mode = .err ∧ EncRegs.reset.mode = .empty ∧ (encIn 4 .ord 0 0x19 20).mode = .ord ∧
    (encIn 4 .spc 12 0x1802E 7).mode = .spc ∧ (encIn 4 .spc 12 0x1802E 7).w.toNat ≤ 4 ∧
    0 < specialSlots (widthBits (encIn 4 .spc 12 0x1802E 7).w) ∧
    EncRegs.reset.w.toNat ≤ 4 := by decide
/-- Units [25, 21] on page 0 at 16 bits, and unit [0x2E] of the block at 128 bits. -/
theorem witness_EreadClosedForm :
    ((encIn 1 .ord 0 0x655 0).w.toNat ≤ 4 ∧ (encIn 1 .ord 0 0x655 0).mode = .ord ∧ 2 = charSlots (widthBits 1) ∧
      (encIn 1 .ord 0 0x655 0).rem.toNat + [25, 21].length = 2 ∧ (∀ u ∈ [25, 21], u < 2 ^ 6) ∧
      (encIn 1 .ord 0 0x655 0).acc.toNat = accValue 6 (storedTag (tagBits (widthBits 1)) 0).toNat [25, 21]) ∧
    ((encIn 4 .spc 12 0x1802E 7).mode = .spc ∧ 8 = specialSlots (widthBits 4) ∧ 0 < 8 ∧
      (encIn 4 .spc 12 0x1802E 7).rem.toNat + [0x2E].length = 8 ∧ (∀ u ∈ [0x2E], u < 2 ^ 15) ∧
      (encIn 4 .spc 12 0x1802E 7).acc.toNat = accValue 15 (storedTag (tagBits (widthBits 4)) 12).toNat [0x2E]) := by
  decide

/-- A state in the middle of both transactions, with the invariant: 'O' fed at 16 bits, and U+4E00 U+4E01 loaded at 32
bits. -/
theorem witness_StepKeepsInvariant :
    (st (encIn 1 .ord 0 0x19 1) (decIn 2 12 true 0x00020008000000000000000000000000) [Edge.present ⟨0x20, 0x4B⟩]).Inv ∧
    ∃ t, step (st (encIn 1 .ord 0 0x19 1) (decIn 2 12 true 0x00020008000000000000000000000000)
      [Edge.present ⟨0x20, 0x4B⟩]) = .next t := by
  refine ⟨⟨⟨by decide, by decide, ?_, fun _ => ⟨by decide, by decide, [25], by decide, ?_, by decide⟩, ?_,
    fun _ => ⟨rfl, rfl⟩, ?_⟩, ⟨by decide, fun _ => by decide, by decide, by decide⟩, fun r h => by cases h⟩, _, rfl⟩
  · exact fun h => by cases h
  · intro u hu
    rw [List.mem_singleton] at hu
    exact ⟨0x4F, 25, by decide +kernel, hu⟩
  · exact fun h => by cases h
  · exact fun h => by cases h

theorem witness_DloadLoadsRegisters :
    (32 = widthBits (widthCode .w32) ∧ 2 = tagBits 32 ∧
      0xC0008002 = (0x1_C0008002 : Bus).toNat % 2 ^ 32 ∧ 0x8002 = 0xC0008002 % 2 ^ (32 - 2) ∧
      (12 : Page) = BitVec.ofNat 4 (if 2 = 4 then 0xC0008002 / 2 ^ (32 - 2) else 4 * (0xC0008002 / 2 ^ (32 - 2))) ∧
      true = decide ((12 : Page) = romT.specialTag ∧ 0 < specialSlots 32)) ∧
    (16 = widthBits (widthCode .w16) ∧ 4 = tagBits 16 ∧
      0xC041 = (0xC041 : Bus).toNat % 2 ^ 16 ∧ 0x041 = 0xC041 % 2 ^ (16 - 4) ∧
      (12 : Page) = BitVec.ofNat 4 (if 4 = 4 then 0xC041 / 2 ^ (16 - 4) else 4 * (0xC041 / 2 ^ (16 - 4))) ∧
      false = decide ((12 : Page) = romT.specialTag ∧ 0 < specialSlots 16)) := by decide
theorem witness_SpareBitsAreIgnored :
    (0xC000808D0014237004A836E00080DB00 : Bus).toNat / 2 ^ 6 = (0xC000808D0014237004A836E00080DB3F : Bus).toNat / 2 ^ 6 ∧
    ∃ t, exec (.dloadW128 0xC000808D0014237004A836E00080DB00) st = .next t ∧ t.dec.spc = true :=
  ⟨by decide, _, rfl, by decide⟩
theorem witness_DnextEmitsNextUnit :
    ((decIn 2 12 true 0).spc = true ∧ (decIn 2 12 true (1 <<< 98)).acc.toNat / 2 ^ 113 = 0) ∧
    (0x7FFF = (decIn 2 12 true (0x7FFF <<< 113)).acc.toNat / 2 ^ 113 ∧
      1 = (decIn 2 12 true (1 <<< 113)).acc.toNat / 2 ^ 113) ∧
    ((decIn 1 0 false 0).spc = false ∧ (decIn 1 0 false (0x15 <<< 116)).acc.toNat / 2 ^ 122 = 0) ∧
    (63 = (decIn 1 0 false (63 <<< 122)).acc.toNat / 2 ^ 122 ∧ 1 = (decIn 1 0 false (1 <<< 122)).acc.toNat / 2 ^ 122) := by
  decide
theorem witness_EndIsForEver :
    ∃ t, exec .dnext (st EncRegs.reset (decIn 1 0 false (0x15 <<< 116))) = .next t ∧
      t.rsp = some ⟨.endOfSequence, 0, 0⟩ := ⟨_, rfl, by decide⟩
theorem witness_DecoderNeverFails : Instr.dnext.isDecoder = true ∧ (Instr.dloadW16 0x2655).isDecoder = true := by decide
theorem witness_DecodeIsFinite :
    (∃ t, exec (Instr.ofDload .w8 0x19) st = .next t ∧ t.dec.spc = false) ∧
    ∃ t, exec (Instr.ofDload .w32 0xC0008002) st = .next t ∧ t.dec.spc = true :=
  ⟨⟨_, rfl, by decide⟩, ⟨_, rfl, by decide⟩⟩

/-- At the boundary: "OK" and "OKO" at 16 bits, where there are two slots; two and three characters of the block at 32
bits, where there are two units. -/
theorem witness_CapacityBoundary :
    (romT.Valid ∧ 16 = widthBits (widthCode .w16) ∧ (tagBits 16 = 2 → Primary 0) ∧
      (∀ c ∈ ([0x4F, 0x4B, 0x4F] : List Scalar).take (charSlots 16 + 1), codeOf romT 0 c ≠ none) ∧
      ¬ (romT.InSpecial 0x4F ∧ 0 < specialSlots 16) ∧ charSlots 16 < ([0x4F, 0x4B, 0x4F] : List Scalar).length ∧
      ([0x4F, 0x4B] : List Scalar).length ≤ charSlots 16) ∧
    32 = widthBits (widthCode .w32) ∧ 0 < specialSlots 32 ∧
      (∀ c ∈ ([0x4E00, 0x4E01, 0x4E02] : List Scalar).take (specialSlots 32 + 1), romT.InSpecial c) ∧
      specialSlots 32 < ([0x4E00, 0x4E01, 0x4E02] : List Scalar).length ∧
      ([0x4E00, 0x4E01] : List Scalar).length ≤ specialSlots 32 := by
  refine ⟨⟨romT_valid, by decide, by decide, fun c hc => ?_, by decide, by decide, by decide⟩, by decide, by decide,
    fun c hc => ?_, by decide, by decide⟩
  · rcases List.mem_cons.1 (List.mem_of_mem_take hc) with rfl | h
    · decide +kernel
    · rcases List.mem_cons.1 h with rfl | h
      · decide +kernel
      · rw [List.mem_singleton.1 h]
        decide +kernel
  · rcases List.mem_cons.1 (List.mem_of_mem_take hc) with rfl | h
    · decide
    · rcases List.mem_cons.1 h with rfl | h
      · decide
      · rw [List.mem_singleton.1 h]
        decide
theorem witness_RoundTrip : romT.Valid ∧
    encodeResult .w16 [0x4F, 0x4B] st = some ⟨.ok, 0x0655, 0⟩ ∧
    encodeResult .w32 [0x4E00, 0x4E01] (st (encErr .tooLong)) = some ⟨.ok, 0xC0008002, 0⟩ ∧
    (∃ c, ([0x4E00, 0x4E01] : List Scalar).head? = some c ∧ romT.InSpecial c) ∧
    0 < specialSlots (widthBits (widthCode .w32)) :=
  ⟨romT_valid, by decide +kernel, by decide +kernel, ⟨0x4E00, by decide⟩, by decide⟩
theorem witness_EncodingIsInjective : romT.Valid ∧
    encodeResult .w16 [0x61] st = some ⟨.ok, 0x1040, 0⟩ ∧
    encodeResult .w16 [0x61] (st (encErr .tooLong)) = some ⟨.ok, 0x1040, 0⟩ ∧
    encodeResult .w16 [] st = some ⟨.ok, 0, 0⟩ := ⟨romT_valid, by decide +kernel⟩
/-- "A" and "AB" at 32 bits, on page 0; U+4E00 and U+9FFF, on page 12. -/
theorem witness_OrderWithinPage : romT.Valid ∧
    encodeResult .w32 [0x41] st = some ⟨.ok, 0x0B000000, 0⟩ ∧
    encodeResult .w32 [0x41, 0x42] st = some ⟨.ok, 0x0B300000, 0⟩ ∧
    chosenPage romT 32 [0x41] = some 0 ∧ chosenPage romT 32 [0x41, 0x42] = some 0 ∧
    encodeResult .w32 [0x4E00] st = some ⟨.ok, 0xC0008000, 0⟩ ∧
    encodeResult .w32 [0x9FFF] st = some ⟨.ok, 0xE9000000, 0⟩ ∧
    chosenPage romT 32 [0x4E00] = some 12 ∧ chosenPage romT 32 [0x9FFF] = some 12 := ⟨romT_valid, by decide +kernel⟩
/-- "ab" on page 1 before "αβ" on page 4 at 16 bits, and "A" on page 0 before U+4E00 as page 12 at 32 bits. -/
theorem witness_OrderAcrossPages : romT.Valid ∧ romT.V4WithBlock ∧
    encodeResult .w16 [0x61, 0x62] st = some ⟨.ok, 0x1042, 0⟩ ∧
    encodeResult .w16 [0x3B1, 0x3B2] st = some ⟨.ok, 0x4042, 0⟩ ∧
    chosenPage romT 16 [0x61, 0x62] = some 1 ∧ chosenPage romT 16 [0x3B1, 0x3B2] = some 4 ∧ (1 : Page) < 4 ∧
    encodeResult .w32 [0x41] st = some ⟨.ok, 0x0B000000, 0⟩ ∧
    encodeResult .w32 [0x4E00] st = some ⟨.ok, 0xC0008000, 0⟩ ∧
    chosenPage romT 32 [0x41] = some 0 ∧ chosenPage romT 32 [0x4E00] = some 12 ∧ (0 : Page) < 12 :=
  ⟨romT_valid, romT_v4WithBlock, by decide +kernel⟩
theorem witness_EmptyStringSortsFirst : romT.Valid ∧ ([0x30] : List Scalar) ≠ [] ∧
    encodeResult .w8 [0x30] st = some ⟨.ok, 0x01, 0⟩ := ⟨romT_valid, by decide +kernel⟩
/-- One value of each form at 32 bits: 0, "AB" in its ordinary form, U+4E00 U+4E01 in special form; and one that is of
no form, as its first unit is 0. -/
theorem witness_CanonicalValuesAreExactly : romT.Valid ∧
    (0 : Bus).toNat < 2 ^ widthBits (widthCode .w32) ∧ (0x0B300000 : Bus).toNat < 2 ^ widthBits (widthCode .w32) ∧
    (0xC0008002 : Bus).toNat < 2 ^ widthBits (widthCode .w32) ∧ (0xFFFFFFFF : Bus).toNat < 2 ^ widthBits (widthCode .w32) ∧
    Canonical .w32 0 st ∧ Canonical .w32 0x0B300000 st ∧ Canonical .w32 0xC0008002 st ∧
    strictlyValid .w32 0xC0000001 st = false :=
  ⟨romT_valid, by decide, by decide, by decide, by decide, ⟨[], by decide +kernel⟩, ⟨[0x41, 0x42], by decide +kernel⟩,
    ⟨[0x4E00, 0x4E01], by decide +kernel⟩, by decide +kernel⟩
/-- "OK" at 16 bits passes, with bits above the value on `arg`; a value of reserved page 2 does not. -/
theorem witness_StrictValidationByReencoding : romT.Valid ∧
    (0x0655 : Bus) = lowBits (widthBits (widthCode .w16)) 0x70655 ∧ strictlyValid .w16 0x70655 st = true ∧
    (0x2655 : Bus) = lowBits (widthBits (widthCode .w16)) 0x2655 ∧ strictlyValid .w16 0x2655 st = false :=
  ⟨romT_valid, by decide +kernel⟩
/-- Two sentinels out of reserved page 2 fail to encode; the empty sequence out of 0x0015 encodes to 0. -/
theorem witness_ReencodingFailsForReasons : romT.Valid ∧ 16 = widthBits (widthCode .w16) ∧
    (0x2655 : Bus) = lowBits 16 0x2655 ∧ reencode .w16 0x2655 st = some ⟨.noCodePage, 0, 0xFFFF⟩ ∧
    (0x0015 : Bus) = lowBits 16 0x0015 ∧ reencode .w16 0x0015 st = some ⟨.ok, 0, 0⟩ :=
  ⟨romT_valid, by decide +kernel⟩

end Slice0
end

section
/-! The edge at which a command runs (R8, R11). -/

namespace Sys2Proof.Machine

/-- The branch of the step that runs a command: at an edge whose sampled command decodes to `i`, the step is `i`
executed once that edge has passed. -/
theorem step_of_decode_ok {s : State} {c : Command} {i : Instr} (hrst : s.edge.rst = false)
    (hcommand : s.edge.command = some c) (hdecode : decode c = .ok i) : step s = exec i s.advance := by
  simp [step, hrst, hcommand, hdecode]

/-- Settles O8: a presented edge has `rst` 0 and samples the command itself, so the step takes its command branch. -/
theorem stepRunsDecodedCommand : Obligations.StepRunsDecodedCommand := by
  unfold Obligations.StepRunsDecodedCommand
  intro s c i hedge hdecode
  have hrst : s.edge.rst = false := by rw [hedge, present_rst]
  have hcommand : s.edge.command = some c := by rw [hedge, present_command]
  exact step_of_decode_ok hrst hcommand hdecode

end Sys2Proof.Machine
end

section
/-! The commands as R63 writes them: the widths of ESTART, DLOAD and DESC as an argument; and reading back an
encoded command. -/

namespace Sys2Proof

/-- Cases on an instruction by its command, with the five widths of ESTART, DLOAD and DESC taken together (R63). -/
theorem Instr.byCommand {motive : Instr → Prop} (nop : motive .nop) (estart : ∀ w, motive (.ofEstart w))
    (epush : ∀ c, motive (.epush c)) (eread : motive .eread) (dload : ∀ w arg, motive (.ofDload w arg))
    (dnext : motive .dnext) (pageof : ∀ c, motive (.pageof c)) (codeof : ∀ p c, motive (.codeof p c))
    (charof : ∀ p k, motive (.charof p k)) (desc : ∀ w, motive (.ofDesc w)) (i : Instr) : motive i := by
  cases i with
  | nop => exact nop
  | estartW8 => exact estart .w8
  | estartW16 => exact estart .w16
  | estartW32 => exact estart .w32
  | estartW64 => exact estart .w64
  | estartW128 => exact estart .w128
  | epush c => exact epush c
  | eread => exact eread
  | dloadW8 v => simpa [ofDload] using dload .w8 (v.setWidth 128)
  | dloadW16 v => simpa [ofDload] using dload .w16 (v.setWidth 128)
  | dloadW32 v => simpa [ofDload] using dload .w32 (v.setWidth 128)
  | dloadW64 v => simpa [ofDload] using dload .w64 (v.setWidth 128)
  | dloadW128 v => exact dload .w128 v
  | dnext => exact dnext
  | pageof c => exact pageof c
  | codeof p c => exact codeof p c
  | charof p k => exact charof p k
  | descW8 => exact desc .w8
  | descW16 => exact desc .w16
  | descW32 => exact desc .w32
  | descW64 => exact desc .w64
  | descW128 => exact desc .w128

variable (w : Width) (arg : Bus)

@[simp] theorem isEncoder_ofEstart : (Instr.ofEstart w).isEncoder = true := by cases w <;> rfl
@[simp] theorem isEncoder_ofDload : (Instr.ofDload w arg).isEncoder = false := by cases w <;> rfl
@[simp] theorem isEncoder_ofDesc : (Instr.ofDesc w).isEncoder = false := by cases w <;> rfl
@[simp] theorem isDecoder_ofEstart : (Instr.ofEstart w).isDecoder = false := by cases w <;> rfl
@[simp] theorem isDecoder_ofDload : (Instr.ofDload w arg).isDecoder = true := by cases w <;> rfl
@[simp] theorem isDecoder_ofDesc : (Instr.ofDesc w).isDecoder = false := by cases w <;> rfl

theorem isEstart_iff {i : Instr} : i.isEstart = true ↔ ∃ w, i = .ofEstart w := by
  constructor
  · intro h
    cases i with
    | estartW8 => exact ⟨.w8, rfl⟩
    | estartW16 => exact ⟨.w16, rfl⟩
    | estartW32 => exact ⟨.w32, rfl⟩
    | estartW64 => exact ⟨.w64, rfl⟩
    | estartW128 => exact ⟨.w128, rfl⟩
    | _ => cases h
  · rintro ⟨w, rfl⟩
    cases w <;> rfl

/-! ### The operand fields of an encoded command (R58) -/

theorem argScalar_setWidth (c : Scalar) : argScalar (c.setWidth 128) = c :=
  BitVec.eq_of_toNat_eq (by
    have := c.isLt
    rw [Machine.argScalar_toNat, BitVec.toNat_setWidth]
    omega)

theorem argScalar_append (p : Page) (c : Scalar) : argScalar ((p ++ (0 : BitVec 3) ++ c).setWidth 128) = c :=
  BitVec.eq_of_toNat_eq (by
    have := c.isLt
    rw [Machine.argScalar_toNat, Machine.setWidth_append_toNat _ _ (by decide)]
    omega)

theorem argCodeofPage_append (p : Page) (c : Scalar) :
    argCodeofPage ((p ++ (0 : BitVec 3) ++ c).setWidth 128) = p :=
  BitVec.eq_of_toNat_eq (by
    have := c.isLt
    have := p.isLt
    rw [Machine.argCodeofPage_toNat, Machine.setWidth_append_toNat _ _ (by decide), Machine.append_toNat,
      show (0 : BitVec 3).toNat = 0 from rfl]
    omega)

theorem argCharofPage_append (p : Page) (k : Code) : argCharofPage ((p ++ k).setWidth 128) = p :=
  BitVec.eq_of_toNat_eq (by
    have := k.isLt
    have := p.isLt
    rw [Machine.argCharofPage_toNat, Machine.setWidth_append_toNat _ _ (by decide)]
    omega)

theorem argCode_append (p : Page) (k : Code) : argCode ((p ++ k).setWidth 128) = k :=
  BitVec.eq_of_toNat_eq (by
    have := k.isLt
    rw [Machine.argCode_toNat, Machine.setWidth_append_toNat _ _ (by decide)]
    omega)

/-- The command of an instruction decodes to it: the command byte by computation, the operands field by field. -/
theorem decode_encode (i : Instr) : decode (encode i) = .ok i := by
  cases i with
  | epush c | pageof c => simp [encode, decode, Command.op, argScalar_setWidth]
  | codeof p c =>
    simp only [encode, decode, Command.op, argCodeofPage_append, argScalar_append]
    rfl
  | charof p k => simp [encode, decode, Command.op, argCharofPage_append, argCode_append]
  | dloadW8 v | dloadW16 v | dloadW32 v | dloadW64 v | dloadW128 v =>
    simp [encode, decode, Command.op, Command.w, decodeWidth, Instr.ofDload]
  | _ => rfl

end Sys2Proof

namespace Sys2Proof.Machine

/-- DESC at any width. -/
theorem exec_ofDesc (w : Width) (s : State) : exec (.ofDesc w) s = .next (describe (widthCode w) s) := by
  cases w <;> rfl

end Sys2Proof.Machine
end

section
/-! The invariant of the registers: reset meets it and every step keeps it (R12 to R20, R60, R121, R132, R133). -/

namespace Sys2Proof.Machine

/-! ### The accumulator of a transaction -/

/-- The accumulator is the stored tag and a unit for each slot that `E.REM` no longer counts as free (R15, R16). As
`EncRegs.Holds`, but it holds of the registers a choice of page leaves too, where no slot is used yet. -/
def EncRegs.HoldsUnits (e : EncRegs) (unitBits slots : Nat) (isUnit : Nat → Prop) : Prop :=
  ∃ units : List Nat, units.length + e.rem.toNat = slots ∧ (∀ u ∈ units, isUnit u) ∧
    e.acc.toNat = accValue unitBits (storedTag (tagBits (widthBits e.w)) e.page).toNat units

variable {P : Params} {e e' : EncRegs} {b slots : Nat} {isUnit : Nat → Prop}

theorem holds_iff : e.Holds b slots isUnit ↔ e.rem.toNat < slots ∧ e.HoldsUnits b slots isUnit := by
  refine and_congr_right fun h => exists_congr fun units => and_congr_left fun _ => ?_
  omega

/-- Tag and units together fit below bit N, so the accumulator never has a one above bit N-1 (R121). -/
theorem EncRegs.HoldsUnits.acc_lt (hw : e.w.toNat ≤ 4) (hb : b * slots ≤ codingBits (widthBits e.w))
    (hlt : ∀ u, isUnit u → u < 2 ^ b) (h : e.HoldsUnits b slots isUnit) : e.acc.toNat < 2 ^ widthBits e.w := by
  obtain ⟨units, hlen, hunits, hacc⟩ := h
  have hn := widthFacts hw
  have hsplit := hn.split
  have hmul : b * units.length ≤ b * slots := Nat.mul_le_mul_left _ (by omega)
  rw [hacc]
  calc accValue b (storedTag (tagBits (widthBits e.w)) e.page).toNat units
      < 2 ^ (tagBits (widthBits e.w) + b * units.length) :=
        accValue_lt b _ units _ (storedTag_lt hn e.page) fun u hu => hlt u (hunits u hu)
    _ ≤ 2 ^ widthBits e.w := Nat.pow_le_pow_right (by decide) (by omega)

/-- What an accepted unit leaves. -/
theorem acceptUnit_eq_ok {u : Bus} (hu : u.toNat < 2 ^ b) (hb : b ≤ 128) (h : acceptUnit b u e = .ok e') :
    0 < e.rem.toNat ∧ e' = { e with
      acc := BitVec.ofNat 128 (e.acc.toNat * 2 ^ b + u.toNat), rem := BitVec.ofNat 5 (e.rem.toNat - 1) } := by
  rcases Nat.eq_zero_or_pos e.rem.toNat with hrem | hrem
  · rw [acceptUnit_of_zero hrem] at h
    cases h
  · rw [acceptUnit_of_pos hrem hu hb] at h
    cases h
    exact ⟨hrem, rfl⟩

/-- An accepted unit is one more of the units held, and uses up one slot. -/
theorem acceptUnit_holds {u : Bus} (hw : e.w.toNat ≤ 4) (hfit : b * slots ≤ codingBits (widthBits e.w))
    (hlt : ∀ u, isUnit u → u < 2 ^ b) (hb : b ≤ 128) (hu : isUnit u.toNat) (he : e.HoldsUnits b slots isUnit)
    (h : acceptUnit b u e = .ok e') : e'.Holds b slots isUnit := by
  obtain ⟨hpos, rfl⟩ := acceptUnit_eq_ok (hlt _ hu) hb h
  obtain ⟨units, hlen, hunits, hacc⟩ := he
  have hn := widthFacts hw
  have hunits' : ∀ v ∈ units ++ [u.toNat], isUnit v := by simpa [or_imp, forall_and, hu] using hunits
  have hbound := accValue_lt b _ _ _ (storedTag_lt hn e.page) fun v hv => hlt v (hunits' v hv)
  have hmul : b * (units ++ [u.toNat]).length ≤ b * slots := Nat.mul_le_mul_left _ (by simp; omega)
  have hpow : 2 ^ (tagBits (widthBits e.w) + b * (units ++ [u.toNat]).length) ≤ 2 ^ 128 :=
    Nat.pow_le_pow_right (by decide) (by have := hn.split; have := hn.le; omega)
  have hrem : (BitVec.ofNat 5 (e.rem.toNat - 1)).toNat = e.rem.toNat - 1 := by
    have := e.rem.isLt
    rw [BitVec.toNat_ofNat]
    omega
  refine holds_iff.2 ⟨by simp only [hrem]; omega, units ++ [u.toNat], by simp [hrem]; omega, hunits', ?_⟩
  rw [accValue_append] at hbound ⊢
  rw [hacc, bus_ofNat_toNat (by omega)]

/-! ### The encoder registers -/

/-- A unit of an ordinary transaction: the code of a character of the page. -/
def IsOrdUnit (P : Params) (p : Page) (u : Nat) : Prop := ∃ c k, codeOf P p c = some k ∧ u = k.toNat

/-- A unit of a special transaction: the unit of a character of the block. -/
def IsSpcUnit (P : Params) (u : Nat) : Prop := ∃ c k, spcUnit P c = some k ∧ u = k.toNat

theorem isOrdUnit_lt {p : Page} (u : Nat) (h : IsOrdUnit P p u) : u < 2 ^ 6 := by
  obtain ⟨c, k, -, rfl⟩ := h
  exact k.isLt

theorem isSpcUnit_lt (u : Nat) (h : IsSpcUnit P u) : u < 2 ^ 15 := by
  obtain ⟨c, k, -, rfl⟩ := h
  exact k.isLt

theorem ordFits (hw : e.w.toNat ≤ 4) : 6 * charSlots (widthBits e.w) ≤ codingBits (widthBits e.w) :=
  (widthFacts hw).ord.ge

theorem spcFits (hw : e.w.toNat ≤ 4) : 15 * specialSlots (widthBits e.w) ≤ codingBits (widthBits e.w) := by
  have := (widthFacts hw).spc
  omega

/-- A page has been chosen: what a character finds once `E.MODE` is ORD or SPC, be it the first character of its
transaction or a later one. -/
structure EncRegs.PageChosen (P : Params) (e : EncRegs) : Prop where
  width   : e.w.toNat ≤ 4
  noError : e.err = .ok ∧ e.info = 0
  mode    : (e.mode = .ord ∧ (tagBits (widthBits e.w) = 2 → Primary e.page) ∧
      e.HoldsUnits 6 (charSlots (widthBits e.w)) (IsOrdUnit P e.page)) ∨
    (e.mode = .spc ∧ e.page = P.specialTag ∧ e.HoldsUnits 15 (specialSlots (widthBits e.w)) (IsSpcUnit P))

theorem encInv_of_ord (hw : e.w.toNat ≤ 4) (herr : e.err = .ok ∧ e.info = 0) (hm : e.mode = .ord)
    (hp : tagBits (widthBits e.w) = 2 → Primary e.page)
    (h : e.Holds 6 (charSlots (widthBits e.w)) (IsOrdUnit P e.page)) : e.Inv P where
  width := hw
  accBelow := (holds_iff.1 h).2.acc_lt hw (ordFits hw) isOrdUnit_lt
  emptyMode := by simp [hm]
  ordMode _ := ⟨hp, h⟩
  spcMode := by simp [hm]
  noError _ := herr
  latched := by simp [hm]

theorem encInv_of_spc (hw : e.w.toNat ≤ 4) (herr : e.err = .ok ∧ e.info = 0) (hm : e.mode = .spc)
    (hp : e.page = P.specialTag) (h : e.Holds 15 (specialSlots (widthBits e.w)) (IsSpcUnit P)) : e.Inv P where
  width := hw
  accBelow := (holds_iff.1 h).2.acc_lt hw (spcFits hw) isSpcUnit_lt
  emptyMode := by simp [hm]
  ordMode := by simp [hm]
  spcMode _ := ⟨hp, h⟩
  noError _ := herr
  latched := by simp [hm]

/-- ESTART leaves registers that meet the invariant (R106). -/
theorem encInv_start {w : WidthCode} (hw : w.toNat ≤ 4) : (EncRegs.start w).Inv P where
  width := hw
  accBelow := Nat.two_pow_pos _
  emptyMode _ := ⟨rfl, rfl, rfl⟩
  ordMode h := by cases h
  spcMode h := by cases h
  noError _ := ⟨rfl, rfl⟩
  latched h := by cases h

/-- An error keeps the accumulator within the width and latches itself (R120). -/
theorem encInv_latch (h : e.Inv P) (x : EncError) : (e.latch x).Inv P where
  width := h.width
  accBelow := h.accBelow
  emptyMode h := by cases h
  ordMode h := by cases h
  spcMode h := by cases h
  noError h := absurd rfl h
  latched _ := ⟨x, rfl, rfl⟩

/-- All a successful choice of page can do: the special block, or the table page of the character, primary where the
tag is narrow (R110 to R112). -/
theorem choosePage_eq_ok {c : Scalar} (h : choosePage P c e = .ok e') :
    (P.InSpecial c ∧ 0 < specialSlots (widthBits e.w) ∧ e' = { e with
      mode := .spc, page := P.specialTag, acc := widenIndex (storedTag (tagBits (widthBits e.w)) P.specialTag),
      rem := BitVec.ofNat 5 (specialSlots (widthBits e.w)) }) ∨
    (∃ p k, pageOf P c = some (p, k) ∧ (tagBits (widthBits e.w) = 2 → Primary p) ∧ e' = { e with
      mode := .ord, page := p, acc := widenIndex (storedTag (tagBits (widthBits e.w)) p),
      rem := BitVec.ofNat 5 (charSlots (widthBits e.w)) }) := by
  simp only [choosePage] at h
  split at h
  case isTrue hspc =>
    cases h
    obtain ⟨hblock, hslots⟩ := hspc
    exact .inl ⟨hblock, hslots, rfl⟩
  case isFalse =>
    split at h
    case h_1 => cases h
    case h_2 p k hpage =>
      split at h
      case isTrue => cases h
      case isFalse hprimary =>
        cases h
        exact .inr ⟨p, k, hpage, fun ht => not_not.1 fun hp => hprimary ⟨ht, hp⟩, rfl⟩

/-- Right after the choice of page the accumulator holds the tag alone, and every slot is free. -/
theorem holdsUnits_nil (hacc : e.acc = widenIndex (storedTag (tagBits (widthBits e.w)) e.page))
    (hrem : e.rem = BitVec.ofNat 5 slots) (hs : slots ≤ 21) : e.HoldsUnits b slots isUnit := by
  refine ⟨[], ?_, by simp, ?_⟩
  · rw [hrem, BitVec.toNat_ofNat, Nat.mod_eq_of_lt (by omega), List.length_nil, Nat.zero_add]
  · rw [hacc, widenIndex_toNat _ (by decide)]
    rfl

theorem choosePage_pageChosen {c : Scalar} (hw : e.w.toNat ≤ 4) (herr : e.err = .ok ∧ e.info = 0)
    (h : choosePage P c e = .ok e') : e'.PageChosen P := by
  have hord := (widthFacts hw).ordLe
  have hspc := (widthFacts hw).spcLe.trans hord
  rcases choosePage_eq_ok h with ⟨-, -, rfl⟩ | ⟨p, k, -, hp, rfl⟩
  · exact ⟨hw, herr, .inr ⟨rfl, rfl, holdsUnits_nil rfl rfl hspc⟩⟩
  · exact ⟨hw, herr, .inl ⟨rfl, hp, holdsUnits_nil rfl rfl hord⟩⟩

/-- In the middle of a transaction the page is chosen. -/
theorem pageChosen_of_inv (h : e.Inv P) (hempty : e.mode ≠ .empty) (herr : e.mode ≠ .err) : e.PageChosen P where
  width := h.width
  noError := h.noError herr
  mode := by
    cases hm : e.mode with
    | empty => exact absurd hm hempty
    | err => exact absurd hm herr
    | ord =>
      obtain ⟨hp, hh⟩ := h.ordMode hm
      exact .inl ⟨rfl, hp, (holds_iff.1 hh).2⟩
    | spc =>
      obtain ⟨hp, hh⟩ := h.spcMode hm
      exact .inr ⟨rfl, hp, (holds_iff.1 hh).2⟩

theorem pushOrdinary_eq_ok {c : Scalar} (h : pushOrdinary P c e = .ok e') :
    ∃ k, codeOf P e.page c = some k ∧ acceptUnit 6 (widenIndex k) e = .ok e' := by
  unfold pushOrdinary at h
  split at h
  · cases h
  · exact ⟨_, by assumption, h⟩

theorem pushSpecial_eq_ok {c : Scalar} (h : pushSpecial P c e = .ok e') :
    ∃ u, spcUnit P c = some u ∧ acceptUnit 15 (widenIndex u) e = .ok e' := by
  unfold pushSpecial at h
  split at h
  · cases h
  · exact ⟨_, by assumption, h⟩

/-- A unit touches the accumulator and the free slots alone. -/
theorem acceptUnit_frame {u : Bus} (h : acceptUnit b u e = .ok e') :
    e'.w = e.w ∧ e'.mode = e.mode ∧ e'.page = e.page ∧ e'.err = e.err ∧ e'.info = e.info := by
  unfold acceptUnit at h
  split at h <;> cases h
  exact ⟨rfl, rfl, rfl, rfl, rfl⟩

/-- An accepted character on a chosen page leaves registers that meet the invariant (R113 to R118). -/
theorem pushUnit_inv {c : Scalar} (he : e.PageChosen P) (h : pushUnit P c e = .ok e') : e'.Inv P := by
  obtain ⟨hw, herr, ⟨hm, hp, hh⟩ | ⟨hm, hp, hh⟩⟩ := he
  · rw [pushUnit, hm] at h
    obtain ⟨k, hk, hacc⟩ := pushOrdinary_eq_ok h
    have hunit : IsOrdUnit P e.page (widenIndex k).toNat := ⟨c, k, hk, widenIndex_toNat k (by decide)⟩
    have hholds := acceptUnit_holds hw (ordFits hw) isOrdUnit_lt (by decide) hunit hh hacc
    obtain ⟨fw, fm, fp, fe, fi⟩ := acceptUnit_frame hacc
    exact encInv_of_ord (fw ▸ hw) (by rwa [fe, fi]) (fm.trans hm) (by rwa [fw, fp]) (by rwa [fw, fp])
  · rw [pushUnit, hm] at h
    obtain ⟨u, hu, hacc⟩ := pushSpecial_eq_ok h
    have hunit : IsSpcUnit P (widenIndex u).toNat := ⟨c, u, hu, widenIndex_toNat u (by decide)⟩
    have hholds := acceptUnit_holds hw (spcFits hw) isSpcUnit_lt (by decide) hunit hh hacc
    obtain ⟨fw, fm, fp, fe, fi⟩ := acceptUnit_frame hacc
    exact encInv_of_spc (fw ▸ hw) (by rwa [fe, fi]) (fm.trans hm) (fp.trans hp) (by rwa [fw])

/-- An accepted character leaves registers that meet the invariant (R107). -/
theorem pushChar_inv {c : Scalar} (he : e.Inv P) (herr : e.mode ≠ .err) (h : pushChar P c e = .ok e') :
    e'.Inv P := by
  unfold pushChar at h
  split at h
  case isTrue =>
    split at h
    case h_1 e₁ hchoose => exact pushUnit_inv (choosePage_pageChosen he.width (he.noError herr) hchoose) h
    case h_2 => cases h
  case isFalse hempty => exact pushUnit_inv (pageChosen_of_inv he hempty herr) h

/-! ### The decoder registers -/

/-- The zeros DLOAD leaves below the units: those of the left-justification, and in special mode the cleared spare
bits as well (R133). -/
theorem loadedRegs_zerosBelow {w : WidthCode} (hw : w.toNat ≤ 4) (a : Bus) :
    (loadedRegs P w a).acc.toNat % 2 ^ (128 - (if (loadedRegs P w a).spc then 15 * specialSlots (widthBits w)
      else codingBits (widthBits w))) = 0 := by
  rw [loadedRegs_acc_toNat P hw]
  have hn := widthFacts hw
  have hspc := hn.spc
  have hsplit := hn.split
  have hle := hn.le
  split
  · rw [show 128 - 15 * specialSlots (widthBits w) = slack15 (widthBits w) + (128 - codingBits (widthBits w)) by omega,
      Nat.pow_add]
    exact Nat.mod_eq_zero_of_dvd (Nat.mul_dvd_mul_right (Nat.dvd_sub_mod _) _)
  · exact Nat.mul_mod_left _ _

/-- A narrow tag is normalised to a primary page (R50, R132). -/
theorem primary_normTag {t : Nat} (h : t ≠ 4) (p : Page) : Primary (normTag t p) := by
  rw [primary_iff, normTag_toNat, if_neg h]
  omega

/-- DLOAD leaves registers that meet the invariant (R131 to R133). -/
theorem decInv_loadedRegs {w : WidthCode} (hw : w.toNat ≤ 4) (a : Bus) : (loadedRegs P w a).Inv P where
  width := hw
  tagPrimary ht := primary_normTag (fun h4 => absurd (ht.symm.trans h4) (by decide)) _
  specialIff := decide_eq_true_iff
  zerosBelow := loadedRegs_zerosBelow hw a

/-- Shifting units out at the top keeps the zeros below. -/
theorem shiftLeft_mod_two_pow_eq_zero {v : Bus} {j k : Nat} (hk : k ≤ 128) (h : v.toNat % 2 ^ k = 0) :
    (shiftLeft v j).toNat % 2 ^ k = 0 := by
  rw [shiftLeft_toNat, Nat.mod_mod_of_dvd _ (Nat.pow_dvd_pow 2 hk)]
  exact Nat.mod_eq_zero_of_dvd (Dvd.dvd.mul_right (Nat.dvd_of_mod_eq_zero h) _)

theorem decInv_shiftLeft {d : DecRegs} (h : d.Inv P) (j : Nat) : ({ d with acc := shiftLeft d.acc j }).Inv P where
  width := h.width
  tagPrimary := h.tagPrimary
  specialIff := h.specialIff
  zerosBelow := shiftLeft_mod_two_pow_eq_zero (Nat.sub_le _ _) h.zerosBelow

/-- At w8 there is no special slot, so the value 0 loads what reset leaves, whatever the parameters are (R27). -/
theorem loadedRegs_w8_zero (P : Params) : loadedRegs P 0 0 = DecRegs.reset := by
  have hslots : specialSlots (widthBits 0) = 0 := rfl
  have htag : normTag (tagBits (widthBits 0)) (tagField (widthBits 0) (lowBits (widthBits 0) 0)) = 0 := rfl
  simp only [loadedRegs, hslots, htag, Nat.lt_irrefl, and_false, decide_false]
  rfl

/-! ### Responses -/

theorem wellShaped_ok (v : Bus) : (⟨.ok, v, 0⟩ : Response).WellShaped := ⟨fun h => absurd rfl h, fun _ _ _ => rfl⟩

theorem wellShaped_status (st : Status) : (⟨st, 0, 0⟩ : Response).WellShaped := ⟨fun _ => rfl, fun _ _ _ => rfl⟩

/-- Only the error that carries no information has a status outside the three that do (R166). -/
theorem wellShaped_error (x : EncError) : (⟨x.status, 0, x.info⟩ : Response).WellShaped := by
  refine ⟨fun _ => rfl, fun h1 h2 h3 => ?_⟩
  cases x with
  | tooLong => rfl
  | noCodePage c => exact absurd rfl h1
  | pageUnavailable p => exact absurd rfl h2
  | missingFromPage c => exact absurd rfl h3

/-! ### The state -/

section
variable {s t : State}

theorem inv_respond {st : Status} {v : Bus} {c : Scalar} (h : s.Inv) (hr : (⟨st, v, c⟩ : Response).WellShaped) :
    (s.respond st v c).Inv where
  enc := h.enc
  dec := h.dec
  rsp r hrsp := by cases hrsp; exact hr

theorem inv_setEnc {e : EncRegs} (h : s.Inv) (he : e.Inv s.params) : (s.setEnc e).Inv := ⟨he, h.dec, h.rsp⟩

theorem inv_setDec {d : DecRegs} (h : s.Inv) (hd : d.Inv s.params) : (s.setDec d).Inv := ⟨h.enc, hd, h.rsp⟩

theorem inv_advance (h : s.Inv) : s.advance.Inv := ⟨h.enc, h.dec, h.rsp⟩

theorem inv_idleEdge (h : s.Inv) : s.idleEdge.Inv := ⟨h.enc, h.dec, fun _ hr => by cases hr⟩

theorem encInv_reset : EncRegs.reset.Inv P := encInv_start (w := 0) (by decide)

theorem decInv_reset : DecRegs.reset.Inv P := loadedRegs_w8_zero P ▸ decInv_loadedRegs (by decide) 0

theorem inv_resetEdge (s : State) : s.resetEdge.Inv := ⟨encInv_reset, decInv_reset, fun _ hr => by cases hr⟩

/-- A latched error is answered as it was when it was raised (R108, R119). -/
theorem inv_respond_latched (h : s.Inv) (hm : s.enc.mode = .err) : (s.respond s.enc.err 0 s.enc.info).Inv := by
  obtain ⟨x, hst, hinfo⟩ := h.enc.latched hm
  rw [hst, hinfo]
  exact inv_respond h (wellShaped_error x)

theorem inv_settle {c : Scalar} (h : s.Inv) (hm : s.enc.mode ≠ .err) :
    (s.settle (pushChar s.params c s.enc)).Inv := by
  cases hp : pushChar s.params c s.enc with
  | ok e => exact inv_respond (inv_setEnc h (pushChar_inv h.enc hm hp)) (wellShaped_ok 0)
  | error x => exact inv_respond (inv_setEnc h (encInv_latch h.enc x)) (wellShaped_error x)

theorem inv_emit (h : s.Inv) (c : Scalar) (j : Nat) : (emit c j s).Inv :=
  inv_respond (inv_setDec h (decInv_shiftLeft h.dec j)) (wellShaped_ok _)

/-- Every command keeps the invariant. -/
theorem exec_inv (i : Instr) (hs : s.Inv) (h : exec i s = .next t) : t.Inv := by
  cases i using Instr.byCommand with
  | nop =>
    cases h
    exact inv_respond hs (wellShaped_ok 0)
  | estart w =>
    rw [exec_ofEstart] at h
    cases h
    exact inv_respond (inv_setEnc hs (encInv_start (widthCode_le w))) (wellShaped_ok 0)
  | epush c =>
    cases h
    split
    case isTrue hm => exact inv_respond_latched hs hm
    case isFalse hm => exact inv_settle hs hm
  | eread =>
    cases h
    split
    case h_1 hm => exact inv_respond_latched hs hm
    all_goals exact inv_respond hs (wellShaped_ok _)
  | dload w arg =>
    rw [exec_ofDload] at h
    cases h
    exact inv_respond (inv_setDec hs (decInv_loadedRegs (widthCode_le w) arg)) (wellShaped_ok _)
  | dnext =>
    cases h
    split <;> split
    case h_1.isTrue | h_2.isTrue => exact inv_respond hs (wellShaped_status _)
    case h_1.isFalse | h_2.isFalse => exact inv_emit hs _ _
  | pageof c =>
    cases h
    split
    · exact inv_respond hs (wellShaped_ok _)
    · exact inv_respond hs (wellShaped_status _)
  | codeof p c =>
    cases h
    split
    · exact inv_respond hs (wellShaped_ok _)
    · exact inv_respond hs (wellShaped_status _)
  | charof p k =>
    cases h
    exact inv_respond hs (wellShaped_ok _)
  | desc w =>
    rw [exec_ofDesc] at h
    cases h
    exact inv_respond hs (wellShaped_ok _)

end

/-- Settles O42: by what an edge can do; a command by `exec_inv`. -/
theorem stepKeepsInvariant : Obligations.StepKeepsInvariant := by
  unfold Obligations.StepKeepsInvariant
  intro s t hs h
  have hadv := inv_advance hs
  rcases step_cases h with ⟨-, rfl⟩ | ⟨-, -, rfl⟩ | ⟨c, i, -, -, hexec⟩ | ⟨c, r, -, -, rfl⟩
  · exact inv_resetEdge _
  · exact inv_idleEdge hadv
  · exact exec_inv i hadv hexec
  · exact inv_respond hadv (wellShaped_status _)

/-- Settles O41: the reset registers are those ESTART w8 and DLOAD w8 of 0 leave. -/
theorem resetMeetsInvariant : Obligations.ResetMeetsInvariant :=
  ⟨encInv_reset, decInv_reset, fun _ hr => by cases hr⟩

end Sys2Proof.Machine
end

section
/-! Reset and idle edges, and the numbers of the statuses and modes (R10, R13, R27, R61, R181, R185). -/

namespace Sys2Proof.Machine

theorem step_of_rst {s : State} (h : s.edge.rst = true) : step s = .next s.advance.resetEdge := by
  rw [step, if_pos h]

theorem command_eq_none {e : Edge} (h : e.cmdValid = false) : e.command = none := by
  simp [Edge.command, h]

/-- The idle branch of the step, whatever `cmd` and `arg` hold. -/
theorem step_of_idle {s : State} (hrst : s.edge.rst = false) (hvalid : s.edge.cmdValid = false) :
    step s = .next s.advance.idleEdge := by
  simp [step, hrst, command_eq_none hvalid]

/-- Settles O9: reset wins over a command, and with no special slot at w8 the value 0 loads what reset leaves. -/
theorem resetPutsEveryRegisterToZero : Obligations.ResetPutsEveryRegisterToZero := by
  unfold Obligations.ResetPutsEveryRegisterToZero
  refine ⟨rfl, rfl, fun s h => step_of_rst h, fun s => ⟨⟨_, rfl, rfl⟩, ⟨_, rfl, ?_⟩⟩⟩
  exact loadedRegs_w8_zero s.params

/-- Settles O10: the idle branch of the step. -/
theorem idleEdgeKeepsRegisters : Obligations.IdleEdgeKeepsRegisters := by
  unfold Obligations.IdleEdgeKeepsRegisters
  exact fun s hrst hvalid => step_of_idle hrst hvalid

/-- Settles O7, by evaluation of the two tables. -/
theorem statusAndModeNumbers : Obligations.StatusAndModeNumbers := by
  unfold Obligations.StatusAndModeNumbers
  decide

end Sys2Proof.Machine
end

section
/-! What EREAD answers in the middle of a transaction (R121, R124). -/

namespace Sys2Proof.Machine

/-- The padded value of a stored tag and units that fill their slots but the padded ones: nothing is cut off, so it is
the sum of the tag and the units, each in its place. -/
theorem paddedValue_toNat {e : EncRegs} {units : List Nat} {b pad : Nat} (hw : e.w.toNat ≤ 4)
    (hpad : b * units.length + pad = codingBits (widthBits e.w)) (hunits : ∀ u ∈ units, u < 2 ^ b)
    (hacc : e.acc.toNat = accValue b (storedTag (tagBits (widthBits e.w)) e.page).toNat units) :
    (paddedValue e pad).toNat < 2 ^ widthBits e.w ∧
      (paddedValue e pad).toNat =
        (storedTag (tagBits (widthBits e.w)) e.page).toNat * 2 ^ codingBits (widthBits e.w) +
          ((units.zipIdx 1).map fun ui => ui.1 * 2 ^ (codingBits (widthBits e.w) - b * ui.2)).sum := by
  have hn := widthFacts hw
  have hsplit := hn.split
  have hlt : e.acc.toNat * 2 ^ pad < 2 ^ widthBits e.w := by
    have hwidth : widthBits e.w = tagBits (widthBits e.w) + b * units.length + pad := by omega
    have htag := storedTag_lt hn e.page
    rw [hacc]
    calc accValue b (storedTag (tagBits (widthBits e.w)) e.page).toNat units * 2 ^ pad
        < 2 ^ (tagBits (widthBits e.w) + b * units.length) * 2 ^ pad :=
          Nat.mul_lt_mul_of_pos_right (accValue_lt b _ units _ htag hunits) (Nat.two_pow_pos _)
      _ = 2 ^ widthBits e.w := by rw [← Nat.pow_add, ← hwidth]
  have hbus : 2 ^ widthBits e.w ≤ 2 ^ 128 := Nat.pow_le_pow_right (by decide) hn.le
  have hvalue : (paddedValue e pad).toNat = e.acc.toNat * 2 ^ pad := by
    rw [paddedValue, lowBits_toNat _ _ hn.le, shiftLeft_toNat, Nat.mod_eq_of_lt (hlt.trans_le hbus),
      Nat.mod_eq_of_lt hlt]
  refine ⟨hvalue ▸ hlt, ?_⟩
  rw [hvalue, hacc, ← accValue_mul_pow b _ units _ (by omega)]
  congr 2
  omega

theorem exec_eread_ord {s : State} (h : s.enc.mode = .ord) :
    exec .eread s = .next (s.respond .ok (paddedValue s.enc (6 * s.enc.rem.toNat)) 0) := by
  simp only [exec, execEread, h]

theorem exec_eread_spc {s : State} (h : s.enc.mode = .spc) :
    exec .eread s = .next
      (s.respond .ok (paddedValue s.enc (15 * s.enc.rem.toNat + slack15 (widthBits s.enc.w))) 0) := by
  simp only [exec, execEread, h]

/-- Settles O40: in both modes the units and the pad shift together are the coding bits. -/
theorem ereadClosedForm : Obligations.EreadClosedForm := by
  unfold Obligations.EreadClosedForm
  intro s units b slots hw hmode hlen hunits hacc
  have hord := (widthFacts hw).ord
  have hspc := (widthFacts hw).spc
  rcases hmode with ⟨hm, rfl, rfl⟩ | ⟨hm, rfl, rfl, -⟩
  · exact ⟨_, _, exec_eread_ord hm, rfl, paddedValue_toNat hw (by omega) hunits hacc⟩
  · exact ⟨_, _, exec_eread_spc hm, rfl, paddedValue_toNat hw (by omega) hunits hacc⟩

end Sys2Proof.Machine
end

section
/-! Encoder and decoder do not touch each other's registers (R21), so neither commands of the other kinds (R105, R130)
nor idle edges (R196) in between disturb a transaction. What a command reads is said by two states that agree there. -/

namespace Sys2Proof.Machine

variable {i : Instr} {s s' t t' : State}

/-! ### One command on two states -/

/-- An encoder command reads the encoder registers and the parameters alone. -/
theorem exec_encoder_agree (hi : i.isEncoder = true) (hP : s.params = s'.params) (he : s.enc = s'.enc)
    (h : exec i s = .next t) (h' : exec i s' = .next t') : t.enc = t'.enc ∧ t.rsp = t'.rsp := by
  cases i using Instr.byCommand with
  | estart w =>
    rw [exec_ofEstart] at h h'
    cases h
    cases h'
    exact ⟨rfl, rfl⟩
  | epush c =>
    simp only [exec, execEpush, hP, he] at h h'
    cases h
    cases h'
    split
    · exact ⟨he, rfl⟩
    · cases pushChar s'.params c s'.enc with
      | ok e => exact ⟨rfl, rfl⟩
      | error x => exact ⟨congrArg (·.latch x) he, rfl⟩
  | eread =>
    simp only [exec, execEread, he] at h h'
    cases h
    cases h'
    split <;> exact ⟨he, rfl⟩
  | dload w arg => simp at hi
  | desc w => simp at hi
  | _ => cases hi

/-- A decoder command reads the decoder registers and the parameters alone. -/
theorem exec_decoder_agree (hi : i.isDecoder = true) (hP : s.params = s'.params) (hd : s.dec = s'.dec)
    (h : exec i s = .next t) (h' : exec i s' = .next t') : t.dec = t'.dec ∧ t.rsp = t'.rsp := by
  cases i using Instr.byCommand with
  | dload w arg =>
    rw [exec_ofDload] at h h'
    cases h
    cases h'
    simp [hP]
  | dnext =>
    simp only [exec, execDnext, hP, hd] at h h'
    cases h
    cases h'
    split <;> split <;> simp [hd]
  | estart w => simp at hi
  | desc w => simp at hi
  | _ => cases hi

/-- The commands that touch no register read the parameters alone. -/
theorem exec_other_agree (hi : i.isEncoder = false) (hi' : i.isDecoder = false) (hP : s.params = s'.params)
    (h : exec i s = .next t) (h' : exec i s' = .next t') : t.rsp = t'.rsp := by
  cases i using Instr.byCommand with
  | nop =>
    cases h
    cases h'
    rfl
  | pageof c =>
    simp only [exec, execPageof, hP] at h h'
    cases h
    cases h'
    split <;> rfl
  | codeof p c =>
    simp only [exec, execCodeof, hP] at h h'
    cases h
    cases h'
    split <;> rfl
  | charof p k =>
    simp only [exec, execCharof, hP] at h h'
    cases h
    cases h'
    rfl
  | desc w =>
    rw [exec_ofDesc] at h h'
    cases h
    cases h'
    rfl
  | estart w => simp at hi
  | dload w arg => simp at hi'
  | dnext => cases hi'
  | _ => cases hi

theorem exec_enc_of_not_encoder (hi : i.isEncoder = false) (h : exec i s = .next t) : t.enc = s.enc := by
  obtain ⟨e, d, r, h', he, -⟩ := exec_answers i s
  rw [h'] at h
  cases h
  exact he hi

theorem exec_dec_of_not_decoder (hi : i.isDecoder = false) (h : exec i s = .next t) : t.dec = s.dec := by
  obtain ⟨e, d, r, h', -, hd⟩ := exec_answers i s
  rw [h'] at h
  cases h
  exact hd hi

theorem not_decoder_of_encoder (h : i.isEncoder = true) : i.isDecoder = false := by
  cases i using Instr.byCommand with
  | estart w => exact isDecoder_ofEstart w
  | epush c | eread => rfl
  | dload w arg => simp at h
  | desc w => simp at h
  | _ => cases h

/-- Settles O15: the frame of a command by `exec_answers`, what it reads by the three agreements above. -/
theorem encoderAndDecoderAreDisjoint : Obligations.EncoderAndDecoderAreDisjoint := by
  unfold Obligations.EncoderAndDecoderAreDisjoint
  intro i s s' t t' h h' hP
  refine ⟨fun hi => ?encoder, fun hi => ?decoder, fun he hd => ?other, fun hi => ?estart, fun w arg hi => ?dload⟩
  case encoder =>
    exact ⟨exec_dec_of_not_decoder (not_decoder_of_encoder hi) h, fun he => exec_encoder_agree hi hP he h h'⟩
  case decoder =>
    have hne : i.isEncoder = false := Bool.eq_false_iff.2 fun he => by simp [not_decoder_of_encoder he] at hi
    exact ⟨exec_enc_of_not_encoder hne h, fun hd => exec_decoder_agree hi hP hd h h'⟩
  case other =>
    exact ⟨exec_enc_of_not_encoder he h, exec_dec_of_not_decoder hd h, exec_other_agree he hd hP h h'⟩
  case estart =>
    obtain ⟨w, rfl⟩ := isEstart_iff.1 hi
    rw [exec_ofEstart] at h h'
    cases h
    cases h'
    exact ⟨rfl, rfl⟩
  case dload =>
    subst hi
    rw [exec_ofDload] at h h'
    cases h
    cases h'
    simp [hP]

/-! ### Sequences of commands -/

/-- Let `view` be a part of the state that the commands outside `keep` leave alone, and that the commands in `keep`
compute from itself. Then dropping the commands outside `keep` gives the same view at the end. -/
theorem runCommands_filter {α : Type} (view : State → α) (keep : Instr → Bool)
    (hframe : ∀ i s t, keep i = false → exec i s = .next t → view t = view s)
    (hagree : ∀ i s s' t t', keep i = true → view s = view s' → exec i s = .next t → exec i s' = .next t' →
      view t = view t') (is : List Instr) : ∀ s s' : State, view s = view s' →
    ∃ t t', runCommands is s = .next t ∧ runCommands (is.filter keep) s' = .next t' ∧ view t = view t' := by
  induction is with
  | nil => exact fun s s' hv => ⟨s, s', rfl, rfl, hv⟩
  | cons i is ih =>
    intro s s' hv
    obtain ⟨e, d, r, h, -⟩ := exec_answers i s
    rw [runCommands_cons is h]
    cases hk : keep i with
    | false =>
      rw [List.filter_cons_of_neg (by simp [hk])]
      exact ih _ _ ((hframe i _ _ hk h).trans hv)
    | true =>
      obtain ⟨e', d', r', h', -⟩ := exec_answers i s'
      rw [List.filter_cons_of_pos hk, runCommands_cons _ h']
      exact ih _ _ (hagree i _ _ _ _ hk hv h h')

theorem runCommands_filter_encoder (is : List Instr) (s : State) : ∃ t t', runCommands is s = .next t ∧
    runCommands (is.filter Instr.isEncoder) s = .next t' ∧ (t.params, t.enc) = (t'.params, t'.enc) := by
  refine runCommands_filter (fun s => (s.params, s.enc)) Instr.isEncoder ?_ ?_ is s s rfl
  · intro i s t hi h
    exact Prod.ext (exec_params h) (exec_enc_of_not_encoder hi h)
  · intro i s s' t t' hi hv h h'
    obtain ⟨hP, he⟩ := Prod.ext_iff.1 hv
    exact Prod.ext ((exec_params h).trans (hP.trans (exec_params h').symm)) (exec_encoder_agree hi hP he h h').1

theorem runCommands_filter_decoder (is : List Instr) (s : State) : ∃ t t', runCommands is s = .next t ∧
    runCommands (is.filter Instr.isDecoder) s = .next t' ∧ (t.params, t.dec) = (t'.params, t'.dec) := by
  refine runCommands_filter (fun s => (s.params, s.dec)) Instr.isDecoder ?_ ?_ is s s rfl
  · intro i s t hi h
    exact Prod.ext (exec_params h) (exec_dec_of_not_decoder hi h)
  · intro i s s' t t' hi hv h h'
    obtain ⟨hP, hd⟩ := Prod.ext_iff.1 hv
    exact Prod.ext ((exec_params h).trans (hP.trans (exec_params h').symm)) (exec_decoder_agree hi hP hd h h').1

/-- Settles O16: the encoder's view of a sequence is its encoder commands', the decoder's its decoder commands'. -/
theorem otherCommandsDoNotDisturb : Obligations.OtherCommandsDoNotDisturb := by
  unfold Obligations.OtherCommandsDoNotDisturb
  intro is s
  obtain ⟨t, te, ht, hte, he⟩ := runCommands_filter_encoder is s
  obtain ⟨t', td, ht', htd, hd⟩ := runCommands_filter_decoder is s
  cases ht.symm.trans ht'
  exact ⟨t, te, td, ht, hte, htd, (Prod.ext_iff.1 he).2.symm, (Prod.ext_iff.1 hd).2.symm⟩

/-! ### Spacing -/

/-- The two states agree on every register and on the parameters. -/
def SameRegisters (s s' : State) : Prop := s.enc = s'.enc ∧ s.dec = s'.dec ∧ s.params = s'.params

/-- A command reads nothing but registers and parameters: no earlier response, and not the port. -/
theorem exec_sameRegisters (hs : SameRegisters s s') (h : exec i s = .next t) (h' : exec i s' = .next t') :
    SameRegisters t t' ∧ t.rsp = t'.rsp := by
  obtain ⟨he, hd, hP⟩ := hs
  have hparams : t.params = t'.params := (exec_params h).trans (hP.trans (exec_params h').symm)
  cases hie : i.isEncoder with
  | true =>
    have hid := not_decoder_of_encoder hie
    obtain ⟨henc, hrsp⟩ := exec_encoder_agree hie hP he h h'
    exact ⟨⟨henc, by rw [exec_dec_of_not_decoder hid h, hd, exec_dec_of_not_decoder hid h'], hparams⟩, hrsp⟩
  | false =>
    have henc : t.enc = t'.enc := by rw [exec_enc_of_not_encoder hie h, he, exec_enc_of_not_encoder hie h']
    cases hid : i.isDecoder with
    | true =>
      obtain ⟨hdec, hrsp⟩ := exec_decoder_agree hid hP hd h h'
      exact ⟨⟨henc, hdec, hparams⟩, hrsp⟩
    | false =>
      have hdec : t.dec = t'.dec := by rw [exec_dec_of_not_decoder hid h, hd, exec_dec_of_not_decoder hid h']
      exact ⟨⟨henc, hdec, hparams⟩, exec_other_agree hie hid hP h h'⟩

/-- The edge of a spaced sequence: `some i` presents the command i, `none` is idle. -/
def spacedEdge : Option Instr → Edge
  | some i => Edge.present (encode i)
  | none => Edge.idle

/-- An edge that presents an encoded command runs it. -/
theorem step_spacedEdge_some {l : List Edge} (h : s.inputs = spacedEdge (some i) :: l) :
    step s = exec i s.advance := by
  have hedge : s.edge = Edge.present (encode i) := by simp [State.edge, h, spacedEdge]
  exact step_of_decode_ok (by rw [hedge, present_rst]) (by rw [hedge, present_command]) (decode_encode i)

theorem step_spacedEdge_none {l : List Edge} (h : s.inputs = spacedEdge none :: l) :
    step s = .next s.advance.idleEdge := by
  have hedge : s.edge = Edge.idle := by simp [State.edge, h, spacedEdge]
  exact step_of_idle (by rw [hedge]; rfl) (by rw [hedge]; rfl)

/-- A spaced run and the commands alone, from states with the same registers, end in states with the same registers
and port. Unless the last edge is idle the responses agree too; where there is no edge, they are those at the start. -/
theorem run_spaced (rest : List Edge) (l : List (Option Instr)) : ∀ s s' : State, SameRegisters s s' →
    s.inputs = l.map spacedEdge ++ rest → s'.inputs = rest →
    ∃ t u, Host.Core.run Sys2Proof.core l.length s = .next t ∧ runCommands l.reduceOption s' = .next u ∧
      SameRegisters t u ∧ t.inputs = u.inputs ∧
      ((l.getLast? = none → s.rsp = s'.rsp) → l.getLast? ≠ some none → t.rsp = u.rsp) := by
  induction l with
  | nil => exact fun s s' hs hin hin' => ⟨s, s', rfl, rfl, hs, hin.trans hin'.symm, fun h _ => h rfl⟩
  | cons o l ih =>
    intro s s' hs hin hin'
    rw [List.length_cons, List.getLast?_cons]
    have htail : s.advance.inputs = l.map spacedEdge ++ rest := by rw [advance_inputs, hin]; rfl
    cases o with
    | none =>
      rw [run_succ l.length (step_spacedEdge_none hin), List.reduceOption_cons_of_none]
      obtain ⟨t, u, ht, hu, hreg, hport, hrsp⟩ := ih s.advance.idleEdge s' hs htail hin'
      refine ⟨t, u, ht, hu, hreg, hport, fun _ hlast => hrsp (fun hnil => ?_) fun h => ?_⟩
      · exact absurd (by rw [hnil]; rfl) hlast
      · exact hlast (by rw [h]; rfl)
    | some i =>
      obtain ⟨e, d, r, h, -⟩ := exec_answers i s.advance
      obtain ⟨e', d', r', h', -⟩ := exec_answers i s'
      obtain ⟨hreg₁, hrsp₁⟩ := exec_sameRegisters (s := s.advance) hs h h'
      rw [run_succ l.length ((step_spacedEdge_some hin).trans h), List.reduceOption_cons_of_some,
        runCommands_cons _ h']
      obtain ⟨t, u, ht, hu, hreg, hport, hrsp⟩ := ih _ _ hreg₁ htail hin'
      exact ⟨t, u, ht, hu, hreg, hport, fun _ hlast => hrsp (fun _ => hrsp₁) fun h => hlast (by rw [h]; rfl)⟩

/-- Settles O14: the spaced run and the commands alone start from the same registers. -/
theorem spacingDoesNotMatter : Obligations.SpacingDoesNotMatter := by
  unfold Obligations.SpacingDoesNotMatter
  intro l rest s
  obtain ⟨t, u, ht, hu, ⟨henc, hdec, hparams⟩, hport, hrsp⟩ := run_spaced rest l
    { s with inputs := l.map spacedEdge ++ rest } { s with inputs := rest } ⟨rfl, rfl, rfl⟩ rfl rfl
  refine ⟨t, u, ht, hu, henc, hdec, hparams, hport, fun hlast => hrsp (fun _ => rfl) fun h => ?_⟩
  rw [h] at hlast
  cases hlast

end Sys2Proof.Machine
end

section
/-! No step writes the parameters (R38, R87, R187), and presented commands run as the fold of the command rules (R40). -/

namespace Sys2Proof.Machine

/-- Settles O12: no edge writes the parameters; a command keeps them by `exec_params`. -/
theorem noStepWritesParams : Obligations.NoStepWritesParams := by
  unfold Obligations.NoStepWritesParams
  intro s t h
  rw [← advance_params s]
  rcases step_cases h with ⟨-, rfl⟩ | ⟨-, -, rfl⟩ | ⟨c, i, -, -, hexec⟩ | ⟨c, r, -, -, rfl⟩
  · exact resetEdge_params s.advance
  · exact idleEdge_params s.advance
  · exact exec_params hexec
  · exact badCommand_params s.advance

/-- The first edge of a presented list runs the first command, and leaves the rest of the list on the port. -/
theorem step_presentAll_cons (i : Instr) (is : List Instr) (rest : List Edge) (s : State) :
    step { s with inputs := presentAll (i :: is) ++ rest } = exec i { s with inputs := presentAll is ++ rest } :=
  step_spacedEdge_some rfl

/-- Settles O13, by induction on the list: the first command leaves the same state whatever the port still holds. -/
theorem presentedCommandsRunAsFold : Obligations.PresentedCommandsRunAsFold := by
  unfold Obligations.PresentedCommandsRunAsFold
  intro is rest
  induction is with
  | nil => exact fun s => rfl
  | cons i is ih =>
    intro s
    obtain ⟨e, d, r, h, -⟩ := exec_answers i s
    have hstep := (step_presentAll_cons i is rest s).trans (exec_inputs i s _ h)
    rw [List.length_cons, run_succ is.length hstep, runCommands_cons is (exec_inputs i s rest h)]
    exact ih _

end Sys2Proof.Machine
end

section
/-! The decoder of a command, an equation per opcode (R55 to R59): what each command byte decodes to, which bytes are
reserved, and the rows of the opcode table. -/

namespace Sys2Proof

/-! ### Reading back an encoded command (R63) -/

/-- Settles O1: the command byte by computation, the operands field by field. -/
theorem decodeInvertsEncode : Obligations.DecodeInvertsEncode := by
  unfold Obligations.DecodeInvertsEncode
  exact decode_encode

/-- Settles O2, by evaluation of the six commands. -/
theorem decodeOfSpecWords : Obligations.DecodeOfSpecWords := by
  unfold Obligations.DecodeOfSpecWords
  decide

/-! ### The width select code and the fields of `arg` -/

/-- The width select codes (R59): 0 to 4 in the order of the widths. -/
theorem decodeWidth_eq_some_iff {w : BitVec 4} {x : Width} :
    decodeWidth w = some x ↔ w.toNat = (Machine.widthCode x).toNat := by
  revert w
  cases x <;> decide

/-- The width select codes 5 to 15 name no width (R57). -/
theorem decodeWidth_eq_none_iff {w : BitVec 4} : decodeWidth w = none ↔ 5 ≤ w.toNat := by
  revert w
  decide

theorem argScalar_eq_ofNat (a : Bus) : argScalar a = BitVec.ofNat 21 a.toNat :=
  BitVec.eq_of_toNat_eq (by rw [Machine.argScalar_toNat, BitVec.toNat_ofNat])

theorem argCodeofPage_eq_ofNat (a : Bus) : argCodeofPage a = BitVec.ofNat 4 (a.toNat / 2 ^ 24) :=
  BitVec.eq_of_toNat_eq (by rw [Machine.argCodeofPage_toNat, BitVec.toNat_ofNat])

theorem argCharofPage_eq_ofNat (a : Bus) : argCharofPage a = BitVec.ofNat 4 (a.toNat / 2 ^ 6) :=
  BitVec.eq_of_toNat_eq (by rw [Machine.argCharofPage_toNat, BitVec.toNat_ofNat])

theorem argCode_eq_ofNat (a : Bus) : argCode a = BitVec.ofNat 6 a.toNat :=
  BitVec.eq_of_toNat_eq (by rw [Machine.argCode_toNat, BitVec.toNat_ofNat])

/-! ### The opcode map (R56), an equation per opcode -/

section
variable {c : Command} {x : Width}

theorem decode_nop (h : c.op = 0x0) : decode c = .ok .nop := by simp [decode, h]

theorem decode_estart (h : c.op = 0x1) (hw : decodeWidth c.w = some x) : decode c = .ok (.ofEstart x) := by
  simp [decode, h, hw]

theorem decode_epush (h : c.op = 0x2) : decode c = .ok (.epush (argScalar c.arg)) := by simp [decode, h]

theorem decode_eread (h : c.op = 0x3) : decode c = .ok .eread := by simp [decode, h]

theorem decode_dload (h : c.op = 0x4) (hw : decodeWidth c.w = some x) : decode c = .ok (.ofDload x c.arg) := by
  simp [decode, h, hw]

theorem decode_dnext (h : c.op = 0x5) : decode c = .ok .dnext := by simp [decode, h]

theorem decode_pageof (h : c.op = 0x6) : decode c = .ok (.pageof (argScalar c.arg)) := by simp [decode, h]

theorem decode_codeof (h : c.op = 0x7) :
    decode c = .ok (.codeof (argCodeofPage c.arg) (argScalar c.arg)) := by simp [decode, h]

theorem decode_charof (h : c.op = 0x8) :
    decode c = .ok (.charof (argCharofPage c.arg) (argCode c.arg)) := by simp [decode, h]

theorem decode_desc (h : c.op = 0x9) (hw : decodeWidth c.w = some x) : decode c = .ok (.ofDesc x) := by
  simp [decode, h, hw]

/-- The opcodes that take a width (R57): ESTART, DLOAD and DESC. -/
def Command.TakesWidth (c : Command) : Prop := c.op = 0x1 ∨ c.op = 0x4 ∨ c.op = 0x9

theorem decode_reservedWidth (h : c.TakesWidth) (hw : decodeWidth c.w = none) :
    decode c = .error (.width c.op c.w) := by
  rcases h with h | h | h <;> simp [decode, h, hw]

theorem decode_reservedOp (h : 0xA ≤ c.op.toNat) : decode c = .error (.op c.op) := by
  have hlt := c.op.isLt
  unfold decode
  split
  case h_11 => rfl
  all_goals omega

/-- Every opcode: one of the seven that take no width, one of the three that do, or reserved. -/
theorem Command.op_cases (c : Command) :
    (c.op = 0x0 ∨ c.op = 0x2 ∨ c.op = 0x3 ∨ c.op = 0x5 ∨ c.op = 0x6 ∨ c.op = 0x7 ∨ c.op = 0x8) ∨
      c.TakesWidth ∨ 0xA ≤ c.op.toNat := by
  unfold Command.TakesWidth
  generalize c.op = op
  revert op
  decide

end

/-- Settles O5: the opcode map, with the operand fields as numbers. -/
theorem decodeReadsNamedBits : Obligations.DecodeReadsNamedBits := by
  unfold Obligations.DecodeReadsNamedBits
  intro c
  simp only [← argScalar_eq_ofNat, ← argCodeofPage_eq_ofNat, ← argCharofPage_eq_ofNat, ← argCode_eq_ofNat]
  refine ⟨decode_nop, fun h => ?estart, decode_epush, decode_eread, fun h => ?dload, decode_dnext, decode_pageof,
    decode_codeof, decode_charof, fun h => ?desc⟩
  case estart =>
    exact ⟨fun hw => decode_estart (x := .w8) h (hw ▸ rfl), fun hw => decode_estart (x := .w16) h (hw ▸ rfl),
      fun hw => decode_estart (x := .w32) h (hw ▸ rfl), fun hw => decode_estart (x := .w64) h (hw ▸ rfl),
      fun hw => decode_estart (x := .w128) h (hw ▸ rfl)⟩
  case dload =>
    exact ⟨fun hw => decode_dload (x := .w8) h (hw ▸ rfl), fun hw => decode_dload (x := .w16) h (hw ▸ rfl),
      fun hw => decode_dload (x := .w32) h (hw ▸ rfl), fun hw => decode_dload (x := .w64) h (hw ▸ rfl),
      fun hw => decode_dload (x := .w128) h (hw ▸ rfl)⟩
  case desc =>
    exact ⟨fun hw => decode_desc (x := .w8) h (hw ▸ rfl), fun hw => decode_desc (x := .w16) h (hw ▸ rfl),
      fun hw => decode_desc (x := .w32) h (hw ▸ rfl), fun hw => decode_desc (x := .w64) h (hw ▸ rfl),
      fun hw => decode_desc (x := .w128) h (hw ▸ rfl)⟩

/-! ### The reserved bytes (R57) -/

/-- The opcodes that take no width decode, and the decoder does not look at `w` there. -/
theorem decode_of_not_takesWidth {c d : Command} (hop : c.op = d.op) (harg : c.arg = d.arg) (hle : c.op.toNat ≤ 9)
    (hnot : ¬ c.TakesWidth) : decode c = decode d ∧ ∃ i, decode c = .ok i := by
  rcases c.op_cases with (h | h | h | h | h | h | h) | h | h
  · exact ⟨by rw [decode_nop h, decode_nop (hop ▸ h)], _, decode_nop h⟩
  · exact ⟨by rw [decode_epush h, decode_epush (hop ▸ h), harg], _, decode_epush h⟩
  · exact ⟨by rw [decode_eread h, decode_eread (hop ▸ h)], _, decode_eread h⟩
  · exact ⟨by rw [decode_dnext h, decode_dnext (hop ▸ h)], _, decode_dnext h⟩
  · exact ⟨by rw [decode_pageof h, decode_pageof (hop ▸ h), harg], _, decode_pageof h⟩
  · exact ⟨by rw [decode_codeof h, decode_codeof (hop ▸ h), harg], _, decode_codeof h⟩
  · exact ⟨by rw [decode_charof h, decode_charof (hop ▸ h), harg], _, decode_charof h⟩
  · exact absurd h hnot
  · omega

/-- The opcodes that take a width decode where `w` names one. -/
theorem decode_of_takesWidth {c : Command} {x : Width} (h : c.TakesWidth) (hw : decodeWidth c.w = some x) :
    ∃ i, decode c = .ok i := by
  rcases h with h | h | h
  · exact ⟨_, decode_estart h hw⟩
  · exact ⟨_, decode_dload h hw⟩
  · exact ⟨_, decode_desc h hw⟩

/-- The reserved command bytes. -/
theorem decode_eq_error_iff (c : Command) :
    (∃ r, decode c = .error r) ↔ 0xA ≤ c.op.toNat ∨ (c.TakesWidth ∧ 5 ≤ c.w.toNat) := by
  rw [← decodeWidth_eq_none_iff]
  constructor
  · rintro ⟨r, hr⟩
    by_contra hnot
    obtain ⟨hop, hwidth⟩ := not_or.1 hnot
    have hdecodes : ∃ i, decode c = .ok i := by
      by_cases htakes : c.TakesWidth
      · obtain ⟨x, hx⟩ := Option.ne_none_iff_exists'.1 fun hnone => hwidth ⟨htakes, hnone⟩
        exact decode_of_takesWidth htakes hx
      · exact (decode_of_not_takesWidth (d := c) rfl rfl (by omega) htakes).2
    obtain ⟨i, hi⟩ := hdecodes
    cases hr.symm.trans hi
  · rintro (h | ⟨h, hw⟩)
    · exact ⟨_, decode_reservedOp h⟩
    · exact ⟨_, decode_reservedWidth h hw⟩

/-- Settles O3: `Command.TakesWidth` is what the statement says of the opcodes with a width. -/
theorem decoderRejectsExactlyReserved : Obligations.DecoderRejectsExactlyReserved := by
  unfold Obligations.DecoderRejectsExactlyReserved
  exact decode_eq_error_iff

end Sys2Proof

namespace Sys2Proof.Machine

/-- The branch of the step that meets a reserved command byte (R57). -/
theorem step_of_decode_error {s : State} {c : Command} {r : Reserved} (hrst : s.edge.rst = false)
    (hcommand : s.edge.command = some c) (hdecode : decode c = .error r) : step s = .next s.advance.badCommand := by
  simp [step, hrst, hcommand, hdecode]

/-- Settles O4: the step's branch for a reserved byte, and the seven opcodes whose equations do not name `w`. -/
theorem reservedByteAnswersBadCmd : Obligations.ReservedByteAnswersBadCmd := by
  unfold Obligations.ReservedByteAnswersBadCmd
  constructor
  · intro s c hedge hreserved
    obtain ⟨r, hr⟩ := (decode_eq_error_iff c).2 hreserved
    exact step_of_decode_error (by rw [hedge, present_rst]) (by rw [hedge, present_command]) hr
  · intro c d hop harg hle h1 h4 h9
    exact decode_of_not_takesWidth hop harg hle fun h => h.elim h1 fun h => h.elim h4 h9

end Sys2Proof.Machine

namespace Sys2Proof

/-! ### The rows of the opcode table (R56) -/

/-- The command byte is its two fields (R55). -/
theorem Command.cmd_eq (c : Command) : c.cmd = c.op ++ c.w := by
  unfold Command.op Command.w
  generalize c.cmd = b
  revert b
  decide

/-- A row that leaves `w` free admits every byte of its opcode. -/
theorem admits_of_op {r : OpcodeRow} {c : Command} {op : BitVec 4} (hop : c.op = op) (hmask : r.mask = 0xF0)
    (hpattern : r.pattern = op ++ (0 : BitVec 4)) : r.admits c.cmd = true := by
  have key : ∀ op w : BitVec 4, ((op ++ w) &&& (0xF0 : Byte)) = op ++ (0 : BitVec 4) := by decide
  rw [OpcodeRow.admits, hmask, hpattern, c.cmd_eq, hop, key, beq_self_eq_true]

/-- A row of one command byte admits that byte. -/
theorem admits_of_cmd {r : OpcodeRow} {c : Command} {op : BitVec 4} {x : Width} (hop : c.op = op)
    (hw : decodeWidth c.w = some x) (hmask : r.mask = 0xFF)
    (hpattern : r.pattern = op ++ (Machine.widthCode x).setWidth 4) : r.admits c.cmd = true := by
  have hwidth : c.w = (Machine.widthCode x).setWidth 4 := by
    apply BitVec.eq_of_toNat_eq
    rw [decodeWidth_eq_some_iff.1 hw, BitVec.toNat_setWidth, Nat.mod_eq_of_lt]
    exact (Machine.widthCode x).isLt.trans (by decide)
  rw [OpcodeRow.admits, hmask, hpattern, c.cmd_eq, hop, hwidth, show (0xFF : Byte) = BitVec.allOnes 8 from rfl,
    BitVec.and_allOnes, beq_self_eq_true]

/-- A command byte is one of the row of the instruction it decodes to. -/
theorem row_admits_of_decode {c : Command} {i : Instr} (h : decode c = .ok i) : i.row.admits c.cmd = true := by
  rcases c.op_cases with (hop | hop | hop | hop | hop | hop | hop) | htakes | hop
  · cases h.symm.trans (decode_nop hop)
    exact admits_of_op hop rfl rfl
  · cases h.symm.trans (decode_epush hop)
    exact admits_of_op hop rfl rfl
  · cases h.symm.trans (decode_eread hop)
    exact admits_of_op hop rfl rfl
  · cases h.symm.trans (decode_dnext hop)
    exact admits_of_op hop rfl rfl
  · cases h.symm.trans (decode_pageof hop)
    exact admits_of_op hop rfl rfl
  · cases h.symm.trans (decode_codeof hop)
    exact admits_of_op hop rfl rfl
  · cases h.symm.trans (decode_charof hop)
    exact admits_of_op hop rfl rfl
  · cases hw : decodeWidth c.w with
    | none => cases h.symm.trans (decode_reservedWidth htakes hw)
    | some x =>
      rcases htakes with hop | hop | hop
      · cases h.symm.trans (decode_estart hop hw)
        exact admits_of_cmd hop hw (by cases x <;> rfl) (by cases x <;> rfl)
      · cases h.symm.trans (decode_dload hop hw)
        exact admits_of_cmd hop hw (by cases x <;> rfl) (by cases x <;> rfl)
      · cases h.symm.trans (decode_desc hop hw)
        exact admits_of_cmd hop hw (by cases x <;> rfl) (by cases x <;> rfl)
  · cases h.symm.trans (decode_reservedOp hop)

/-- The rows of the opcode table, in its order: each is the row of an instruction, operands aside. -/
def opcodeTable : List OpcodeRow :=
  ([.nop, .estartW8, .estartW16, .estartW32, .estartW64, .estartW128, .epush 0, .eread, .dloadW8 0, .dloadW16 0,
    .dloadW32 0, .dloadW64 0, .dloadW128 0, .dnext, .pageof 0, .codeof 0 0, .charof 0 0, .descW8, .descW16, .descW32,
    .descW64, .descW128] : List Instr).map Instr.row

theorem row_mem_opcodeTable (i : Instr) : i.row ∈ opcodeTable := by
  cases i <;> simp [opcodeTable, Instr.row]

/-- Two rows with a byte in common agree on the bits both look at. -/
theorem pattern_agree_of_admits {r r' : OpcodeRow} {b : Byte} (h : r.admits b = true) (h' : r'.admits b = true) :
    r.pattern &&& r'.mask = r'.pattern &&& r.mask := by
  rw [OpcodeRow.admits, beq_iff_eq] at h h'
  rw [← h, ← h', BitVec.and_assoc, BitVec.and_assoc, BitVec.and_comm r.mask]

/-- No two rows of the table agree on the bits both look at. -/
theorem opcodeTable_disjoint : ∀ r ∈ opcodeTable, ∀ r' ∈ opcodeTable,
    r.pattern &&& r'.mask = r'.pattern &&& r.mask → r = r' := by
  decide

/-- Settles O6: the byte is of the row of what it decodes to, and no two rows of the table share a byte. -/
theorem decodedByteMatchesOneRow : Obligations.DecodedByteMatchesOneRow := by
  unfold Obligations.DecodedByteMatchesOneRow
  intro c i h
  have hi := row_admits_of_decode h
  exact ⟨hi, fun j hj => opcodeTable_disjoint _ (row_mem_opcodeTable j) _ (row_mem_opcodeTable i)
    (pattern_agree_of_admits hj hi)⟩

end Sys2Proof
end

section
/-! Every command completes with a response (R60, R165). -/

namespace Sys2Proof.Machine

theorem exec_responds (i : Instr) (s : State) : ∃ t r, exec i s = .next t ∧ t.rsp = some r := by
  obtain ⟨e, d, r, h, -⟩ := exec_answers i s
  exact ⟨_, r, h, rfl⟩

theorem command_eq_none_of_rst {e : Edge} (h : e.rst = true) : e.command = none := by
  simp [Edge.command, h]

/-- Every step answers a next state, which presents a response exactly where the edge took a command (R11). -/
theorem step_responds_iff (s : State) :
    ∃ t, step s = .next t ∧ (t.rsp.isSome = true ↔ s.edge.command.isSome = true) := by
  cases hrst : s.edge.rst with
  | true => exact ⟨_, step_of_rst hrst, by simp [command_eq_none_of_rst hrst]⟩
  | false =>
    cases hcommand : s.edge.command with
    | none => exact ⟨s.advance.idleEdge, by simp [step, hrst, hcommand], by simp⟩
    | some c =>
      cases hdecode : decode c with
      | ok i =>
        obtain ⟨t, r, ht, hr⟩ := exec_responds i s.advance
        exact ⟨t, (step_of_decode_ok hrst hcommand hdecode).trans ht, by simp [hr]⟩
      | error r => exact ⟨_, step_of_decode_error hrst hcommand hdecode, by simp⟩

/-- Settles O11: `exec_answers` names the response of a command, and the step has no other branches. -/
theorem everyOutcomeIsResponse : Obligations.EveryOutcomeIsResponse := by
  unfold Obligations.EveryOutcomeIsResponse
  exact ⟨exec_responds, step_responds_iff⟩

end Sys2Proof.Machine
end

section
/-! A packed value as a number: the stored tag above the coding bits, the units below it, the first the most
significant, and zeros below the last (R46, R47, R52, R53). What is packed is read back unit by unit, and a value with
zeros in the right places is what packing its own units gives. -/

namespace Sys2Proof.Machine

/-- Tag `t` and the units `us` of `b` bits each, padded with zeros to `C` bits below the tag. -/
def packedValue (C b t : Nat) (us : List Nat) : Nat := accValue b t us * 2 ^ (C - b * us.length)

/-- Unit `j` of a number, as `unitAt` of a bus (R46, R47). -/
def unitValue (C b x j : Nat) : Nat := x / 2 ^ (C - b * (j + 1)) % 2 ^ b

variable {C b t T x m slots j : Nat} {us : List Nat}

theorem unitAt_toNat_eq (n : Nat) (v : Bus) : (unitAt n b v j).toNat = unitValue (codingBits n) b v.toNat j :=
  unitAt_toNat n b v j

/-! ### Reading what was packed -/

/-- Dropping the units `us` leaves what stood above them. -/
theorem accValue_div (t : Nat) (hus : ∀ u ∈ us, u < 2 ^ b) : accValue b t us / 2 ^ (b * us.length) = t := by
  induction us using List.reverseRecOn with
  | nil => simp [accValue]
  | append_singleton us u ih =>
    have hu : u < 2 ^ b := hus u (by simp)
    have hexp : b * (us ++ [u]).length = b + b * us.length := by simp [Nat.mul_add, Nat.add_comm]
    rw [accValue_append, hexp, Nat.pow_add, ← Nat.div_div_eq_div_mul, Nat.mul_comm _ (2 ^ b),
      Nat.mul_add_div (Nat.two_pow_pos b), Nat.div_eq_of_lt hu, Nat.add_zero]
    exact ih fun v hv => hus v (by simp [hv])

/-- The top of a packed value, down to unit `j`, is the tag and the first `j` units. -/
theorem packedValue_div (hus : ∀ u ∈ us, u < 2 ^ b) (hC : b * us.length ≤ C) (hj : j ≤ us.length) :
    packedValue C b t us / 2 ^ (C - b * j) = accValue b t (us.take j) := by
  have hsplit : accValue b t us = accValue b (accValue b t (us.take j)) (us.drop j) := by
    rw [accValue, accValue, accValue, ← List.foldl_append, List.take_append_drop]
  have hle : b * j ≤ b * us.length := Nat.mul_le_mul_left b hj
  have hexp : C - b * j = (C - b * us.length) + b * (us.drop j).length := by
    rw [List.length_drop, Nat.mul_sub]
    omega
  rw [packedValue, hexp, Nat.pow_add, ← Nat.div_div_eq_div_mul, Nat.mul_div_cancel _ (Nat.two_pow_pos _), hsplit]
  exact accValue_div _ fun u hu => hus u (List.mem_of_mem_drop hu)

theorem packedValue_tag (hus : ∀ u ∈ us, u < 2 ^ b) (hC : b * us.length ≤ C) :
    packedValue C b t us / 2 ^ C = t :=
  packedValue_div hus hC (Nat.zero_le _)

theorem packedValue_unit (hus : ∀ u ∈ us, u < 2 ^ b) (hC : b * us.length ≤ C) (hj : j < us.length) :
    unitValue C b (packedValue C b t us) j = us[j] := by
  rw [unitValue, packedValue_div hus hC hj, ← List.take_append_getElem hj, accValue_append,
    Nat.mul_comm, Nat.mul_add_mod, Nat.mod_eq_of_lt (hus _ (List.getElem_mem hj))]

/-- Below the last unit there are zeros. -/
theorem packedValue_mod {k : Nat} (hk : k ≤ C - b * us.length) : packedValue C b t us % 2 ^ k = 0 :=
  Nat.mod_eq_zero_of_dvd ((Nat.pow_dvd_pow 2 hk).mul_left _)

theorem packedValue_unit_of_le (hj : us.length ≤ j) (hC : b * (j + 1) ≤ C) :
    unitValue C b (packedValue C b t us) j = 0 := by
  have hle : b * us.length ≤ b * j := Nat.mul_le_mul_left b hj
  have hsucc : b * (j + 1) = b * j + b := Nat.mul_succ b j
  have hzero : packedValue C b t us % 2 ^ (C - b * (j + 1) + b) = 0 := packedValue_mod (by omega)
  rw [Nat.pow_add] at hzero
  rw [unitValue, ← Nat.mod_mul_right_div_self, hzero, Nat.zero_div]

/-- A packed value has no bit above its tag. -/
theorem packedValue_lt (ht : t < 2 ^ T) (hus : ∀ u ∈ us, u < 2 ^ b) (hC : b * us.length ≤ C) :
    packedValue C b t us < 2 ^ (C + T) := by
  calc packedValue C b t us
      < 2 ^ (T + b * us.length) * 2 ^ (C - b * us.length) :=
        Nat.mul_lt_mul_of_pos_right (accValue_lt b T us t ht hus) (Nat.two_pow_pos _)
    _ = 2 ^ (C + T) := by rw [← Nat.pow_add]; congr 1; omega

/-! ### Packing what was read -/

/-- The units of a number, packed below its tag, are its top. -/
theorem accValue_unitValues (hC : b * m ≤ C) :
    accValue b (x / 2 ^ C) ((List.range m).map (unitValue C b x)) = x / 2 ^ (C - b * m) := by
  induction m with
  | zero => simp [accValue]
  | succ m ih =>
    have hsucc : b * (m + 1) = b * m + b := Nat.mul_succ b m
    have hexp : C - b * m = C - b * (m + 1) + b := by omega
    rw [List.range_succ, List.map_append, List.map_singleton, accValue_append, ih (by omega), hexp, Nat.pow_add,
      ← Nat.div_div_eq_div_mul, unitValue]
    exact Nat.div_add_mod' _ _

/-- Zero units from unit `m` on and zeros below the last slot are zeros below unit `m`. -/
theorem mod_eq_zero_of_units (hC : b * slots ≤ C) (hm : m ≤ slots) (hlow : x % 2 ^ (C - b * slots) = 0)
    (hzero : ∀ j, m ≤ j → j < slots → unitValue C b x j = 0) : x % 2 ^ (C - b * m) = 0 := by
  induction hm using Nat.decreasingInduction with
  | self => exact hlow
  | of_succ j hj ih =>
    have hsucc : b * (j + 1) = b * j + b := Nat.mul_succ b j
    have hle : b * (j + 1) ≤ b * slots := Nat.mul_le_mul_left b hj
    have hrest := ih fun i hi => hzero i (by omega)
    have hunit : x / 2 ^ (C - b * (j + 1)) % 2 ^ b = 0 := hzero j le_rfl hj
    rw [show C - b * j = C - b * (j + 1) + b by omega, Nat.pow_add, Nat.mod_mul, hrest, hunit, Nat.mul_zero]

/-- A number whose units are zero from unit `m` on packs its first `m` units. -/
theorem eq_packedValue (hC : b * slots ≤ C) (hm : m ≤ slots) (hlow : x % 2 ^ (C - b * slots) = 0)
    (hzero : ∀ j, m ≤ j → j < slots → unitValue C b x j = 0) :
    x = packedValue C b (x / 2 ^ C) ((List.range m).map (unitValue C b x)) := by
  have hle : b * m ≤ b * slots := Nat.mul_le_mul_left b hm
  rw [packedValue, accValue_unitValues (hle.trans hC), List.length_map, List.length_range]
  exact (Nat.div_mul_cancel (Nat.dvd_of_mod_eq_zero (mod_eq_zero_of_units hC hm hlow hzero))).symm

end Sys2Proof.Machine
end

section
/-! The encode transaction as one function of the string (R105, R107, R119): what its characters leave in the encoder
registers, and when and with which value it answers OK. -/

namespace Sys2Proof.Machine

/-! ### The characters of a string, one after the other -/

/-- The encoder registers after the characters of a string, up to the first error. -/
def pushAll (P : Params) : List Scalar → EncRegs → Except EncError EncRegs
  | [], e => .ok e
  | c :: cs, e =>
    match pushChar P c e with
    | .ok e' => pushAll P cs e'
    | .error x => .error x

/-- What EREAD answers where no error is latched (R119). -/
def EncRegs.value (e : EncRegs) : Bus :=
  match e.mode with
  | .empty | .err => 0
  | .ord => paddedValue e (6 * e.rem.toNat)
  | .spc => paddedValue e (15 * e.rem.toNat + slack15 (widthBits e.w))

/-- The answer that ends a transaction: the value read, or the latched error. -/
def transactionResponse : Except EncError EncRegs → Response
  | .ok e => ⟨.ok, e.value, 0⟩
  | .error x => ⟨x.status, 0, x.info⟩

variable {P : Params} {e e' : EncRegs} {c : Scalar} {cs : List Scalar} {x : EncError} {s t : State}

theorem pushAll_cons_of_ok (h : pushChar P c e = .ok e') : pushAll P (c :: cs) e = pushAll P cs e' := by
  rw [pushAll, h]

theorem pushAll_cons_of_error (h : pushChar P c e = .error x) : pushAll P (c :: cs) e = .error x := by
  rw [pushAll, h]

/-- A chosen page is in ORD or SPC mode. -/
theorem choosePage_mode (h : choosePage P c e = .ok e') : e'.mode = .ord ∨ e'.mode = .spc := by
  rcases choosePage_eq_ok h with ⟨-, -, rfl⟩ | ⟨p, k, -, -, rfl⟩
  · exact .inr rfl
  · exact .inl rfl

theorem pushUnit_mode (h : pushUnit P c e = .ok e') : e'.mode = e.mode := by
  cases hm : e.mode with
  | ord =>
    rw [pushUnit, hm] at h
    obtain ⟨k, -, hacc⟩ := pushOrdinary_eq_ok h
    exact (acceptUnit_mode hacc).trans hm
  | spc =>
    rw [pushUnit, hm] at h
    obtain ⟨u, -, hacc⟩ := pushSpecial_eq_ok h
    exact (acceptUnit_mode hacc).trans hm
  | empty | err =>
    rw [pushUnit, hm] at h
    cases h
    exact hm

/-- Once a page is chosen a character is one unit. -/
theorem pushChar_of_chosen (hm : e.mode ≠ .empty) : pushChar P c e = pushUnit P c e := by
  rw [pushChar, if_neg hm]

/-- The first character chooses the page and is then pushed as every later one is (R107). -/
theorem pushChar_of_empty (hm : e.mode = .empty) (h : choosePage P c e = .ok e') :
    pushChar P c e = pushChar P c e' := by
  have hchosen : e'.mode ≠ .empty := by rcases choosePage_mode h with h | h <;> simp [h]
  rw [pushChar_of_chosen hchosen, pushChar, if_pos hm, h]

theorem pushChar_of_empty_error (hm : e.mode = .empty) (h : choosePage P c e = .error x) :
    pushChar P c e = .error x := by
  rw [pushChar, if_pos hm, h]

/-- An accepted character latches no error. -/
theorem pushChar_mode (hm : e.mode ≠ .err) (h : pushChar P c e = .ok e') : e'.mode ≠ .err := by
  by_cases hempty : e.mode = .empty
  · cases hchoose : choosePage P c e with
    | error x => rw [pushChar_of_empty_error hempty hchoose] at h; cases h
    | ok e₁ =>
      have hmode := choosePage_mode hchoose
      rw [pushChar_of_empty hempty hchoose,
        pushChar_of_chosen (by rcases hmode with h | h <;> simp [h])] at h
      rw [pushUnit_mode h]
      rcases hmode with h | h <;> simp [h]
  · rw [pushChar_of_chosen hempty] at h
    rwa [pushUnit_mode h]

theorem pushAll_mode (hm : e.mode ≠ .err) (h : pushAll P cs e = .ok e') : e'.mode ≠ .err := by
  induction cs generalizing e with
  | nil => cases h; exact hm
  | cons c cs ih =>
    cases hc : pushChar P c e with
    | error x => rw [pushAll_cons_of_error hc] at h; cases h
    | ok e₁ => exact ih (pushChar_mode hm hc) (by rwa [pushAll_cons_of_ok hc] at h)

/-! ### The commands of a transaction -/

theorem exec_epush_latched (hm : s.enc.mode = .err) (c : Scalar) :
    exec (.epush c) s = .next (s.respond s.enc.err 0 s.enc.info) := by
  simp only [exec, execEpush, hm, if_true]

theorem exec_epush (hm : s.enc.mode ≠ .err) (c : Scalar) :
    exec (.epush c) s = .next (s.settle (pushChar s.params c s.enc)) := by
  simp only [exec, execEpush, hm, if_false]

theorem exec_eread_latched (hm : s.enc.mode = .err) :
    exec .eread s = .next (s.respond s.enc.err 0 s.enc.info) := by
  simp only [exec, execEread, hm]

theorem exec_eread (hm : s.enc.mode ≠ .err) : exec .eread s = .next (s.respond .ok s.enc.value 0) := by
  unfold EncRegs.value
  cases h : s.enc.mode with
  | err => exact absurd h hm
  | empty => simp only [exec, execEread, h]
  | ord => exact exec_eread_ord h
  | spc => exact exec_eread_spc h

/-- The characters after an error change no encoder register (R108). -/
theorem runCommands_epush_latched (cs : List Scalar) (hm : s.enc.mode = .err) :
    ∃ t, runCommands (cs.map .epush) s = .next t ∧ t.enc = s.enc := by
  induction cs generalizing s with
  | nil => exact ⟨s, rfl, rfl⟩
  | cons c cs ih =>
    obtain ⟨t, ht, henc⟩ := ih (s := s.respond s.enc.err 0 s.enc.info) hm
    exact ⟨t, (runCommands_cons _ (exec_epush_latched hm c)).trans ht, henc⟩

/-- EPUSH after EPUSH leaves what `pushAll` says, or its error latched. -/
theorem runCommands_epush (cs : List Scalar) (hm : s.enc.mode ≠ .err) :
    ∃ t, runCommands (cs.map .epush) s = .next t ∧
      ((∃ e, pushAll s.params cs s.enc = .ok e ∧ t.enc = e) ∨
        ∃ x e, pushAll s.params cs s.enc = .error x ∧ t.enc = EncRegs.latch e x) := by
  induction cs generalizing s with
  | nil => exact ⟨s, rfl, .inl ⟨_, rfl, rfl⟩⟩
  | cons c cs ih =>
    rw [List.map_cons, runCommands_cons _ (exec_epush hm c)]
    cases hc : pushChar s.params c s.enc with
    | ok e =>
      simp only [pushAll_cons_of_ok hc]
      exact ih (s := s.settle (.ok e)) (pushChar_mode hm hc)
    | error x =>
      obtain ⟨t, ht, henc⟩ := runCommands_epush_latched cs (s := s.settle (.error x)) rfl
      exact ⟨t, ht, .inr ⟨x, s.enc, pushAll_cons_of_error hc, henc⟩⟩

/-- What EREAD answers after the characters of a string. -/
theorem runCommands_epush_eread (cs : List Scalar) (hm : s.enc.mode ≠ .err) :
    ∃ t, runCommands (cs.map .epush ++ [.eread]) s = .next t ∧
      t.rsp = some (transactionResponse (pushAll s.params cs s.enc)) := by
  obtain ⟨t, ht, ⟨e, hpush, rfl⟩ | ⟨x, e, hpush, henc⟩⟩ := runCommands_epush cs hm
  · exact ⟨_, (runCommands_append _ _ ht).trans (runCommands_cons [] (exec_eread (pushAll_mode hm hpush))),
      by rw [hpush]; rfl⟩
  · have hlatched : t.enc.mode = .err := by rw [henc, latch_mode]
    exact ⟨_, (runCommands_append _ _ ht).trans (runCommands_cons [] (exec_eread_latched hlatched)),
      by rw [hpush, respond_rsp, henc]; rfl⟩

/-- An encode transaction answers what its characters leave in the registers ESTART wrote, whatever stood there. -/
theorem encodeResult_eq (w : Width) (cs : List Scalar) (s : State) :
    encodeResult w cs s = some (transactionResponse (pushAll s.params cs (EncRegs.start (widthCode w)))) := by
  obtain ⟨t, ht, hrsp⟩ := runCommands_epush_eread cs (s := startEncoder (widthCode w) s) (by simp [EncRegs.start])
  rw [encodeResult, encodeCommands, runCommands_cons _ (exec_ofEstart w s), ht]
  exact hrsp

/-- The transaction answers OK exactly where every character is accepted. -/
theorem encodeResult_eq_ok_iff {w : Width} {v : Bus} : encodeResult w cs s = some ⟨.ok, v, 0⟩ ↔
    ∃ e, pushAll s.params cs (EncRegs.start (widthCode w)) = .ok e ∧ e.value = v := by
  rw [encodeResult_eq, Option.some_inj]
  cases pushAll s.params cs (EncRegs.start (widthCode w)) with
  | ok e => simp [transactionResponse]
  | error x => simp [transactionResponse, encError_status_ne_ok]

/-! ### The first character -/

/-- The registers a choice of page leaves: the tag alone, and every slot free (R110 to R112). -/
def EncRegs.choose (e : EncRegs) (mode : EncMode) (p : Page) (slots : Nat) : EncRegs :=
  { e with
    mode := mode, page := p, acc := widenIndex (storedTag (tagBits (widthBits e.w)) p), rem := BitVec.ofNat 5 slots }

/-- A first character of the special block, where a special unit fits (R110). -/
theorem choosePage_of_special (h : P.InSpecial c ∧ 0 < specialSlots (widthBits e.w)) :
    choosePage P c e = .ok (e.choose .spc P.specialTag (specialSlots (widthBits e.w))) := by
  rw [choosePage, if_pos h]
  rfl

/-- A first character of a table page that the width admits (R111, R112). -/
theorem choosePage_of_ordinary {p : Page} {k : Code} (h : ¬ (P.InSpecial c ∧ 0 < specialSlots (widthBits e.w)))
    (hpage : pageOf P c = some (p, k)) (hp : tagBits (widthBits e.w) = 2 → Primary p) :
    choosePage P c e = .ok (e.choose .ord p (charSlots (widthBits e.w))) := by
  have havailable : ¬ (tagBits (widthBits e.w) = 2 ∧ ¬ Primary p) := fun ⟨ht, hnot⟩ => hnot (hp ht)
  simp only [choosePage, if_neg h, hpage, if_neg havailable]
  rfl

theorem choosePage_eq_ok_iff : choosePage P c e = .ok e' ↔
    ((P.InSpecial c ∧ 0 < specialSlots (widthBits e.w)) ∧
        e' = e.choose .spc P.specialTag (specialSlots (widthBits e.w))) ∨
    (¬ (P.InSpecial c ∧ 0 < specialSlots (widthBits e.w)) ∧ ∃ p k, pageOf P c = some (p, k) ∧
        (tagBits (widthBits e.w) = 2 → Primary p) ∧ e' = e.choose .ord p (charSlots (widthBits e.w))) := by
  constructor
  · intro h
    by_cases hspc : P.InSpecial c ∧ 0 < specialSlots (widthBits e.w)
    · cases h.symm.trans (choosePage_of_special hspc)
      exact .inl ⟨hspc, rfl⟩
    · rcases choosePage_eq_ok h with ⟨hblock, hslots, -⟩ | hord
      · exact absurd ⟨hblock, hslots⟩ hspc
      · exact .inr ⟨hspc, hord⟩
  · rintro (⟨hspc, rfl⟩ | ⟨hspc, p, k, hpage, hp, rfl⟩)
    · exact choosePage_of_special hspc
    · exact choosePage_of_ordinary hspc hpage hp

/-- A string is pushed onto the page its first character chooses. -/
theorem pushAll_of_empty (hm : e.mode = .empty) : pushAll P (c :: cs) e = .ok e' ↔
    ∃ e₁, choosePage P c e = .ok e₁ ∧ pushAll P (c :: cs) e₁ = .ok e' := by
  cases h : choosePage P c e with
  | error x => simp [pushAll_cons_of_error (pushChar_of_empty_error hm h)]
  | ok e₁ => simp [pushAll, pushChar_of_empty hm h]

/-! ### The units of a string -/

/-- The characters of a mode on a page are units of `b` bits, `unitOf` saying which (R113 to R118). -/
structure PushesUnits (P : Params) (mode : EncMode) (page : Page) {b : Nat} (unitOf : Scalar → Option (BitVec b)) :
    Prop where
  unit : ∀ {c e u}, e.mode = mode → e.page = page → unitOf c = some u →
    pushChar P c e = acceptUnit b (widenIndex u) e
  missing : ∀ {c e}, e.mode = mode → e.page = page → unitOf c = none →
    pushChar P c e = .error (.missingFromPage c)

theorem pushesUnits_ord (P : Params) (p : Page) : PushesUnits P .ord p (codeOf P p) where
  unit hm hp hu := by rw [pushChar_of_chosen (by simp [hm]), pushUnit, hm]; simp only [pushOrdinary, hp, hu]
  missing hm hp hu := by rw [pushChar_of_chosen (by simp [hm]), pushUnit, hm]; simp only [pushOrdinary, hp, hu]

theorem pushesUnits_spc (P : Params) : PushesUnits P .spc P.specialTag (spcUnit P) where
  unit hm _ hu := by rw [pushChar_of_chosen (by simp [hm]), pushUnit, hm]; simp only [pushSpecial, hu]
  missing hm _ hu := by rw [pushChar_of_chosen (by simp [hm]), pushUnit, hm]; simp only [pushSpecial, hu]

/-- The registers after the units `us` of `b` bits. -/
def EncRegs.accept (e : EncRegs) (b : Nat) (us : List Nat) : EncRegs :=
  { e with acc := BitVec.ofNat 128 (accValue b e.acc.toNat us), rem := BitVec.ofNat 5 (e.rem.toNat - us.length) }

theorem accept_nil (e : EncRegs) (b : Nat) : e.accept b [] = e := by simp [EncRegs.accept, accValue]

/-- The accumulator of 128 bits holds the sum of tag and units cut off to 128 bits. -/
theorem accValue_mod (b a : Nat) (us : List Nat) :
    accValue b (a % 2 ^ 128) us % 2 ^ 128 = accValue b a us % 2 ^ 128 := by
  induction us using List.reverseRecOn with
  | nil => exact Nat.mod_mod _ _
  | append_singleton us u ih =>
    rw [accValue_append, accValue_append, Nat.add_mod, Nat.mul_mod, ih, ← Nat.mul_mod, ← Nat.add_mod]

theorem accept_cons (e : EncRegs) (b u : Nat) (us : List Nat) :
    (e.accept b [u]).accept b us = e.accept b (u :: us) := by
  have hrem := e.rem.isLt
  have hacc : (BitVec.ofNat 128 (accValue b (e.accept b [u]).acc.toNat us)) =
      BitVec.ofNat 128 (accValue b e.acc.toNat (u :: us)) :=
    BitVec.eq_of_toNat_eq (by
      rw [EncRegs.accept, BitVec.toNat_ofNat, BitVec.toNat_ofNat, BitVec.toNat_ofNat]
      exact accValue_mod b (accValue b e.acc.toNat [u]) us)
  simp only [EncRegs.accept, EncRegs.mk.injEq, true_and, and_true]
  refine ⟨hacc, BitVec.eq_of_toNat_eq ?_⟩
  simp
  omega

section
variable {P : Params} {e e' : EncRegs} {cs : List Scalar} {b : Nat} {mode : EncMode} {page : Page}
  {unitOf : Scalar → Option (BitVec b)}

/-- A string is accepted on a chosen page exactly where every character has a unit there and the slots suffice. -/
theorem pushAll_eq_ok_iff (hunits : PushesUnits P mode page unitOf) (hb : b ≤ 128) (hm : e.mode = mode)
    (hp : e.page = page) : pushAll P cs e = .ok e' ↔ ∃ us : List (BitVec b),
      cs.map unitOf = us.map some ∧ us.length ≤ e.rem.toNat ∧ e' = e.accept b (us.map BitVec.toNat) := by
  induction cs generalizing e with
  | nil =>
    constructor
    · intro h
      cases h
      exact ⟨[], rfl, Nat.zero_le _, (accept_nil _ b).symm⟩
    · rintro ⟨us, hus, -, rfl⟩
      cases List.map_eq_nil_iff.1 hus.symm
      rw [List.map_nil, accept_nil]
      rfl
  | cons c cs ih =>
    cases hu : unitOf c with
    | none =>
      rw [pushAll_cons_of_error (hunits.missing hm hp hu)]
      refine ⟨nofun, ?_⟩
      rintro ⟨_ | ⟨u, us⟩, hus, -⟩ <;> simp [hu] at hus
    | some u =>
      have hpush := hunits.unit hm hp hu
      rcases Nat.eq_zero_or_pos e.rem.toNat with hrem | hrem
      · rw [acceptUnit_of_zero hrem] at hpush
        rw [pushAll_cons_of_error hpush]
        refine ⟨nofun, ?_⟩
        rintro ⟨us, hus, hlen, -⟩
        have := congrArg List.length hus
        simp at this
        omega
      · rw [acceptUnit_of_pos hrem (widenIndex_lt u hb) hb, widenIndex_toNat u hb] at hpush
        have hrem' : (e.accept b [u.toNat]).rem.toNat = e.rem.toNat - 1 := by
          have := e.rem.isLt
          simp [EncRegs.accept]
          omega
        rw [pushAll_cons_of_ok hpush]
        refine (ih (e := e.accept b [u.toNat]) hm hp).trans ?_
        simp only [hrem', accept_cons]
        constructor
        · rintro ⟨us, hus, hlen, rfl⟩
          exact ⟨u :: us, by simp [hu, hus], by simp; omega, rfl⟩
        · rintro ⟨_ | ⟨u', us⟩, hus, hlen, rfl⟩
          · simp at hus
          · simp only [List.map_cons, hu, List.cons.injEq, Option.some_inj] at hus
            obtain ⟨rfl, hus⟩ := hus
            exact ⟨us, hus, by simp at hlen; omega, rfl⟩

end

/-! ### The packed value of a string -/

/-- `v` packs the string `cs` on page `p`: each character has a unit of `b` bits, the slots suffice, and the units stand
below the stored tag. -/
def Packs {b : Nat} (n slots : Nat) (unitOf : Scalar → Option (BitVec b)) (p : Page) (cs : List Scalar)
    (v : Bus) : Prop :=
  ∃ us : List (BitVec b), cs.map unitOf = us.map some ∧ us.length ≤ slots ∧
    v.toNat = packedValue (codingBits n) b (storedTag (tagBits n) p).toNat (us.map BitVec.toNat)

theorem units_lt {b : Nat} (us : List (BitVec b)) : ∀ u ∈ us.map BitVec.toNat, u < 2 ^ b := by
  intro u hu
  obtain ⟨k, -, rfl⟩ := List.mem_map.1 hu
  exact k.isLt

/-- Where the units and the pad shift fill the coding bits, the registers after the units hold the packed value. -/
theorem paddedValue_accept {e : EncRegs} {mode : EncMode} {p : Page} {b slots pad : Nat} {us : List (BitVec b)}
    (hw : e.w.toNat ≤ 4) (hpad : b * us.length + pad = codingBits (widthBits e.w)) :
    (paddedValue ((e.choose mode p slots).accept b (us.map BitVec.toNat)) pad).toNat =
      packedValue (codingBits (widthBits e.w)) b (storedTag (tagBits (widthBits e.w)) p).toNat
        (us.map BitVec.toNat) := by
  have hn := widthFacts hw
  have hlen : (us.map BitVec.toNat).length = us.length := List.length_map _
  have hbound := accValue_lt b _ _ _ (storedTag_lt hn p) (units_lt us)
  have hpow : 2 ^ (tagBits (widthBits e.w) + b * (us.map BitVec.toNat).length) ≤ 2 ^ 128 := by
    have hsplit := hn.split
    have hle := hn.le
    exact Nat.pow_le_pow_right (by decide) (by rw [hlen]; omega)
  have hacc : ((e.choose mode p slots).accept b (us.map BitVec.toNat)).acc.toNat =
      accValue b (storedTag (tagBits (widthBits e.w)) p).toNat (us.map BitVec.toNat) := by
    have hchosen : (e.choose mode p slots).acc.toNat = (storedTag (tagBits (widthBits e.w)) p).toNat :=
      widenIndex_toNat _ (by decide)
    rw [EncRegs.accept, hchosen, bus_ofNat_toNat (hbound.trans_le hpow)]
  have hpad' : b * (us.map BitVec.toNat).length + pad = codingBits (widthBits e.w) := by rwa [hlen]
  have hvalue := (paddedValue_toNat (e := (e.choose mode p slots).accept b (us.map BitVec.toNat)) hw hpad'
    (units_lt us) hacc).2
  rw [hvalue, packedValue, accValue_mul_pow _ _ _ _ (by omega)]
  rfl

@[simp] theorem accept_choose_w (e : EncRegs) (mode : EncMode) (p : Page) (slots b : Nat) (us : List Nat) :
    ((e.choose mode p slots).accept b us).w = e.w := rfl

theorem choose_rem (e : EncRegs) (mode : EncMode) (p : Page) {slots : Nat} (hs : slots ≤ 21) :
    (e.choose mode p slots).rem.toNat = slots := by
  rw [EncRegs.choose, BitVec.toNat_ofNat, Nat.mod_eq_of_lt (by omega)]

theorem accept_choose_rem {e : EncRegs} {mode : EncMode} {p : Page} {b slots : Nat} (us : List Nat)
    (hs : slots ≤ 21) : ((e.choose mode p slots).accept b us).rem.toNat = slots - us.length := by
  rw [EncRegs.accept, choose_rem e mode p hs, BitVec.toNat_ofNat, Nat.mod_eq_of_lt (by omega)]

/-- In ORD mode EREAD pads the free slots (R119). -/
theorem value_accept_ord {e : EncRegs} {p : Page} {us : List Code} (hw : e.w.toNat ≤ 4)
    (hlen : us.length ≤ charSlots (widthBits e.w)) :
    ((e.choose .ord p (charSlots (widthBits e.w))).accept 6 (us.map BitVec.toNat)).value.toNat =
      packedValue (codingBits (widthBits e.w)) 6 (storedTag (tagBits (widthBits e.w)) p).toNat
        (us.map BitVec.toNat) := by
  have hn := widthFacts hw
  have hord := hn.ord
  refine paddedValue_accept hw ?_
  rw [accept_choose_rem _ hn.ordLe, List.length_map]
  omega

/-- In SPC mode EREAD pads the free slots and the slack bits below them (R119). -/
theorem value_accept_spc {e : EncRegs} {p : Page} {us : List SpcUnit} (hw : e.w.toNat ≤ 4)
    (hlen : us.length ≤ specialSlots (widthBits e.w)) :
    ((e.choose .spc p (specialSlots (widthBits e.w))).accept 15 (us.map BitVec.toNat)).value.toNat =
      packedValue (codingBits (widthBits e.w)) 15 (storedTag (tagBits (widthBits e.w)) p).toNat
        (us.map BitVec.toNat) := by
  have hn := widthFacts hw
  have hspc := hn.spc
  have hslots := hn.spcLe.trans hn.ordLe
  refine paddedValue_accept hw ?_
  rw [accept_choose_rem _ hslots, List.length_map, accept_choose_w]
  omega

/-- On a chosen page a string is accepted, and `v` read after it, exactly where `v` packs the string. -/
theorem pushAll_value_iff {P : Params} {e : EncRegs} {cs : List Scalar} {v : Bus} {mode : EncMode} {p : Page}
    {b slots : Nat} {unitOf : Scalar → Option (BitVec b)} (hunits : PushesUnits P mode p unitOf) (hb : b ≤ 128)
    (hs : slots ≤ 21)
    (hvalue : ∀ us : List (BitVec b), us.length ≤ slots →
      ((e.choose mode p slots).accept b (us.map BitVec.toNat)).value.toNat =
        packedValue (codingBits (widthBits e.w)) b (storedTag (tagBits (widthBits e.w)) p).toNat
          (us.map BitVec.toNat)) :
    (∃ e', pushAll P cs (e.choose mode p slots) = .ok e' ∧ e'.value = v) ↔
      Packs (widthBits e.w) slots unitOf p cs v := by
  have hok := fun e' => pushAll_eq_ok_iff (cs := cs) (e := e.choose mode p slots) (e' := e') hunits hb rfl rfl
  simp only [hok, choose_rem e mode p hs, Packs]
  constructor
  · rintro ⟨e', ⟨us, hus, hlen, rfl⟩, rfl⟩
    exact ⟨us, hus, hlen, hvalue us hlen⟩
  · rintro ⟨us, hus, hlen, hv⟩
    exact ⟨_, ⟨us, hus, hlen, rfl⟩, BitVec.eq_of_toNat_eq ((hvalue us hlen).trans hv.symm)⟩

/-- A string that is not empty encodes to the values that pack it in the mode and on the page its first character
chooses (R105, R110 to R118, R122). -/
theorem encodeResult_cons_iff {w : Width} {n : Nat} (hn : n = widthBits (widthCode w)) (c : Scalar) (cs : List Scalar)
    (v : Bus) (s : State) : encodeResult w (c :: cs) s = some ⟨.ok, v, 0⟩ ↔
    ((s.params.InSpecial c ∧ 0 < specialSlots n) ∧
      Packs n (specialSlots n) (spcUnit s.params) s.params.specialTag (c :: cs) v) ∨
    (¬ (s.params.InSpecial c ∧ 0 < specialSlots n) ∧ ∃ p k, pageOf s.params c = some (p, k) ∧
      (tagBits n = 2 → Primary p) ∧ Packs n (charSlots n) (codeOf s.params p) p (c :: cs) v) := by
  subst hn
  have hw := widthCode_le w
  have hfacts := widthFacts hw
  have hspc := pushAll_value_iff (e := EncRegs.start (widthCode w)) (cs := c :: cs) (v := v)
    (pushesUnits_spc s.params) (by decide) (hfacts.spcLe.trans hfacts.ordLe) fun us hlen => value_accept_spc hw hlen
  have hord := fun p => pushAll_value_iff (e := EncRegs.start (widthCode w)) (cs := c :: cs) (v := v)
    (pushesUnits_ord s.params p) (by decide) hfacts.ordLe fun us hlen => value_accept_ord hw hlen
  rw [encodeResult_eq_ok_iff]
  simp only [pushAll_of_empty (e := EncRegs.start (widthCode w)) rfl, choosePage_eq_ok_iff]
  constructor
  · rintro ⟨e', ⟨e₁, ⟨hc, rfl⟩ | ⟨hc, p, k, hpage, hp, rfl⟩, hpush⟩, hv⟩
    · exact .inl ⟨hc, hspc.1 ⟨e', hpush, hv⟩⟩
    · exact .inr ⟨hc, p, k, hpage, hp, (hord p).1 ⟨e', hpush, hv⟩⟩
  · rintro (⟨hc, hpacks⟩ | ⟨hc, p, k, hpage, hp, hpacks⟩)
    · obtain ⟨e', hpush, hv⟩ := hspc.2 hpacks
      exact ⟨e', ⟨_, .inl ⟨hc, rfl⟩, hpush⟩, hv⟩
    · obtain ⟨e', hpush, hv⟩ := (hord p).2 hpacks
      exact ⟨e', ⟨_, .inr ⟨hc, p, k, hpage, hp, rfl⟩, hpush⟩, hv⟩

/-- The empty string encodes to 0 alone (R159). -/
theorem encodeResult_nil (w : Width) (s : State) : encodeResult w [] s = some ⟨.ok, 0, 0⟩ :=
  encodeResult_eq w [] s

end Sys2Proof.Machine
end

section
/-! The lookups under valid parameters (R5, R88, R89, R92, R98): the codes of a page and the units of the special block
are exactly the numbers in their ranges. -/

namespace Sys2Proof.Machine

variable {P : Params} {p : Page} {c : Scalar} {k : Code}

/-- The code of a character is the least code of the page at which it stands (R88). -/
theorem codeOf_eq_some_iff : codeOf P p c = some k ↔
    c ≠ P.sentinel ∧ c ≠ P.termChar ∧ 1 ≤ k.toNat ∧ P.entry p k = c ∧
      ∀ j : Code, 1 ≤ j.toNat → j < k → P.entry p j ≠ c := by
  have hk := k.isLt
  have hsearch := find?_codes_eq_some (fun k => romRead P p k == c) 63 1 (by decide) k
  simp only [romRead, beq_iff_eq, beq_eq_false_iff_ne] at hsearch
  unfold codeOf
  split
  case isTrue h => exact ⟨nofun, fun ⟨hs, ht, _⟩ => (h.elim hs ht).elim⟩
  case isFalse h =>
    obtain ⟨hs, ht⟩ := not_or.1 h
    exact hsearch.trans ⟨fun ⟨h1, _, he, hj⟩ => ⟨hs, ht, h1, he, hj⟩,
      fun ⟨_, _, h1, he, hj⟩ => ⟨h1, by omega, he, hj⟩⟩

/-- Of the entries 1 to `n_p` of a valid page the later is the greater (V2). -/
theorem entry_lt_entry (h2 : P.V2) (hp : P.ValidPage p) {j : Code} (hj : 1 ≤ j.toNat) (hjk : j < k)
    (hk : k.toNat ≤ P.count p) : P.entry p j < P.entry p k := by
  have hcount := count_le P p
  have key : ∀ m, j.toNat + 1 ≤ m → m ≤ P.count p → P.entry p j < P.entry p (BitVec.ofNat 6 m) := by
    intro m hm
    induction m, hm using Nat.le_induction with
    | base =>
      intro hle
      rw [BitVec.ofNat_add, BitVec.ofNat_toNat, BitVec.setWidth_eq]
      exact h2 p hp j hj hle
    | succ m hm ih =>
      intro hle
      have hlt : (BitVec.ofNat 6 m).toNat = m := by rw [BitVec.toNat_ofNat, Nat.mod_eq_of_lt (by omega)]
      have hstep := h2 p hp (BitVec.ofNat 6 m) (by omega) (by omega)
      rw [BitVec.ofNat_add]
      exact BitVec.lt_trans (ih (by omega)) hstep
  have := key k.toNat hjk hk
  rwa [BitVec.ofNat_toNat, BitVec.setWidth_eq] at this

theorem code_ne_zero (h : 1 ≤ k.toNat) : k ≠ 0 := by
  rintro rfl
  exact absurd h (by decide)

/-- Each code from 1 to `n_p` of a valid page is the code of the character there (R98). -/
theorem codeOf_entry (hP : P.Valid) (hp : P.ValidPage p) (h1 : 1 ≤ k.toNat) (hk : k.toNat ≤ P.count p) :
    codeOf P p (P.entry p k) = some k := by
  have ⟨_, _, hassigned, _⟩ := hp
  have ⟨_, hterm, _⟩ := hP.v5
  have hs := hassigned k h1 hk
  exact codeOf_eq_some_iff.2 ⟨hs, hterm p k (code_ne_zero h1) hs, h1, rfl,
    fun j hj hjk => BitVec.ne_of_lt (entry_lt_entry hP.v2 hp hj hjk hk)⟩

/-- A character with a code is a real character of the page. -/
theorem realChar_of_codeOf (h : codeOf P p c = some k) : P.RealChar p c := by
  obtain ⟨he, h1, hs, -⟩ := entry_of_codeOf h
  exact ⟨k, code_ne_zero h1, he, hs⟩

/-- A page that gives a code is valid, and the code is at most `n_p` (V1, R98). -/
theorem validPage_of_codeOf (hP : P.Valid) (h : codeOf P p c = some k) :
    P.ValidPage p ∧ k.toNat ≤ P.count p := by
  obtain ⟨he, -, hs, -⟩ := entry_of_codeOf h
  rcases hP.v1 p with hreserved | hvalid
  · exact absurd (he.symm.trans (hreserved k)) hs
  · have ⟨_, _, _, habove⟩ := hvalid
    exact ⟨hvalid, not_lt.1 fun hlt => hs (he.symm.trans (habove k hlt))⟩

/-- With valid parameters a page that holds a character is the one `pageOf` finds (V7). -/
theorem pageOf_of_codeOf (hP : P.Valid) (h : codeOf P p c = some k) : pageOf P c = some (p, k) := by
  have hlt := p.isLt
  have honly : ∀ q : Page, q < p → codeOf P q c = none := by
    intro q hq
    by_contra hne
    obtain ⟨j, hj⟩ := Option.ne_none_iff_exists'.1 hne
    exact BitVec.ne_of_lt hq (hP.v7 q p c (realChar_of_codeOf hj) (realChar_of_codeOf h))
  rw [pageOf, pageIndices, List.range_eq_range', findSome?_pages_eq_some (fun p => codeOf P p c) 16 0 (by decide)]
  exact ⟨Nat.zero_le _, by omega, h, fun q _ => honly q⟩

/-- The units of the special block are 1 to its size, in the order of its characters (R92, V8). -/
theorem spcUnit_eq_some_iff (hP : P.Valid) {u : SpcUnit} : spcUnit P c = some u ↔
    1 ≤ u.toNat ∧ u.toNat ≤ P.highBound.toNat - P.lowBound.toNat + 1 ∧
      c.toNat + 1 = P.lowBound.toNat + u.toNat := by
  obtain ⟨hbounds, hsize, -⟩ := hP.v8
  rw [BitVec.le_def] at hbounds
  constructor
  · intro h
    by_cases hc : P.InSpecial c
    · obtain ⟨u', hu', hval⟩ := spcUnit_of_inSpecial hc
      obtain ⟨hlow, hhigh⟩ := hc
      rw [BitVec.le_def] at hlow hhigh
      cases h.symm.trans hu'
      omega
    · rw [spcUnit_of_not_inSpecial hc] at h
      cases h
  · rintro ⟨h1, hu, hval⟩
    have hc : P.InSpecial c := ⟨by rw [BitVec.le_def]; omega, by rw [BitVec.le_def]; omega⟩
    obtain ⟨u', hu', hval'⟩ := spcUnit_of_inSpecial hc
    rw [hu']
    exact congrArg some (BitVec.eq_of_toNat_eq (by omega))

theorem inSpecial_of_spcUnit {u : SpcUnit} (h : spcUnit P c = some u) : P.InSpecial c := by
  by_contra hc
  rw [spcUnit_of_not_inSpecial hc] at h
  cases h

/-- Each unit from 1 to the size of the block is the unit of its character (R92). -/
theorem spcUnit_spcChar (hP : P.Valid) {u : SpcUnit} (h1 : 1 ≤ u.toNat)
    (hu : u.toNat ≤ P.highBound.toNat - P.lowBound.toNat + 1) : spcUnit P (spcChar P u) = some u := by
  obtain ⟨hbounds, -, -⟩ := hP.v8
  have hhigh := P.highBound.isLt
  rw [BitVec.le_def] at hbounds
  rw [spcUnit_eq_some_iff hP, spcChar_toNat P u h1]
  omega

end Sys2Proof.Machine
end

section
/-! The canonical values (R53): what a string packs to, told by the units of the value, is one of the forms the spec
lists. -/

namespace Sys2Proof.Machine

variable {P : Params} {n : Nat} {v : Bus} {p : Page} {cs : List Scalar}

/-! ### Packing told by the units of the value -/

theorem tagField_toNat (hn : WidthFacts n) (hv : v.toNat < 2 ^ n) :
    (tagField n v).toNat = v.toNat / 2 ^ codingBits n ∧ (tagField n v).toNat < 2 ^ tagBits n := by
  have hlow : lowBits n v = v := BitVec.eq_of_toNat_eq (by rw [lowBits_toNat n v hn.le, Nat.mod_eq_of_lt hv])
  simpa [hlow, Nat.mod_eq_of_lt hv] using tagField_lowBits hn v

/-- Storing what was normalised gives the stored tag back (R50). -/
theorem storedTag_normTag {t : Nat} (ht : t = 2 ∨ t = 4) {tag : Page} (h : tag.toNat < 2 ^ t) :
    storedTag t (normTag t tag) = tag := by
  apply BitVec.eq_of_toNat_eq
  rw [storedTag_toNat, normTag_toNat]
  rcases ht with rfl | rfl
  · simp at h ⊢
    omega
  · simp

/-- A value packs a string exactly when its tag is the stored one, its units are the characters' and zeros after them,
and the bits below the last slot are zeros. -/
theorem packs_iff {b slots : Nat} {unitOf : Scalar → Option (BitVec b)} (hn : WidthFacts n)
    (hfit : b * slots ≤ codingBits n) (hv : v.toNat < 2 ^ n) : Packs n slots unitOf p cs v ↔
    tagField n v = storedTag (tagBits n) p ∧ cs.length ≤ slots ∧
      (∀ j (h : j < cs.length), unitOf cs[j] = some (unitAt n b v j)) ∧
      (∀ j, cs.length ≤ j → j < slots → unitAt n b v j = 0) ∧
      v.toNat % 2 ^ (codingBits n - b * slots) = 0 := by
  obtain ⟨htag, -⟩ := tagField_toNat hn hv
  constructor
  · rintro ⟨us, hus, hlen, hval⟩
    have hcs : cs.length = us.length := by simpa using congrArg List.length hus
    have hlen' : (us.map BitVec.toNat).length = us.length := List.length_map _
    have hC : b * (us.map BitVec.toNat).length ≤ codingBits n := by
      rw [hlen']
      exact (Nat.mul_le_mul_left b hlen).trans hfit
    refine ⟨BitVec.eq_of_toNat_eq ?_, by omega, fun j hj => ?_, fun j hj hslot => BitVec.eq_of_toNat_eq ?_, ?_⟩
    · rw [htag, hval, packedValue_tag (units_lt us) hC]
    · have hunit : unitAt n b v j = us[j] := BitVec.eq_of_toNat_eq (by
        rw [unitAt_toNat_eq, hval, packedValue_unit (units_lt us) hC (by omega), List.getElem_map])
      rw [hunit]
      simpa [List.getElem?_eq_getElem hj, List.getElem?_eq_getElem (hcs ▸ hj)] using congrArg (·[j]?) hus
    · rw [unitAt_toNat_eq, hval]
      exact packedValue_unit_of_le (by omega) ((Nat.mul_le_mul_left b hslot).trans hfit)
    · rw [hval]
      exact packedValue_mod (Nat.sub_le_sub_left (Nat.mul_le_mul_left b (by omega)) _)
  · rintro ⟨hstored, hlen, hunits, hzero, hlow⟩
    refine ⟨(List.range cs.length).map (unitAt n b v), ?_, by simpa using hlen, ?_⟩
    · exact List.ext_getElem (by simp) fun j h _ => by simpa using hunits j (by simpa using h)
    · have hpacked := eq_packedValue hfit hlen hlow fun j hj hslot => by
        rw [← unitAt_toNat_eq, hzero j hj hslot]
        rfl
      rw [← htag, hstored] at hpacked
      simpa [Function.comp_def, unitAt_toNat_eq] using hpacked

/-! ### The three forms -/

/-- Form (b) of R53: a page tag and codes of that page. -/
def OrdinaryForm (P : Params) (n : Nat) (v : Bus) : Prop :=
  let p := normTag (tagBits n) (tagField n v)
  P.ValidPage p ∧ (0 < specialSlots n → ¬ P.InSpecial (P.entry p (unitAt n 6 v 0))) ∧
    ∃ m, 1 ≤ m ∧ m ≤ charSlots n ∧
      (∀ j < m, 1 ≤ (unitAt n 6 v j).toNat ∧ (unitAt n 6 v j).toNat ≤ P.count p) ∧
      ∀ j, m ≤ j → j < charSlots n → unitAt n 6 v j = 0

/-- Form (c) of R53: the special tag and units of the special block. -/
def SpecialForm (P : Params) (n : Nat) (v : Bus) : Prop :=
  0 < specialSlots n ∧ normTag (tagBits n) (tagField n v) = P.specialTag ∧ v.toNat % 2 ^ slack15 n = 0 ∧
    ∃ m, 1 ≤ m ∧ m ≤ specialSlots n ∧
      (∀ j < m, 1 ≤ (unitAt n 15 v j).toNat ∧
        (unitAt n 15 v j).toNat ≤ P.highBound.toNat - P.lowBound.toNat + 1) ∧
      ∀ j, m ≤ j → j < specialSlots n → unitAt n 15 v j = 0

theorem canonicalForm_iff : CanonicalForm P n v ↔ v = 0 ∨ OrdinaryForm P n v ∨ SpecialForm P n v := Iff.rfl

/-- A string of given length m, not empty, out of a character for each place. -/
theorem exists_cons_getElem {m : Nat} (hm : 1 ≤ m) (f : Nat → Scalar) :
    ∃ cs, (f 0 :: cs).length = m ∧ ∀ j (h : j < (f 0 :: cs).length), (f 0 :: cs)[j] = f j := by
  refine ⟨(List.range (m - 1)).map fun j => f (j + 1), by simp; omega, ?_⟩
  rintro (_ | j) h
  · rfl
  · simp

/-- Ordinary mode packs exactly the values of form (b). -/
theorem exists_packs_ordinary_iff (hP : P.Valid) (hn : WidthFacts n) (hv : v.toNat < 2 ^ n) :
    (∃ c cs, ¬ (P.InSpecial c ∧ 0 < specialSlots n) ∧ ∃ p k, pageOf P c = some (p, k) ∧
      (tagBits n = 2 → Primary p) ∧ Packs n (charSlots n) (codeOf P p) p (c :: cs) v) ↔ OrdinaryForm P n v := by
  have hfit : 6 * charSlots n ≤ codingBits n := hn.ord.ge
  constructor
  · rintro ⟨c, cs, hfirst, p, k, hpage, hprimary, hpacks⟩
    obtain ⟨hstored, hlen, hunits, hzero, -⟩ := (packs_iff hn hfit hv).1 hpacks
    have hp : normTag (tagBits n) (tagField n v) = p := by
      rw [hstored, normTag_storedTag _ _ fun h4 => hprimary (hn.tag.resolve_right h4)]
    have hhead : codeOf P p c = some (unitAt n 6 v 0) := hunits 0 (by simp)
    obtain ⟨hentry, -⟩ := entry_of_codeOf hhead
    unfold OrdinaryForm
    rw [hp]
    refine ⟨(validPage_of_codeOf hP hhead).1, fun hslots hblock => hfirst ⟨hentry ▸ hblock, hslots⟩,
      (c :: cs).length, by simp, hlen, fun j hj => ?_, hzero⟩
    obtain ⟨-, h1, -⟩ := entry_of_codeOf (hunits j hj)
    exact ⟨h1, (validPage_of_codeOf hP (hunits j hj)).2⟩
  · intro hform
    obtain ⟨hvalid, hfirst, m, hm, hslots, hcodes, hzero⟩ := hform
    obtain ⟨cs, hlen, hget⟩ := exists_cons_getElem hm fun j =>
      P.entry (normTag (tagBits n) (tagField n v)) (unitAt n 6 v j)
    have hcode : ∀ j < m, codeOf P (normTag (tagBits n) (tagField n v))
        (P.entry (normTag (tagBits n) (tagField n v)) (unitAt n 6 v j)) = some (unitAt n 6 v j) := fun j hj =>
      codeOf_entry hP hvalid (hcodes j hj).1 (hcodes j hj).2
    refine ⟨_, cs, fun ⟨hblock, hpos⟩ => hfirst hpos hblock, _, _, pageOf_of_codeOf hP (hcode 0 hm),
      fun ht => primary_normTag (by omega) _, (packs_iff hn hfit hv).2 ⟨?_, by omega, ?_, by rwa [hlen], ?_⟩⟩
    · exact (storedTag_normTag hn.tag (tagField_toNat hn hv).2).symm
    · intro j hj
      rw [hget j hj]
      exact hcode j (by omega)
    · rw [hn.ord, Nat.sub_self]
      exact Nat.mod_one _

/-- Special mode packs exactly the values of form (c). -/
theorem exists_packs_special_iff (hP : P.Valid) (hn : WidthFacts n) (hv : v.toNat < 2 ^ n) :
    (∃ c cs, (P.InSpecial c ∧ 0 < specialSlots n) ∧
      Packs n (specialSlots n) (spcUnit P) P.specialTag (c :: cs) v) ↔ SpecialForm P n v := by
  have hfit : 15 * specialSlots n ≤ codingBits n := by
    have := hn.spc
    omega
  have hslack : codingBits n - 15 * specialSlots n = slack15 n := by
    have := hn.spc
    omega
  have hprimary : Primary P.specialTag := hP.v9
  constructor
  · rintro ⟨c, cs, ⟨-, hpos⟩, hpacks⟩
    obtain ⟨hstored, hlen, hunits, hzero, hlow⟩ := (packs_iff hn hfit hv).1 hpacks
    refine ⟨hpos, by rw [hstored, normTag_storedTag _ _ fun _ => hprimary], hslack ▸ hlow, (c :: cs).length,
      by simp, hlen, fun j hj => ?_, hzero⟩
    obtain ⟨h1, hle, -⟩ := (spcUnit_eq_some_iff hP).1 (hunits j hj)
    exact ⟨h1, hle⟩
  · rintro ⟨hpos, htag, hlow, m, hm, hslots, hcodes, hzero⟩
    obtain ⟨cs, hlen, hget⟩ := exists_cons_getElem hm fun j => spcChar P (unitAt n 15 v j)
    have hunit : ∀ j < m, spcUnit P (spcChar P (unitAt n 15 v j)) = some (unitAt n 15 v j) := fun j hj =>
      spcUnit_spcChar hP (hcodes j hj).1 (hcodes j hj).2
    refine ⟨_, cs, ⟨inSpecial_of_spcUnit (hunit 0 hm), hpos⟩,
      (packs_iff hn hfit hv).2 ⟨?_, by omega, ?_, by rwa [hlen], by rwa [hslack]⟩⟩
    · rw [← htag, storedTag_normTag hn.tag (tagField_toNat hn hv).2]
    · intro j hj
      rw [hget j hj]
      exact hunit j (by omega)

/-- A value is canonical when it is 0, or a string packs to it in ordinary or in special mode. -/
theorem canonical_iff {w : Width} {s : State} (hn : n = widthBits (widthCode w)) : Canonical w v s ↔ v = 0 ∨
    (∃ c cs, ¬ (s.params.InSpecial c ∧ 0 < specialSlots n) ∧ ∃ p k, pageOf s.params c = some (p, k) ∧
      (tagBits n = 2 → Primary p) ∧ Packs n (charSlots n) (codeOf s.params p) p (c :: cs) v) ∨
    (∃ c cs, (s.params.InSpecial c ∧ 0 < specialSlots n) ∧
      Packs n (specialSlots n) (spcUnit s.params) s.params.specialTag (c :: cs) v) := by
  constructor
  · rintro ⟨_ | ⟨c, cs⟩, h⟩
    · cases (encodeResult_nil w s).symm.trans h
      exact .inl rfl
    · rcases (encodeResult_cons_iff hn c cs v s).1 h with h | h
      · exact .inr (.inr ⟨c, cs, h⟩)
      · exact .inr (.inl ⟨c, cs, h⟩)
  · rintro (rfl | ⟨c, cs, h⟩ | ⟨c, cs, h⟩)
    · exact ⟨[], encodeResult_nil w s⟩
    · exact ⟨c :: cs, (encodeResult_cons_iff hn c cs v s).2 (.inr h)⟩
    · exact ⟨c :: cs, (encodeResult_cons_iff hn c cs v s).2 (.inl h)⟩

/-- Settles O58: the strings of each mode pack to the values of its form. -/
theorem canonicalValuesAreExactly : Obligations.CanonicalValuesAreExactly := by
  unfold Obligations.CanonicalValuesAreExactly
  intro w v s hP hv
  have hn := widthFacts (widthCode_le w)
  rw [canonical_iff rfl, canonicalForm_iff, exists_packs_ordinary_iff hP hn hv, exists_packs_special_iff hP hn hv]

end Sys2Proof.Machine
end

section
/-! The descriptor and the command with no effect: the constants of the five widths (R70 to R74), DESC (R80) and
NOP (R81). -/

namespace Sys2Proof.Machine

/-- Settles O17: each constant is computed from N at each of the five widths. -/
theorem descriptorConstants : Obligations.DescriptorConstants := by
  unfold Obligations.DescriptorConstants
  refine ⟨fun w => ?tag, fun w => ?coding, fun w => ?chars, fun w => ?specials, rfl, rfl, rfl⟩
  all_goals cases w <;> rfl

/-- DESC answers the descriptor word of its width's constants and writes the response only. -/
theorem exec_ofDesc_of_constants {w : Width} {t chars specials : Nat} (s : State)
    (ht : tagBits (widthBits (widthCode w)) = t) (hchars : charSlots (widthBits (widthCode w)) = chars)
    (hspecials : specialSlots (widthBits (widthCode w)) = specials) :
    exec (.ofDesc w) s = .next { s with rsp := some ⟨.ok, dataOfDescriptor t chars specials, 0⟩ } := by
  subst ht hchars hspecials
  exact exec_ofDesc w s

/-- Settles O18: the descriptor word of each row of the table of O17. -/
theorem descAnswersConstants : Obligations.DescAnswersConstants := by
  unfold Obligations.DescAnswersConstants
  obtain ⟨ht, -, hchars, hspecials, -⟩ := descriptorConstants
  have hdesc (s : State) (w : Width) := exec_ofDesc_of_constants s (ht w) (hchars w) (hspecials w)
  exact fun s => ⟨hdesc s .w8, hdesc s .w16, hdesc s .w32, hdesc s .w64, hdesc s .w128⟩

theorem exec_nop (s : State) : exec .nop s = .next (s.respond .ok 0 0) := rfl

/-- Settles O19: opcode 0 decodes to NOP before `w` and `arg` are read, and NOP writes the response only. -/
theorem nopAnswersOk : Obligations.NopAnswersOk := by
  unfold Obligations.NopAnswersOk
  exact ⟨fun _ hop => decode_nop hop, exec_nop⟩

end Sys2Proof.Machine
end

section
/-! The lookups of the registry (R88 to R92, R98): what each of them finds and when it finds nothing, for any parameters,
and that a find is unique under valid ones. -/

namespace Sys2Proof.Machine

variable {P : Params} {p q : Page} {c c' : Scalar} {j k k' : Code}

/-! ### The code of a character in a page -/

/-- A page gives no code for the sentinel, for the terminator, and for what stands at none of its codes (R88). -/
theorem codeOf_eq_none_iff : codeOf P p c = none ↔
    c = P.sentinel ∨ c = P.termChar ∨ ∀ k : Code, 1 ≤ k.toNat → P.entry p k ≠ c := by
  unfold codeOf
  split
  case isTrue h => exact ⟨fun _ => h.elim .inl (.inr ∘ .inl), fun _ => rfl⟩
  case isFalse h =>
    obtain ⟨hs, ht⟩ := not_or.1 h
    simp [hs, ht, List.find?_eq_none, mem_characterCodes, romRead]

/-- An entry that is assigned belongs to a valid page and stands at most at `n_p` (V1). -/
theorem validPage_of_entry (hP : P.Valid) (h : P.entry p k ≠ P.sentinel) :
    P.ValidPage p ∧ k.toNat ≤ P.count p := by
  rcases hP.v1 p with hreserved | hvalid
  · exact absurd (hreserved k) h
  · have ⟨_, _, _, habove⟩ := hvalid
    exact ⟨hvalid, not_lt.1 fun hlt => h (habove k hlt)⟩

/-- A character stands at one code of a page at most: each such code is the one `codeOf` gives (V2). -/
theorem code_unique (hP : P.Valid) (hc : c ≠ P.sentinel) (hj : 1 ≤ j.toNat) (hk : 1 ≤ k.toNat)
    (hjc : P.entry p j = c) (hkc : P.entry p k = c) : j = k := by
  have hcode : ∀ i : Code, 1 ≤ i.toNat → P.entry p i = c → codeOf P p c = some i := by
    rintro i hi rfl
    obtain ⟨hvalid, hle⟩ := validPage_of_entry hP hc
    exact codeOf_entry hP hvalid hi hle
  exact Option.some.inj ((hcode j hj hjc).symm.trans (hcode k hk hkc))

/-- The codes of a page are in the order of its characters (R98, V2). -/
theorem codeOf_lt_codeOf (hP : P.Valid) (hlt : c < c') (h : codeOf P p c = some k)
    (h' : codeOf P p c' = some k') : k < k' := by
  obtain ⟨hvalid, hk⟩ := validPage_of_codeOf hP h
  obtain ⟨rfl, -, -⟩ := entry_of_codeOf h
  obtain ⟨rfl, h1, -⟩ := entry_of_codeOf h'
  by_contra hnot
  rcases Nat.lt_or_eq_of_le (BitVec.not_lt.1 hnot) with hback | hsame
  · exact BitVec.lt_asymm hlt (entry_lt_entry hP.v2 hvalid h1 hback hk)
  · obtain rfl := BitVec.eq_of_toNat_eq hsame
    exact BitVec.lt_irrefl _ hlt

/-- Settles O20: the two outcomes of the search, and the uniqueness that V2 gives. -/
theorem codeOfIsLeastMatch : Obligations.CodeOfIsLeastMatch := by
  unfold Obligations.CodeOfIsLeastMatch
  exact fun P p c => ⟨fun k => codeOf_eq_some_iff, codeOf_eq_none_iff,
    fun hP hc j k hj hk hjc hkc => code_unique hP hc hj hk hjc hkc⟩

/-- Settles O27: a code is a place of the page, each place up to `n_p` has its code, and both ascend. -/
theorem lookupsAgreeOnValidPages : Obligations.LookupsAgreeOnValidPages := by
  unfold Obligations.LookupsAgreeOnValidPages
  intro P p hP hp
  refine ⟨fun c k h => ?_, fun k h1 hk => codeOf_entry hP hp h1 hk, fun c c' k k' => codeOf_lt_codeOf hP⟩
  obtain ⟨hentry, h1, -⟩ := entry_of_codeOf h
  obtain ⟨-, hk⟩ := validPage_of_codeOf hP h
  exact ⟨hentry, h1, hk⟩

/-! ### The page of a character -/

/-- The page of a character is the lowest that has a code for it (R89). -/
theorem pageOf_eq_some_iff : pageOf P c = some (p, k) ↔
    codeOf P p c = some k ∧ ∀ q : Page, q < p → codeOf P q c = none := by
  have hp := p.isLt
  have hsearch := findSome?_pages_eq_some (fun p => codeOf P p c) 16 0 (by decide) p k
  rw [← List.range_eq_range'] at hsearch
  exact hsearch.trans ⟨fun ⟨_, _, h, hlow⟩ => ⟨h, fun q => hlow q (Nat.zero_le _)⟩,
    fun ⟨h, hlow⟩ => ⟨Nat.zero_le _, by omega, h, fun q _ => hlow q⟩⟩

theorem pageOf_eq_none_iff : pageOf P c = none ↔ ∀ p : Page, codeOf P p c = none := by
  simp [pageOf, List.findSome?_eq_none_iff, mem_pageIndices]

/-- With valid parameters a character has a code in one page at most (V7). -/
theorem page_unique (hP : P.Valid) (hp : codeOf P p c ≠ none) (hq : codeOf P q c ≠ none) : p = q := by
  obtain ⟨k, hk⟩ := Option.ne_none_iff_exists'.1 hp
  obtain ⟨j, hj⟩ := Option.ne_none_iff_exists'.1 hq
  exact hP.v7 p q c (realChar_of_codeOf hk) (realChar_of_codeOf hj)

/-- Settles O21: the two outcomes of the search over the pages, and the uniqueness that V7 gives. -/
theorem pageOfIsLowestPage : Obligations.PageOfIsLowestPage := by
  unfold Obligations.PageOfIsLowestPage
  exact fun P c => ⟨fun p k => pageOf_eq_some_iff, pageOf_eq_none_iff, fun hP p q => page_unique hP⟩

/-! ### What no page holds -/

/-- With valid parameters a real character is a Unicode scalar value (V6). -/
theorem isScalarValue_of_realChar (hP : P.Valid) (h : P.RealChar p c) : IsScalarValue c := by
  obtain ⟨k, hk, rfl, hs⟩ := h
  exact hP.v6 p k hk hs

/-- What has a code is neither the terminator nor the sentinel, is a scalar value and is a character of a page (R91). -/
theorem findable_of_codeOf (hP : P.Valid) (h : codeOf P p c = some k) :
    c ≠ P.termChar ∧ c ≠ P.sentinel ∧ IsScalarValue c ∧ P.RealChar p c := by
  obtain ⟨-, -, hs, ht⟩ := entry_of_codeOf h
  have hreal := realChar_of_codeOf h
  exact ⟨ht, hs, isScalarValue_of_realChar hP hreal, hreal⟩

/-- Settles O26: each of the four cases denies one of the facts about a character that has a code. -/
theorem foundNowhere : Obligations.FoundNowhere := by
  unfold Obligations.FoundNowhere
  intro P c hP hc
  have hnone : ∀ p : Page, codeOf P p c = none := by
    intro p
    by_contra hne
    obtain ⟨k, hk⟩ := Option.ne_none_iff_exists'.1 hne
    obtain ⟨ht, hs, hscalar, hreal⟩ := findable_of_codeOf hP hk
    rcases hc with hterm | hsentinel | hnot | hnowhere
    · exact ht hterm
    · exact hs hsentinel
    · exact hnot hscalar
    · exact hnowhere p hreal
  exact ⟨hnone, pageOf_eq_none hnone⟩

/-! ### The special delta block -/

/-- With valid parameters the character of a unit of the block is the one the unit was made from (R92). -/
theorem spcChar_of_spcUnit (hP : P.Valid) {u : SpcUnit} (h : spcUnit P c = some u) : spcChar P u = c := by
  obtain ⟨h1, -, hval⟩ := (spcUnit_eq_some_iff hP).1 h
  have := c.isLt
  apply BitVec.eq_of_toNat_eq
  rw [spcChar_toNat P u h1]
  omega

/-- The character of a unit does not wrap where `LOW_BOUND` is a code point: a unit adds less than 2^15 (R92). -/
theorem spcChar_toNat_of_le {u : SpcUnit} (h1 : 1 ≤ u.toNat) (hlow : P.lowBound.toNat ≤ 0x10FFFF) :
    (spcChar P u).toNat = P.lowBound.toNat + u.toNat - 1 := by
  have := u.isLt
  rw [spcChar_toNat P u h1, Nat.mod_eq_of_lt (by omega)]

/-- Settles O28: the two functions as arithmetic, and their ranges under V8. -/
theorem specialUnitsInvert : Obligations.SpecialUnitsInvert := by
  unfold Obligations.SpecialUnitsInvert
  refine fun P c => ⟨spcUnit_of_inSpecial, spcUnit_of_not_inSpecial,
    fun u h1 => ⟨spcChar_toNat P u h1, spcChar_toNat_of_le h1⟩, fun hP hc => ?_⟩
  obtain ⟨u, hu, -⟩ := spcUnit_of_inSpecial hc
  obtain ⟨h1, hle, -⟩ := (spcUnit_eq_some_iff hP).1 hu
  obtain ⟨-, hsize, -⟩ := hP.v8
  exact ⟨u, hu, h1, hle, hsize, spcChar_of_spcUnit hP hu⟩

end Sys2Proof.Machine
end

section
/-! The registry commands (R95 to R97): PAGEOF, CODEOF and CHAROF answer what the lookups find and write nothing but the
response. -/

namespace Sys2Proof.Machine

variable {p : Page} {c : Scalar} {k : Code} {s t : State} {d : Bus}

/-! ### One equation per outcome -/

theorem exec_pageof_of_some (h : pageOf s.params c = some (p, k)) :
    exec (.pageof c) s = .next (s.respond .ok (dataOfPageCode p k) 0) := by
  simp only [exec, execPageof, h]

theorem exec_pageof_of_none (h : pageOf s.params c = none) :
    exec (.pageof c) s = .next (s.respond .notFound 0 0) := by
  simp only [exec, execPageof, h]

theorem exec_codeof_of_some (h : codeOf s.params p c = some k) :
    exec (.codeof p c) s = .next (s.respond .ok (dataOfCode k) 0) := by
  simp only [exec, execCodeof, h]

theorem exec_codeof_of_none (h : codeOf s.params p c = none) :
    exec (.codeof p c) s = .next (s.respond .notFound 0 0) := by
  simp only [exec, execCodeof, h]

theorem exec_charof (p : Page) (k : Code) (s : State) :
    exec (.charof p k) s = .next (s.respond .ok (dataOfScalar (s.params.entry p k)) 0) := rfl

/-- PAGEOF's data is the ROM address, 64 entries to a page (R30, R95). -/
theorem dataOfPageCode_eq (p : Page) (k : Code) :
    dataOfPageCode p k = BitVec.ofNat 128 (64 * p.toNat + k.toNat) := by
  have := p.isLt
  have := k.isLt
  apply BitVec.eq_of_toNat_eq
  rw [dataOfPageCode_toNat, bus_ofNat_toNat (by omega), Nat.mul_comm]

/-! ### The answers -/

/-- Settles O22: the two outcomes of the search over the pages, answered. -/
theorem pageofAnswersAddress : Obligations.PageofAnswersAddress := by
  unfold Obligations.PageofAnswersAddress
  refine fun c s => ⟨fun p k hcode hlow => ?_, fun hnone => exec_pageof_of_none (pageOf_eq_none hnone)⟩
  rw [exec_pageof_of_some (pageOf_eq_some_iff.2 ⟨hcode, hlow⟩), dataOfPageCode_eq]
  rfl

/-- Settles O23: the two outcomes of the search over the codes, answered. -/
theorem codeofAnswersCode : Obligations.CodeofAnswersCode := by
  unfold Obligations.CodeofAnswersCode
  refine fun p c s => ⟨fun k hs ht h1 hentry hleast => ?_,
    fun hnone => exec_codeof_of_none (codeOf_eq_none_iff.2 hnone)⟩
  rw [exec_codeof_of_some (codeOf_eq_some_iff.2 ⟨hs, ht, h1, hentry, hleast⟩), dataOfCode_eq]
  rfl

/-- Settles O24: CHAROF answers without a test. -/
theorem charofAnswersEntry : Obligations.CharofAnswersEntry := by
  unfold Obligations.CharofAnswersEntry
  intro p k s
  rw [exec_charof, dataOfScalar_eq]
  rfl

/-- PAGEOF answers OK only where it found the character, with the address of what it found. -/
theorem pageOf_of_exec_pageof_ok (h : exec (.pageof c) s = .next t) (hrsp : t.rsp = some ⟨.ok, d, 0⟩) :
    ∃ p k, pageOf s.params c = some (p, k) ∧ d = dataOfPageCode p k := by
  cases hpage : pageOf s.params c with
  | none =>
    rw [exec_pageof_of_none hpage] at h
    cases h
    cases hrsp
  | some pk =>
    obtain ⟨p, k⟩ := pk
    rw [exec_pageof_of_some hpage] at h
    cases h
    cases hrsp
    exact ⟨p, k, rfl, rfl⟩

/-- Settles O25: with that answer on `arg` the command is the encoded CHAROF of the page and code PAGEOF found, and
PAGEOF left the ROM as it was. -/
theorem charofInvertsPageof : Obligations.CharofInvertsPageof := by
  unfold Obligations.CharofInvertsPageof
  intro c s t d hexec hrsp
  obtain ⟨p, k, hpage, rfl⟩ := pageOf_of_exec_pageof_ok hexec hrsp
  obtain ⟨hentry, -⟩ := entry_of_codeOf (codeOf_of_pageOf hpage)
  refine ⟨.charof p k, _, decode_encode (.charof p k), charofAnswersEntry p k t, ?_⟩
  rw [exec_params hexec, hentry]

end Sys2Proof.Machine
end

section
/-! The encoder commands one at a time (R106 to R119): ESTART, EPUSH as the first character of a string, as a later one
and with an error latched, and EREAD, each with its whole next state. -/

namespace Sys2Proof.Machine

section
variable {P : Params} {e : EncRegs} {c : Scalar} {x : EncError} {s : State} {mode : EncMode} {p : Page} {b slots : Nat}
  {unitOf : Scalar → Option (BitVec b)} {u : BitVec b}

/-! ### The outcomes of EPUSH -/

theorem exec_epush_of_ok (hm : s.enc.mode ≠ .err) (h : pushChar s.params c s.enc = .ok e) :
    exec (.epush c) s = .next { s with enc := e, rsp := some ⟨.ok, 0, 0⟩ } := by
  rw [exec_epush hm, h]
  rfl

/-- An error is latched and answered with its information (R120). -/
theorem exec_epush_of_error (hm : s.enc.mode ≠ .err) (h : pushChar s.params c s.enc = .error x) :
    exec (.epush c) s = .next { s with enc := s.enc.latch x, rsp := some ⟨x.status, 0, x.info⟩ } := by
  rw [exec_epush hm, h]
  rfl

/-! ### The first character -/

/-- A first character that no page holds (R110). -/
theorem choosePage_of_noPage (h : ¬ (P.InSpecial c ∧ 0 < specialSlots (widthBits e.w))) (hpage : pageOf P c = none) :
    choosePage P c e = .error (.noCodePage c) := by
  simp only [choosePage, if_neg h, hpage]

/-- A first character on a page that two tag bits cannot name (R111). -/
theorem choosePage_of_unavailable {k : Code} (h : ¬ (P.InSpecial c ∧ 0 < specialSlots (widthBits e.w)))
    (hpage : pageOf P c = some (p, k)) (hnarrow : tagBits (widthBits e.w) = 2 ∧ ¬ Primary p) :
    choosePage P c e = .error (.pageUnavailable p) := by
  simp only [choosePage, if_neg h, hpage, if_pos hnarrow]

/-- The first character is the first unit below the tag of the page it chooses (R112). -/
theorem pushChar_of_choose (hunits : PushesUnits P mode p unitOf) (hb : b ≤ 128) (hpos : 0 < slots)
    (hs : slots ≤ 21) (hm : e.mode = .empty) (hchoose : choosePage P c e = .ok (e.choose mode p slots))
    (hu : unitOf c = some u) :
    pushChar P c e = .ok { e with
      mode := mode, page := p,
      acc := BitVec.ofNat 128 ((storedTag (tagBits (widthBits e.w)) p).toNat * 2 ^ b + u.toNat),
      rem := BitVec.ofNat 5 (slots - 1) } := by
  have hrem := choose_rem e mode p hs
  have hacc : (e.choose mode p slots).acc.toNat = (storedTag (tagBits (widthBits e.w)) p).toNat :=
    widenIndex_toNat _ (by decide)
  rw [pushChar_of_empty hm hchoose, hunits.unit rfl rfl hu,
    acceptUnit_of_pos (hrem.symm ▸ hpos) (widenIndex_lt u hb) hb, widenIndex_toNat u hb, hrem, hacc]
  rfl

/-! ### A later character -/

/-- Special mode does not look at `E.PAGE` (R116 to R118). -/
theorem pushesUnits_spc_anyPage (P : Params) (p : Page) : PushesUnits P .spc p (spcUnit P) where
  unit hm _ hu := by rw [pushChar_of_chosen (by simp [hm]), pushUnit, hm]; simp only [pushSpecial, hu]
  missing hm _ hu := by rw [pushChar_of_chosen (by simp [hm]), pushUnit, hm]; simp only [pushSpecial, hu]

/-- A later character that has no unit on the chosen page. -/
theorem exec_epush_of_missing (hunits : PushesUnits s.params s.enc.mode s.enc.page unitOf) (hm : s.enc.mode ≠ .err)
    (hu : unitOf c = none) :
    exec (.epush c) s = .next { s with
      enc := { s.enc with mode := .err, err := .missingFromPage, info := c },
      rsp := some ⟨.missingFromPage, 0, c⟩ } :=
  exec_epush_of_error hm (hunits.missing rfl rfl hu)

/-- A later character that has a unit but no slot. -/
theorem exec_epush_of_full (hunits : PushesUnits s.params s.enc.mode s.enc.page unitOf) (hm : s.enc.mode ≠ .err)
    (hu : unitOf c = some u) (hrem : s.enc.rem.toNat = 0) :
    exec (.epush c) s = .next { s with
      enc := { s.enc with mode := .err, err := .tooLong, info := 0 }, rsp := some ⟨.tooLong, 0, 0⟩ } :=
  exec_epush_of_error hm ((hunits.unit rfl rfl hu).trans (acceptUnit_of_zero hrem))

/-- A later character that has a unit and a slot. -/
theorem exec_epush_of_unit (hunits : PushesUnits s.params s.enc.mode s.enc.page unitOf) (hm : s.enc.mode ≠ .err)
    (hb : b ≤ 128) (hu : unitOf c = some u) (hrem : 0 < s.enc.rem.toNat) :
    exec (.epush c) s = .next { s with
      enc := { s.enc with
        acc := BitVec.ofNat 128 (s.enc.acc.toNat * 2 ^ b + u.toNat), rem := BitVec.ofNat 5 (s.enc.rem.toNat - 1) },
      rsp := some ⟨.ok, 0, 0⟩ } := by
  have haccept := acceptUnit_of_pos hrem (widenIndex_lt u hb) hb
  rw [widenIndex_toNat u hb] at haccept
  exact exec_epush_of_ok hm ((hunits.unit rfl rfl hu).trans haccept)

/-! ### EREAD -/

/-- The pad shift and the cut to N bits, as arithmetic (R119). -/
theorem paddedValue_eq_ofNat (hw : e.w.toNat ≤ 4) (pad : Nat) :
    paddedValue e pad = BitVec.ofNat 128 (e.acc.toNat * 2 ^ pad % 2 ^ widthBits e.w) := by
  have hle := (widthFacts hw).le
  apply bus_eq_ofNat
  rw [paddedValue, lowBits_toNat _ _ hle, shiftLeft_toNat, Nat.mod_mod_of_dvd _ (Nat.pow_dvd_pow 2 hle)]

theorem exec_eread_empty (hm : s.enc.mode = .empty) : exec .eread s = .next (s.respond .ok 0 0) := by
  simp only [exec, execEread, hm]

end

/-! ### The statements -/

/-- Settles O31: the special block is tried first, and its units are the offsets from `LOW_BOUND`. -/
theorem epushFirstSpecial : Obligations.EpushFirstSpecial := by
  unfold Obligations.EpushFirstSpecial
  intro c s hm hw hblock hslots
  have hn := widthFacts hw
  obtain ⟨u, hu, huval⟩ := spcUnit_of_inSpecial hblock
  have hpush := pushChar_of_choose (pushesUnits_spc s.params) (by decide) hslots (hn.spcLe.trans hn.ordLe) hm
    (choosePage_of_special ⟨hblock, hslots⟩) hu
  rw [storedTag_toNat, huval] at hpush
  exact exec_epush_of_ok (by simp [hm]) hpush

/-- Settles O32: the page that is found is chosen, and the code found with it is the first unit. -/
theorem epushFirstOrdinary : Obligations.EpushFirstOrdinary := by
  unfold Obligations.EpushFirstOrdinary
  intro c s p k hm hw hspc hpage hp
  have hn := widthFacts hw
  have hpush := pushChar_of_choose (pushesUnits_ord s.params p) (by decide) hn.ordPos hn.ordLe hm
    (choosePage_of_ordinary hspc hpage hp) (codeOf_of_pageOf hpage)
  rw [storedTag_toNat] at hpush
  exact exec_epush_of_ok (by simp [hm]) hpush

/-- Settles O33: the two ways the choice of page fails. -/
theorem epushFirstFails : Obligations.EpushFirstFails := by
  unfold Obligations.EpushFirstFails
  intro c s hm hspc
  have hlatched : s.enc.mode ≠ .err := by simp [hm]
  refine ⟨fun hpage => ?_, fun p k hpage ht hp => ?_⟩
  · exact exec_epush_of_error hlatched (pushChar_of_empty_error hm (choosePage_of_noPage hspc hpage))
  · rw [BitVec.ofNat_toNat]
    exact exec_epush_of_error hlatched (pushChar_of_empty_error hm (choosePage_of_unavailable hspc hpage ⟨ht, hp⟩))

/-- Settles O34: the units of ordinary mode are the codes of the chosen page. -/
theorem epushLaterOrdinary : Obligations.EpushLaterOrdinary := by
  unfold Obligations.EpushLaterOrdinary
  intro c s hm
  have hlatched : s.enc.mode ≠ .err := by simp [hm]
  have hunits := hm.symm ▸ pushesUnits_ord s.params s.enc.page
  exact ⟨exec_epush_of_missing hunits hlatched, fun k => exec_epush_of_full hunits hlatched,
    fun k => exec_epush_of_unit hunits hlatched (by decide)⟩

/-- Settles O35: the units of special mode are the offsets from `LOW_BOUND`, whatever `E.PAGE` holds. -/
theorem epushLaterSpecial : Obligations.EpushLaterSpecial := by
  unfold Obligations.EpushLaterSpecial
  intro c s hm
  have hlatched : s.enc.mode ≠ .err := by simp [hm]
  have hunits := hm.symm ▸ pushesUnits_spc_anyPage s.params s.enc.page
  refine ⟨fun hout => exec_epush_of_missing hunits hlatched (spcUnit_of_not_inSpecial hout),
    fun hblock hrem => ?_, fun hblock hrem => ?_⟩
  · obtain ⟨u, hu, -⟩ := spcUnit_of_inSpecial hblock
    exact exec_epush_of_full hunits hlatched hu hrem
  · obtain ⟨u, hu, huval⟩ := spcUnit_of_inSpecial hblock
    rw [← huval]
    exact exec_epush_of_unit hunits hlatched (by decide) hu hrem

/-- Settles O39: the four modes of EREAD; the shift and the cut to N bits are arithmetic. -/
theorem ereadAnswersPaddedValue : Obligations.EreadAnswersPaddedValue := by
  unfold Obligations.EreadAnswersPaddedValue
  refine fun s hw => ⟨exec_eread_latched, exec_eread_empty, fun hm => ?_, fun hm _ => ?_⟩
  · rw [exec_eread_ord hm, paddedValue_eq_ofNat hw]
    rfl
  · rw [exec_eread_spc hm, paddedValue_eq_ofNat hw]
    rfl

/-- Settles O29: ESTART at each of the five widths. -/
theorem estartClearsEncoder : Obligations.EstartClearsEncoder := by
  unfold Obligations.EstartClearsEncoder
  exact fun s => ⟨exec_ofEstart .w8 s, exec_ofEstart .w16 s, exec_ofEstart .w32 s, exec_ofEstart .w64 s,
    exec_ofEstart .w128 s⟩

/-- Settles O30: the latched branch of EPUSH. -/
theorem epushRepeatsLatchedError : Obligations.EpushRepeatsLatchedError := by
  unfold Obligations.EpushRepeatsLatchedError
  exact fun c s hm => exec_epush_latched hm c

end Sys2Proof.Machine
end

section
/-! The encode transaction computes `Encode(N, s)` as the spec writes it out (R122): the registers between two EPUSHes
against the loop over the characters. -/

namespace Sys2Proof.Machine

variable {P : Params} {e : EncRegs} {c : Scalar} {cs : List Scalar} {n b slots i : Nat} {v : Bus} {mode : EncMode}
  {p : Page} {unitOf : Scalar → Option (BitVec b)}

/-! ### The loop over the characters, an equation per outcome -/

/-- The units of `packUnits`, on the bus. -/
def busUnit (unitOf : Scalar → Option (BitVec b)) (c : Scalar) : Option Bus := (unitOf c).map widenIndex

theorem busUnit_eq : busUnit unitOf = fun c => (unitOf c).map widenIndex := rfl

theorem packUnits_of_missing (hu : unitOf c = none) :
    packUnits n b slots (busUnit unitOf) i v (c :: cs) = ⟨.missingFromPage, 0, c⟩ := by
  simp only [packUnits, busUnit, hu, Option.map_none]

theorem packUnits_of_full {u : BitVec b} (hu : unitOf c = some u) (hi : slots ≤ i) :
    packUnits n b slots (busUnit unitOf) i v (c :: cs) = ⟨.tooLong, 0, 0⟩ := by
  simp only [packUnits, busUnit, hu, Option.map_some, if_pos hi]

theorem packUnits_of_unit {u : BitVec b} (hu : unitOf c = some u) (hi : i < slots) :
    packUnits n b slots (busUnit unitOf) i v (c :: cs) =
      packUnits n b slots (busUnit unitOf) (i + 1) (v ||| widenIndex u <<< (codingBits n - b * (i + 1))) cs := by
  simp only [packUnits, busUnit, hu, Option.map_some, if_neg (Nat.not_le.2 hi)]

/-! ### The registers and the loop -/

/-- The registers stand where the loop of R122 stands after `i` characters with value `v`: `i` slots are used, and `v`
is the accumulator with the free slots padded below it. -/
structure EncRegs.AtLoop (e : EncRegs) (n b slots i : Nat) (v : Bus) : Prop where
  width : widthBits e.w = n
  free  : i + e.rem.toNat = slots
  value : v = e.acc <<< (codingBits n - b * i)
  below : v.toNat < 2 ^ n

/-- The pad shift of a mode with `slots` units of `b` bits: the free slots, and the coding bits below the last slot
(R119). -/
def ReadsUnits (mode : EncMode) (n b slots : Nat) : Prop :=
  ∀ e : EncRegs, e.mode = mode → widthBits e.w = n →
    e.value = paddedValue e (b * e.rem.toNat + (codingBits n - b * slots))

theorem readsUnits_ord (hn : WidthFacts n) : ReadsUnits .ord n 6 (charSlots n) := by
  intro e hm _
  rw [EncRegs.value, hm, hn.ord, Nat.sub_self, Nat.add_zero]

theorem readsUnits_spc (hn : WidthFacts n) : ReadsUnits .spc n 15 (specialSlots n) := by
  intro e hm hw
  rw [EncRegs.value, hm, hn.spc, Nat.add_sub_cancel_left, hw]

/-- What EREAD would answer is the value of the loop. -/
theorem EncRegs.AtLoop.value_eq (h : e.AtLoop n b slots i v) (hn : WidthFacts n) (hfit : b * slots ≤ codingBits n)
    (hread : ReadsUnits mode n b slots) (hm : e.mode = mode) : e.value = v := by
  have hslots : b * slots = b * i + b * e.rem.toNat := by rw [← h.free, Nat.mul_add]
  have hpad : b * e.rem.toNat + (codingBits n - b * slots) = codingBits n - b * i := by omega
  rw [hread e hm h.width, hpad, paddedValue, h.width, shiftLeft, ← h.value]
  exact BitVec.eq_of_toNat_eq (by rw [lowBits_toNat n v hn.le, Nat.mod_eq_of_lt h.below])

/-- A value of `m` bits moved up by `k` stays below bit `n` where there is room for it. -/
theorem toNat_shiftLeft_lt {m k : Nat} (hv : v.toNat < 2 ^ m) (hroom : m + k ≤ n) : (v <<< k).toNat < 2 ^ n := by
  rw [BitVec.toNat_shiftLeft, Nat.shiftLeft_eq]
  calc v.toNat * 2 ^ k % 2 ^ 128
      ≤ v.toNat * 2 ^ k := Nat.mod_le _ _
    _ < 2 ^ m * 2 ^ k := Nat.mul_lt_mul_of_pos_right hv (Nat.two_pow_pos _)
    _ = 2 ^ (m + k) := (Nat.pow_add 2 m k).symm
    _ ≤ 2 ^ n := Nat.pow_le_pow_right (by decide) hroom

/-- One unit more in the accumulator is one turn of the loop: shifting the accumulator and padding it less puts the unit
where the loop puts it (R114, R117). -/
theorem EncRegs.AtLoop.accept_unit (h : e.AtLoop n b slots i v) (hn : WidthFacts n) (hb : b ≤ 128)
    (hfit : b * slots ≤ codingBits n) (hrem : 0 < e.rem.toNat) (u : BitVec b) :
    ∃ e', acceptUnit b (widenIndex u) e = .ok e' ∧ e'.mode = e.mode ∧ e'.page = e.page ∧
      e'.AtLoop n b slots (i + 1) (v ||| widenIndex u <<< (codingBits n - b * (i + 1))) := by
  have hfree := h.free
  have hsucc : b * (i + 1) = b * i + b := Nat.mul_succ b i
  have hslot : b * (i + 1) ≤ codingBits n := (Nat.mul_le_mul_left b (by omega)).trans hfit
  have hunit : (widenIndex u <<< (codingBits n - b * (i + 1))).toNat < 2 ^ n :=
    toNat_shiftLeft_lt (widenIndex_lt u hb) (by have := hn.split; omega)
  refine ⟨_, if_neg (rem_ne_zero_iff.2 hrem), rfl, rfl, h.width, ?_, ?_, ?_⟩
  · have := e.rem.isLt
    simp
    omega
  · have hpad : codingBits n - b * i = b + (codingBits n - b * (i + 1)) := by omega
    rw [h.value, orInto, shiftLeft, BitVec.shiftLeft_or_distrib, hpad, BitVec.shiftLeft_add]
  · rw [BitVec.toNat_or]
    exact Nat.or_lt_two_pow h.below hunit

/-- From where the registers and the loop stand alike, the rest of the string leads to the same answer. -/
theorem transactionResponse_pushAll (hunits : PushesUnits P mode p unitOf) (hread : ReadsUnits mode n b slots)
    (hn : WidthFacts n) (hb : b ≤ 128) (hfit : b * slots ≤ codingBits n) (hm : e.mode = mode) (hp : e.page = p)
    (h : e.AtLoop n b slots i v) :
    transactionResponse (pushAll P cs e) = packUnits n b slots (busUnit unitOf) i v cs := by
  induction cs generalizing e i v with
  | nil => rw [pushAll, transactionResponse, packUnits, h.value_eq hn hfit hread hm]
  | cons c cs ih =>
    have hfree := h.free
    cases hu : unitOf c with
    | none =>
      rw [pushAll_cons_of_error (hunits.missing hm hp hu), packUnits_of_missing hu]
      rfl
    | some u =>
      have hpush := hunits.unit hm hp hu
      rcases Nat.eq_zero_or_pos e.rem.toNat with hrem | hrem
      · rw [acceptUnit_of_zero hrem] at hpush
        rw [pushAll_cons_of_error hpush, packUnits_of_full hu (by omega)]
        rfl
      · obtain ⟨e', haccept, hmode, hpage, hloop⟩ := h.accept_unit hn hb hfit hrem u
        rw [pushAll_cons_of_ok (hpush.trans haccept), packUnits_of_unit hu (by omega)]
        exact ih (hmode.trans hm) (hpage.trans hp) hloop

/-! ### The first character -/

/-- The registers a choice of page leaves stand at the start of the loop. -/
theorem atLoop_choose (hw : e.w.toNat ≤ 4) (mode : EncMode) (p : Page) (hs : slots ≤ 21) :
    (e.choose mode p slots).AtLoop (widthBits e.w) b slots 0 (tagged (widthBits e.w) p) where
  width := rfl
  free := by rw [choose_rem e mode p hs, Nat.zero_add]
  value := rfl
  below := by
    have hn := widthFacts hw
    have htag : (widenIndex (storedTag (tagBits (widthBits e.w)) p)).toNat < 2 ^ tagBits (widthBits e.w) := by
      rw [widenIndex_toNat _ (by decide)]
      exact storedTag_lt hn p
    exact toNat_shiftLeft_lt htag (by rw [Nat.add_comm, hn.split])

/-- A string whose first character chooses a page answers what the loop computes from that page's tag. -/
theorem transactionResponse_of_choose (hunits : PushesUnits P mode p unitOf)
    (hread : ReadsUnits mode (widthBits e.w) b slots) (hb : b ≤ 128) (hfit : b * slots ≤ codingBits (widthBits e.w))
    (hs : slots ≤ 21) (hw : e.w.toNat ≤ 4) (hm : e.mode = .empty)
    (hchoose : choosePage P c e = .ok (e.choose mode p slots)) :
    transactionResponse (pushAll P (c :: cs) e) =
      packUnits (widthBits e.w) b slots (busUnit unitOf) 0 (tagged (widthBits e.w) p) (c :: cs) := by
  have hpush : pushAll P (c :: cs) e = pushAll P (c :: cs) (e.choose mode p slots) := by
    rw [pushAll, pushAll, pushChar_of_empty hm hchoose]
  rw [hpush]
  exact transactionResponse_pushAll hunits hread (widthFacts hw) hb hfit rfl rfl (atLoop_choose hw mode p hs)

theorem transactionResponse_of_choose_error {x : EncError} (hm : e.mode = .empty)
    (hchoose : choosePage P c e = .error x) :
    transactionResponse (pushAll P (c :: cs) e) = ⟨x.status, 0, x.info⟩ := by
  rw [pushAll_cons_of_error (pushChar_of_empty_error hm hchoose)]
  rfl

/-! ### The branches of R122 on the first character -/

theorem encodeFunction_of_special (h : P.InSpecial c ∧ 0 < specialSlots n) :
    encodeFunction P n (c :: cs) =
      packUnits n 15 (specialSlots n) (busUnit (spcUnit P)) 0 (tagged n P.specialTag) (c :: cs) := by
  simp only [encodeFunction, if_pos h, busUnit_eq]

theorem encodeFunction_of_noPage (h : ¬ (P.InSpecial c ∧ 0 < specialSlots n)) (hpage : pageOf P c = none) :
    encodeFunction P n (c :: cs) = ⟨.noCodePage, 0, c⟩ := by
  simp only [encodeFunction, if_neg h, hpage]

theorem encodeFunction_of_unavailable {k : Code} (h : ¬ (P.InSpecial c ∧ 0 < specialSlots n))
    (hpage : pageOf P c = some (p, k)) (hnarrow : tagBits n = 2 ∧ ¬ Primary p) :
    encodeFunction P n (c :: cs) = ⟨.pageUnavailable, 0, p.setWidth 21⟩ := by
  simp only [encodeFunction, if_neg h, hpage, if_pos hnarrow]

theorem encodeFunction_of_ordinary {k : Code} (h : ¬ (P.InSpecial c ∧ 0 < specialSlots n))
    (hpage : pageOf P c = some (p, k)) (hadmits : tagBits n = 2 → Primary p) :
    encodeFunction P n (c :: cs) =
      packUnits n 6 (charSlots n) (busUnit (codeOf P p)) 0 (tagged n p) (c :: cs) := by
  have havailable : ¬ (tagBits n = 2 ∧ ¬ Primary p) := fun ⟨ht, hp⟩ => hp (hadmits ht)
  simp only [encodeFunction, if_neg h, hpage, if_neg havailable, busUnit_eq]

/-- From the registers ESTART leaves, a string answers `Encode(N, s)`: the branches of R122 on the first character are
those of the choice of page (R110 to R112). -/
theorem transactionResponse_start (P : Params) {w : WidthCode} (hw : w.toNat ≤ 4) (cs : List Scalar) :
    transactionResponse (pushAll P cs (EncRegs.start w)) = encodeFunction P (widthBits w) cs := by
  have hn := widthFacts hw
  have hspcFits : 15 * specialSlots (widthBits w) ≤ codingBits (widthBits w) := by have := hn.spc; omega
  cases cs with
  | nil => rfl
  | cons c cs =>
    by_cases hspc : P.InSpecial c ∧ 0 < specialSlots (widthBits w)
    · rw [encodeFunction_of_special hspc]
      exact transactionResponse_of_choose (e := EncRegs.start w) (pushesUnits_spc P) (readsUnits_spc hn) (by decide)
        hspcFits (hn.spcLe.trans hn.ordLe) hw rfl (choosePage_of_special hspc)
    · cases hpage : pageOf P c with
      | none =>
        rw [encodeFunction_of_noPage hspc hpage]
        exact transactionResponse_of_choose_error rfl (choosePage_of_noPage hspc hpage)
      | some pk =>
        obtain ⟨p, k⟩ := pk
        by_cases hnarrow : tagBits (widthBits w) = 2 ∧ ¬ Primary p
        · rw [encodeFunction_of_unavailable hspc hpage hnarrow]
          exact transactionResponse_of_choose_error rfl (choosePage_of_unavailable hspc hpage hnarrow)
        · have hadmits : tagBits (widthBits w) = 2 → Primary p := fun ht => not_not.1 fun hp => hnarrow ⟨ht, hp⟩
          rw [encodeFunction_of_ordinary hspc hpage hadmits]
          exact transactionResponse_of_choose (e := EncRegs.start w) (pushesUnits_ord P p) (readsUnits_ord hn)
            (by decide) hn.ord.ge hn.ordLe hw rfl (choosePage_of_ordinary hspc hpage hadmits)

/-- Settles O50: a transaction answers what its characters leave in the registers ESTART wrote. -/
theorem encodeTransactionComputesFunction : Obligations.EncodeTransactionComputesFunction := by
  unfold Obligations.EncodeTransactionComputesFunction
  intro w cs s
  rw [encodeResult_eq, transactionResponse_start s.params (widthCode_le w)]

end Sys2Proof.Machine
end

section
/-! The decoder commands one at a time (R131 to R138): what DLOAD leaves in the registers, as arithmetic on its operand,
and DNEXT in both modes as one equation, with the three statements about it. -/

namespace Sys2Proof.Machine

variable {P : Params} {w : WidthCode} {a a' : Bus} {s t : State} {n : Nat} {d : DecRegs}

/-! ### What DLOAD leaves in the registers -/

theorem decRegs_eq {tag : Page} {spc : Bool} {acc : Bus} (hw : d.w = w) (htag : d.tag = tag) (hspc : d.spc = spc)
    (hacc : d.acc = acc) : d = ⟨w, tag, spc, acc⟩ := by
  subst hw htag hspc hacc
  rfl

theorem codingBits_le (n : Nat) : codingBits n ≤ n := Nat.sub_le _ _

theorem codingBits_le_bus (hn : WidthFacts n) : codingBits n ≤ 128 := (codingBits_le n).trans hn.le

theorem loadedRegs_tag : (loadedRegs P w a).tag =
    normTag (tagBits (widthBits w)) (tagField (widthBits w) (lowBits (widthBits w) a)) := rfl

theorem loadedRegs_spc : (loadedRegs P w a).spc =
    decide ((loadedRegs P w a).tag = P.specialTag ∧ 0 < specialSlots (widthBits w)) := rfl

/-- The mode DLOAD chooses (R48). -/
theorem loadedRegs_spc_iff : (loadedRegs P w a).spc = true ↔
    (loadedRegs P w a).tag = P.specialTag ∧ 0 < specialSlots (widthBits w) := by
  rw [loadedRegs_spc, decide_eq_true_iff]

/-- The normalised tag as a number: the top T bits of the value, times 4 where T is 2 (R132). -/
theorem normTag_tagField_lowBits (hn : WidthFacts n) (a : Bus) : normTag (tagBits n) (tagField n (lowBits n a)) =
    BitVec.ofNat 4 (if tagBits n = 4 then a.toNat % 2 ^ n / 2 ^ codingBits n
      else 4 * (a.toNat % 2 ^ n / 2 ^ codingBits n)) := by
  obtain ⟨hfield, hlt⟩ := tagField_lowBits hn a
  rw [hfield] at hlt
  apply BitVec.eq_of_toNat_eq
  rw [normTag_toNat, BitVec.toNat_ofNat, hfield]
  rcases hn.tag with ht | ht <;> rw [ht] at hlt ⊢
  · rw [if_neg (by decide), if_neg (by decide), Nat.mul_comm]
  · rw [if_pos rfl, if_pos rfl, Nat.mod_eq_of_lt hlt]

/-- Settles O43: each register DLOAD writes, and the answer, as arithmetic on the operand. -/
theorem dloadLoadsRegisters : Obligations.DloadLoadsRegisters := by
  unfold Obligations.DloadLoadsRegisters
  intro w arg s n t v region tag spc hn ht hv hregion htag hspc
  have facts : WidthFacts n := hn ▸ widthFacts (widthCode_le w)
  have hcoding : n - t = codingBits n := by rw [ht, codingBits]
  have hdec : (loadedRegs s.params (widthCode w) arg).tag = tag := by
    rw [loadedRegs_tag, ← hn, normTag_tagField_lowBits facts, htag, hv, hcoding, ht]
  have hmode : (loadedRegs s.params (widthCode w) arg).spc = spc := by
    rw [loadedRegs_spc, hdec, hspc, hn]
  have hacc : (loadedRegs s.params (widthCode w) arg).acc = BitVec.ofNat 128
      ((if spc then region - region % 2 ^ slack15 n else region) * 2 ^ (128 - (n - t))) := by
    apply bus_eq_ofNat
    rw [loadedRegs_acc_toNat _ (widthCode_le w), hmode, ← hn, hregion, hv, hcoding,
      Nat.mod_mod_of_dvd _ (Nat.pow_dvd_pow 2 (codingBits_le n))]
  have hdata : dataOfLoad tag spc = BitVec.ofNat 128 (tag.toNat + if spc then 16 else 0) :=
    bus_eq_ofNat (by rw [dataOfLoad_toNat, Nat.add_comm])
  rw [exec_ofDload, loadDecoder, decRegs_eq rfl hdec hmode hacc, ← hdata]
  rfl

/-! ### The accumulator as units left-justified -/

/-- The `m` lowest units of `b` bits each of `x` stand at the top of the accumulator, zeros below them (R20, R131). -/
def HoldsUnitsOf (acc : Bus) (b m x : Nat) : Prop := acc.toNat = x % 2 ^ (b * m) * 2 ^ (128 - b * m)

theorem holdsUnitsOf_unique {acc acc' : Bus} {b m x : Nat} (h : HoldsUnitsOf acc b m x) (h' : HoldsUnitsOf acc' b m x) :
    acc = acc' := BitVec.eq_of_toNat_eq (h.trans h'.symm)

/-- Cutting the coding region off a value and clearing `k` bits below its units leaves the units. -/
theorem mod_sub_mod_mul_two_pow {C k l x : Nat} (hC : C = l + k) (hle : C ≤ 128) :
    (x % 2 ^ C - x % 2 ^ C % 2 ^ k) * 2 ^ (128 - C) = x / 2 ^ k % 2 ^ l * 2 ^ (128 - l) := by
  have hunits : x % 2 ^ C / 2 ^ k = x / 2 ^ k % 2 ^ l := by
    rw [hC, Nat.add_comm, Nat.pow_add, Nat.mod_mul_right_div_self]
  have hcleared : x % 2 ^ C - x % 2 ^ C % 2 ^ k = 2 ^ k * (x / 2 ^ k % 2 ^ l) := by
    have := Nat.div_add_mod (x % 2 ^ C) (2 ^ k)
    rw [hunits] at this
    omega
  have hshift : 128 - l = k + (128 - C) := by omega
  rw [hcleared, hshift, Nat.pow_add]
  ring

/-- DLOAD looks at the value below bit N, so its coding bits may be read off it. -/
theorem lowBits_mod_codingBits (hn : WidthFacts n) (a : Bus) :
    (lowBits n a).toNat % 2 ^ codingBits n = a.toNat % 2 ^ codingBits n := by
  rw [lowBits_toNat n a hn.le, Nat.mod_mod_of_dvd _ (Nat.pow_dvd_pow 2 (codingBits_le n))]

/-- In special mode the spare bits are cut off (R133). -/
theorem loadedRegs_holds_spc (hw : w.toNat ≤ 4) (h : (loadedRegs P w a).spc = true) :
    HoldsUnitsOf (loadedRegs P w a).acc 15 (specialSlots (widthBits w))
      ((lowBits (widthBits w) a).toNat / 2 ^ slack15 (widthBits w)) := by
  have hn := widthFacts hw
  rw [HoldsUnitsOf, loadedRegs_acc_toNat P hw, if_pos h, ← lowBits_mod_codingBits hn a,
    mod_sub_mod_mul_two_pow hn.spc (codingBits_le_bus hn)]

theorem loadedRegs_holds_ord (hw : w.toNat ≤ 4) (h : (loadedRegs P w a).spc = false) :
    HoldsUnitsOf (loadedRegs P w a).acc 6 (charSlots (widthBits w)) (lowBits (widthBits w) a).toNat := by
  have hn := widthFacts hw
  rw [HoldsUnitsOf, loadedRegs_acc_toNat P hw, h, if_neg Bool.false_ne_true, ← lowBits_mod_codingBits hn a, hn.ord]

/-- Two values alike above the spare bits load the same registers where the mode is special (R133): the tag and the
units stand above the spare bits. -/
theorem loadedRegs_eq_of_spc (hw : w.toNat ≤ 4) (hspc : (loadedRegs P w a).spc = true)
    (h : (lowBits (widthBits w) a).toNat / 2 ^ slack15 (widthBits w) =
      (lowBits (widthBits w) a').toNat / 2 ^ slack15 (widthBits w)) : loadedRegs P w a' = loadedRegs P w a := by
  have hn := widthFacts hw
  have htop (v : Bus) : (tagField (widthBits w) v).toNat =
      v.toNat / 2 ^ slack15 (widthBits w) / 2 ^ (15 * specialSlots (widthBits w)) % 2 ^ 4 := by
    rw [tagField, BitVec.toNat_setWidth, BitVec.toNat_ushiftRight, Nat.shiftRight_eq_div_pow, hn.spc, Nat.add_comm,
      Nat.pow_add, Nat.div_div_eq_div_mul]
  have htag : (loadedRegs P w a').tag = (loadedRegs P w a).tag := by
    rw [loadedRegs_tag, loadedRegs_tag]
    exact congrArg _ (BitVec.eq_of_toNat_eq (by rw [htop, htop, h]))
  have hspc' : (loadedRegs P w a').spc = (loadedRegs P w a).spc := by rw [loadedRegs_spc, loadedRegs_spc, htag]
  have hacc : (loadedRegs P w a').acc = (loadedRegs P w a).acc :=
    holdsUnitsOf_unique (loadedRegs_holds_spc hw (hspc'.trans hspc)) (h ▸ loadedRegs_holds_spc hw hspc)
  exact decRegs_eq rfl htag hspc' hacc

/-- Settles O44: at 128 bits the spare bits are the six below the units. -/
theorem spareBitsAreIgnored : Obligations.SpareBitsAreIgnored := by
  unfold Obligations.SpareBitsAreIgnored
  intro v v' s t hv hexec hspc
  have hdload (a : Bus) : exec (.dloadW128 a) s = .next (loadDecoder (widthCode .w128) a s) := exec_ofDload .w128 a s
  rw [hdload] at hexec ⊢
  cases hexec
  have hlow (a : Bus) : lowBits (widthBits (widthCode .w128)) a = a := by
    rw [lowBits]
    exact (BitVec.setWidth_eq _).trans (BitVec.setWidth_eq a)
  have hregs := loadedRegs_eq_of_spc (widthCode_le .w128) hspc (a' := v') (by rw [hlow, hlow]; exact hv)
  rw [loadDecoder, loadDecoder, hregs]

/-! ### DNEXT in both modes -/

/-- The bits of a unit in the mode of the transaction (R46, R47). -/
def DecRegs.unitBits (d : DecRegs) : Nat := if d.spc then 15 else 6

/-- The unit at the top of the accumulator (R135). -/
def DecRegs.topUnit (d : DecRegs) : Nat := d.acc.toNat / 2 ^ (128 - d.unitBits)

/-- The character of a unit in the mode of the transaction: of the special block, or of the page `D.TAG` (R135). -/
def DecRegs.charOfUnit (P : Params) (d : DecRegs) (u : Nat) : Scalar :=
  if d.spc then spcChar P (BitVec.ofNat 15 u) else charOf P d.tag (BitVec.ofNat 6 u)

theorem unitBits_spc (h : d.spc = true) : d.unitBits = 15 := if_pos h

theorem unitBits_ord (h : d.spc = false) : d.unitBits = 6 := if_neg (Bool.eq_false_iff.1 h)

theorem topUnit_spc (h : d.spc = true) : d.topUnit = d.acc.toNat / 2 ^ 113 := by rw [DecRegs.topUnit, unitBits_spc h]

theorem topUnit_ord (h : d.spc = false) : d.topUnit = d.acc.toNat / 2 ^ 122 := by rw [DecRegs.topUnit, unitBits_ord h]

theorem charOfUnit_spc (h : d.spc = true) (u : Nat) : d.charOfUnit P u = spcChar P (BitVec.ofNat 15 u) := if_pos h

theorem charOfUnit_ord (h : d.spc = false) (u : Nat) : d.charOfUnit P u = P.entry d.tag (BitVec.ofNat 6 u) :=
  if_neg (Bool.eq_false_iff.1 h)

theorem ofNat_topSpcUnit (acc : Bus) : BitVec.ofNat 15 (acc.toNat / 2 ^ 113) = topSpcUnit acc := by
  rw [← topSpcUnit_toNat, BitVec.ofNat_toNat, BitVec.setWidth_eq]

theorem ofNat_topCode (acc : Bus) : BitVec.ofNat 6 (acc.toNat / 2 ^ 122) = topCode acc := by
  rw [← topCode_toNat, BitVec.ofNat_toNat, BitVec.setWidth_eq]

theorem topSpcUnit_eq_zero_iff (acc : Bus) : topSpcUnit acc = 0 ↔ acc.toNat / 2 ^ 113 = 0 := by
  rw [← topSpcUnit_toNat, BitVec.toNat_eq]
  rfl

theorem topCode_eq_zero_iff (acc : Bus) : topCode acc = 0 ↔ acc.toNat / 2 ^ 122 = 0 := by
  rw [← topCode_toNat, BitVec.toNat_eq]
  rfl

/-- All that DNEXT does, in either mode (R135). -/
theorem exec_dnext (s : State) : exec .dnext s = .next (if s.dec.topUnit = 0 then s.respond .endOfSequence 0 0
    else emit (s.dec.charOfUnit s.params s.dec.topUnit) s.dec.unitBits s) := by
  rw [exec, execDnext]
  cases hspc : s.dec.spc with
  | true =>
    simp only [topSpcUnit_eq_zero_iff, topUnit_spc hspc, charOfUnit_spc hspc, unitBits_spc hspc, ofNat_topSpcUnit]
  | false =>
    simp only [topCode_eq_zero_iff, topUnit_ord hspc, charOfUnit_ord hspc, unitBits_ord hspc, ofNat_topCode, charOf,
      romRead]

theorem exec_dnext_of_zero (h : s.dec.topUnit = 0) : exec .dnext s = .next (s.respond .endOfSequence 0 0) := by
  rw [exec_dnext, if_pos h]

theorem exec_dnext_of_unit (h : s.dec.topUnit ≠ 0) :
    exec .dnext s = .next (emit (s.dec.charOfUnit s.params s.dec.topUnit) s.dec.unitBits s) := by
  rw [exec_dnext, if_neg h]

/-- The state after an emitted character, the accumulator and the answer as numbers (R135). -/
theorem emit_eq (c : Scalar) (b : Nat) (s : State) : emit c b s =
    { s with dec := { s.dec with acc := BitVec.ofNat 128 (s.dec.acc.toNat * 2 ^ b) },
             rsp := some ⟨.ok, BitVec.ofNat 128 c.toNat, 0⟩ } := by
  have hacc : shiftLeft s.dec.acc b = BitVec.ofNat 128 (s.dec.acc.toNat * 2 ^ b) :=
    BitVec.eq_of_toNat_eq (by rw [shiftLeft_toNat, BitVec.toNat_ofNat])
  rw [emit, hacc, dataOfScalar_eq]
  rfl

/-- Settles O45: the two outcomes of DNEXT in each mode. -/
theorem dnextEmitsNextUnit : Obligations.DnextEmitsNextUnit := by
  unfold Obligations.DnextEmitsNextUnit
  intro s
  refine ⟨fun hspc hz => exec_dnext_of_zero ((topUnit_spc hspc).trans hz), fun u hspc hu hpos => ?_,
    fun hord hz => exec_dnext_of_zero ((topUnit_ord hord).trans hz), fun u hord hu hpos => ?_⟩
  · have htop : s.dec.topUnit = u := (topUnit_spc hspc).trans hu.symm
    have hunit : (BitVec.ofNat 15 u).toNat = u := by rw [hu, ofNat_topSpcUnit, topSpcUnit_toNat]
    have hchar : (spcChar s.params (BitVec.ofNat 15 u)).toNat = (s.params.lowBound.toNat + u - 1) % 2 ^ 21 := by
      rw [spcChar_toNat _ _ (hunit.symm ▸ hpos), hunit]
    rw [exec_dnext_of_unit (htop ▸ hpos.ne'), emit_eq, htop, charOfUnit_spc hspc, unitBits_spc hspc, hchar]
  · have htop : s.dec.topUnit = u := (topUnit_ord hord).trans hu.symm
    rw [exec_dnext_of_unit (htop ▸ hpos.ne'), emit_eq, htop, charOfUnit_ord hord, unitBits_ord hord]

/-! ### After END -/

/-- A DNEXT that answers END met the unit 0 and wrote nothing but the answer (R136). -/
theorem topUnit_of_end {c : Bus} {x : Scalar} (h : exec .dnext s = .next t)
    (hrsp : t.rsp = some ⟨.endOfSequence, c, x⟩) :
    s.dec.topUnit = 0 ∧ t = s.respond .endOfSequence 0 0 := by
  by_cases hz : s.dec.topUnit = 0
  · rw [exec_dnext_of_zero hz] at h
    cases h
    exact ⟨hz, rfl⟩
  · rw [exec_dnext_of_unit hz] at h
    cases h
    cases hrsp

/-- A command that leaves a state as it is does so any number of times. -/
theorem runCommands_replicate_of_fixed {i : Instr} (h : exec i t = .next t) (k : Nat) :
    runCommands (List.replicate k i) t = .next t := by
  induction k with
  | zero => rfl
  | succ k ih => rw [List.replicate_succ, runCommands_cons _ h, ih]

/-- Settles O46: the unit that ended the sequence is still at the top, and the answer is written over itself. -/
theorem endIsForEver : Obligations.EndIsForEver := by
  unfold Obligations.EndIsForEver
  intro k s t d x h hrsp
  obtain ⟨hz, rfl⟩ := topUnit_of_end h hrsp
  have hfixed : exec .dnext (s.respond .endOfSequence 0 0) = .next (s.respond .endOfSequence 0 0) :=
    exec_dnext_of_zero hz
  exact ⟨rfl, runCommands_replicate_of_fixed hfixed k⟩

end Sys2Proof.Machine
end

section
/-! The whole decode (R130, R140, R143): the DNEXTs after a DLOAD against the loop over the units of the value, which
gives what the sequence is and how long it can be. -/

namespace Sys2Proof.Machine

variable {s : State} {n b m j slots x : Nat} {acc v : Bus}

/-! ### Units leaving the accumulator -/

theorem toNat_of_holdsUnitsOf_zero (h : HoldsUnitsOf acc b 0 x) : acc.toNat = 0 := by
  rw [h, Nat.mul_zero, Nat.pow_zero, Nat.mod_one, Nat.zero_mul]

/-- The top unit of the accumulator is the highest of the units it holds. -/
theorem topUnit_of_holdsUnitsOf (h : HoldsUnitsOf acc b (m + 1) x) (hfit : b * (m + 1) ≤ 128) :
    acc.toNat / 2 ^ (128 - b) = x / 2 ^ (b * m) % 2 ^ b := by
  have hsucc : b * (m + 1) = b * m + b := Nat.mul_succ b m
  have hdiv : 128 - b = 128 - b * (m + 1) + b * m := by omega
  rw [h, hdiv, Nat.pow_add, ← Nat.div_div_eq_div_mul, Nat.mul_div_cancel _ (Nat.two_pow_pos _), hsucc, Nat.pow_add,
    Nat.mod_mul_right_div_self]

/-- Moving the accumulator past its top unit leaves the units below it (R135). -/
theorem holdsUnitsOf_shiftLeft (h : HoldsUnitsOf acc b (m + 1) x) (hfit : b * (m + 1) ≤ 128) :
    HoldsUnitsOf (shiftLeft acc b) b m x := by
  have hsucc : b * (m + 1) = b * m + b := Nat.mul_succ b m
  have hshift : 128 - b * (m + 1) + b = 128 - b * m := by omega
  have hfull : (2 : Nat) ^ 128 = 2 ^ (b * m) * 2 ^ (128 - b * m) := by rw [← Nat.pow_add]; congr 1; omega
  have hdvd : 2 ^ (b * m) ∣ 2 ^ (b * (m + 1)) := Nat.pow_dvd_pow 2 (by omega)
  rw [HoldsUnitsOf, shiftLeft_toNat, h, Nat.mul_assoc, ← Nat.pow_add, hshift, hfull, Nat.mul_mod_mul_right,
    Nat.mod_mod_of_dvd _ hdvd]

/-- Unit `j` of a value of `slots` units, from the units alone: `m` units stand below it. -/
theorem unitAt_of_slots (hfit : b * slots ≤ codingBits n) (hj : j + (m + 1) = slots) :
    (unitAt n b v j).toNat = v.toNat / 2 ^ (codingBits n - b * slots) / 2 ^ (b * m) % 2 ^ b := by
  have hslots : b * slots = b * (j + 1) + b * m := by rw [← Nat.mul_add]; congr 1; omega
  have hbelow : codingBits n - b * (j + 1) = codingBits n - b * slots + b * m := by omega
  rw [unitAt_toNat, hbelow, Nat.pow_add, Nat.div_div_eq_div_mul]

/-! ### The characters of the DNEXTs -/

@[simp] theorem setWidth_dataOfScalar (c : Scalar) : (dataOfScalar c).setWidth 21 = c := by
  rw [dataOfScalar, BitVec.setWidth_setWidth_of_le _ (by decide), BitVec.setWidth_eq]

theorem pullCharacters_of_zero (h : s.dec.topUnit = 0) (fuel : Nat) : pullCharacters fuel s = [] := by
  cases fuel with
  | zero => rfl
  | succ fuel => simp [pullCharacters, exec_dnext_of_zero h]

theorem pullCharacters_of_unit (h : s.dec.topUnit ≠ 0) (fuel : Nat) :
    pullCharacters (fuel + 1) s = s.dec.charOfUnit s.params s.dec.topUnit ::
      pullCharacters fuel (emit (s.dec.charOfUnit s.params s.dec.topUnit) s.dec.unitBits s) := by
  simp [pullCharacters, exec_dnext_of_unit h]

/-- From where the accumulator holds the last `m` units of a value, the DNEXTs give the characters of these units, up to
the first zero unit and as many as are asked for. -/
theorem pullCharacters_eq_take {charOfUnit : BitVec b → Scalar} (hb : s.dec.unitBits = b)
    (hchar : ∀ u : BitVec b, s.dec.charOfUnit s.params u.toNat = charOfUnit u) (hslots : b * slots ≤ codingBits n)
    (hcoding : codingBits n ≤ 128) (hj : j + m = slots)
    (h : HoldsUnitsOf s.dec.acc b m (v.toNat / 2 ^ (codingBits n - b * slots))) (fuel : Nat) :
    pullCharacters fuel s = (readUnits n b charOfUnit v m j).take fuel := by
  induction m generalizing s j fuel with
  | zero =>
    have hzero : s.dec.topUnit = 0 := by rw [DecRegs.topUnit, toNat_of_holdsUnitsOf_zero h, Nat.zero_div]
    rw [pullCharacters_of_zero hzero, readUnits, List.take_nil]
  | succ m ih =>
    have hfit : b * (m + 1) ≤ 128 := (Nat.mul_le_mul_left b (by omega)).trans (hslots.trans hcoding)
    have hunit : s.dec.topUnit = (unitAt n b v j).toNat := by
      rw [DecRegs.topUnit, hb, topUnit_of_holdsUnitsOf h hfit, unitAt_of_slots hslots hj]
    by_cases hz : unitAt n b v j = 0
    · rw [pullCharacters_of_zero (by rw [hunit, hz]; rfl), readUnits, if_pos hz, List.take_nil]
    · have htop : s.dec.topUnit ≠ 0 := fun h0 => hz (BitVec.eq_of_toNat_eq (hunit.symm.trans h0))
      cases fuel with
      | zero => rfl
      | succ fuel =>
        rw [pullCharacters_of_unit htop, hunit, hchar, hb, readUnits, if_neg hz, List.take_succ_cons]
        congr 1
        exact ih (s := emit _ b s) hb hchar (by omega) (holdsUnitsOf_shiftLeft h hfit) fuel

theorem length_readUnits_le (charOfUnit : BitVec b → Scalar) (v : Bus) (m j : Nat) :
    (readUnits n b charOfUnit v m j).length ≤ m := by
  induction m generalizing j with
  | zero => exact Nat.le_refl 0
  | succ m ih =>
    rw [readUnits]
    split
    · exact Nat.zero_le _
    · exact Nat.succ_le_succ (ih (j + 1))

/-! ### The DNEXTs after a DLOAD -/

/-- The branch of R143 that DLOAD's choice of mode takes (R48, R131). -/
theorem decodeFunction_of_loadedRegs (P : Params) (w : WidthCode) (arg : Bus) :
    decodeFunction P (widthBits w) (lowBits (widthBits w) arg) =
      if (loadedRegs P w arg).spc then
        readUnits (widthBits w) 15 (spcChar P) (lowBits (widthBits w) arg) (specialSlots (widthBits w)) 0
      else readUnits (widthBits w) 6 (charOf P (loadedRegs P w arg).tag) (lowBits (widthBits w) arg)
        (charSlots (widthBits w)) 0 := by
  simp only [decodeFunction, loadedRegs_spc_iff, loadedRegs_tag]

/-- However many DNEXTs follow a DLOAD, they give as much of `Decode(N, v)` as they are (R130, R143). -/
theorem pullCharacters_loadDecoder (w : Width) (arg : Bus) (s : State) (fuel : Nat) :
    pullCharacters fuel (loadDecoder (widthCode w) arg s) =
    (decodeFunction s.params (widthBits (widthCode w)) (lowBits (widthBits (widthCode w)) arg)).take fuel := by
  have hw := widthCode_le w
  have hn := widthFacts hw
  have hcoding := codingBits_le_bus hn
  rw [decodeFunction_of_loadedRegs]
  cases hspc : (loadedRegs s.params (widthCode w) arg).spc with
  | true =>
    have hfit := hn.spc
    have hslack : slack15 (widthBits (widthCode w)) =
        codingBits (widthBits (widthCode w)) - 15 * specialSlots (widthBits (widthCode w)) := by
      rw [hn.spc, Nat.add_sub_cancel_left]
    refine pullCharacters_eq_take (unitBits_spc hspc) (fun u => ?_) (by omega) hcoding (Nat.zero_add _) ?_ fuel
    · rw [loadDecoder_dec, charOfUnit_spc hspc, BitVec.ofNat_toNat, BitVec.setWidth_eq]
      rfl
    · rw [← hslack]
      exact loadedRegs_holds_spc hw hspc
  | false =>
    refine pullCharacters_eq_take (unitBits_ord hspc) (fun u => ?_) hn.ord.ge hcoding (Nat.zero_add _) ?_ fuel
    · rw [loadDecoder_dec, charOfUnit_ord hspc, BitVec.ofNat_toNat, BitVec.setWidth_eq]
      rfl
    · rw [hn.ord, Nat.sub_self, Nat.pow_zero, Nat.div_one]
      exact loadedRegs_holds_ord hw hspc

/-- `Decode(N, v)` has no more characters than the value has slots (R140). -/
theorem length_decodeFunction_le (P : Params) (w : WidthCode) (arg : Bus) :
    (decodeFunction P (widthBits w) (lowBits (widthBits w) arg)).length ≤
      if (loadedRegs P w arg).spc then specialSlots (widthBits w) else charSlots (widthBits w) := by
  rw [decodeFunction_of_loadedRegs]
  split <;> exact length_readUnits_le _ _ _ _

/-- Settles O48: what comes is part of `Decode(N, v)`. -/
theorem decodeIsFinite : Obligations.DecodeIsFinite := by
  unfold Obligations.DecodeIsFinite
  intro w arg s t fuel h
  rw [exec_ofDload] at h
  cases h
  rw [pullCharacters_loadDecoder]
  exact (List.length_take_le' _ _).trans (length_decodeFunction_le s.params (widthCode w) arg)

/-- Settles O49: the transaction issues more DNEXTs than `Decode(N, v)` has characters. -/
theorem decodeTransactionComputesFunction : Obligations.DecodeTransactionComputesFunction := by
  unfold Obligations.DecodeTransactionComputesFunction
  intro w arg s
  have hslots := (widthFacts (widthCode_le w)).spcLe
  have hlen := length_decodeFunction_le s.params (widthCode w) arg
  simp only [decodeResult, exec_ofDload]
  rw [pullCharacters_loadDecoder, List.take_of_length_le]
  split at hlen <;> omega

end Sys2Proof.Machine
end

section
/-! Strings and their packed values in order (R153): values of different tags compare as the tags, and values of one tag
as the lists of their units. -/

namespace Sys2Proof.Machine

variable {C b b' t t' : Nat} {us us' : List Nat}

/-! ### Packed values as numbers -/

theorem packedValue_nil (C b t : Nat) : packedValue C b t [] = t * 2 ^ C := rfl

/-- The first unit below a tag may be counted to the tag. -/
theorem packedValue_cons (C b t u : Nat) (us : List Nat) :
    packedValue C b t (u :: us) = packedValue (C - b) b (t * 2 ^ b + u) us := by
  have hpad : C - b * (u :: us).length = C - b - b * us.length := by
    rw [List.length_cons, Nat.mul_succ]
    omega
  rw [packedValue, packedValue, hpad]
  rfl

/-- Values with different tags compare as the tags do, whatever their units are (R156). -/
theorem packedValue_lt_of_tag_lt (htag : t < t') (hus : ∀ u ∈ us, u < 2 ^ b) (hus' : ∀ u ∈ us', u < 2 ^ b')
    (hC : b * us.length ≤ C) (hC' : b' * us'.length ≤ C) : packedValue C b t us < packedValue C b' t' us' := by
  apply Nat.lt_of_div_lt_div (c := 2 ^ C)
  rwa [packedValue_tag hus hC, packedValue_tag hus' hC']

/-- Below one tag the values compare as the lists of their units: the first unit that differs decides, and a unit that is
missing counts as 0, which no unit is (R154, R155). -/
theorem packedValue_lt_of_lt (hlt : us < us') (hus : ∀ u ∈ us, u < 2 ^ b) (hus' : ∀ u ∈ us', 1 ≤ u ∧ u < 2 ^ b)
    (hC : b * us.length ≤ C) (hC' : b * us'.length ≤ C) : packedValue C b t us < packedValue C b t us' := by
  induction us generalizing us' C t with
  | nil =>
    cases us' with
    | nil => exact absurd hlt (List.not_lt_nil _)
    | cons u' us' =>
      rw [List.length_cons, Nat.mul_succ] at hC'
      obtain ⟨hpos, -⟩ := hus' u' List.mem_cons_self
      have hpad : packedValue C b t [] = packedValue (C - b) b (t * 2 ^ b) [] := by
        rw [packedValue_nil, packedValue_nil, Nat.mul_assoc, ← Nat.pow_add, Nat.add_sub_cancel' (by omega)]
      rw [hpad, packedValue_cons]
      exact packedValue_lt_of_tag_lt (by omega) nofun (fun u hu => (hus' u (List.mem_cons_of_mem _ hu)).2)
        (Nat.zero_le _) (by omega)
  | cons u us ih =>
    cases us' with
    | nil => exact absurd hlt (List.not_lt_nil _)
    | cons u' us' =>
      rw [List.length_cons, Nat.mul_succ] at hC hC'
      have hrest : ∀ x ∈ us, x < 2 ^ b := fun x hx => hus x (List.mem_cons_of_mem _ hx)
      have hrest' : ∀ x ∈ us', 1 ≤ x ∧ x < 2 ^ b := fun x hx => hus' x (List.mem_cons_of_mem _ hx)
      rw [packedValue_cons, packedValue_cons]
      rcases List.cons_lt_cons_iff.1 hlt with hunit | ⟨rfl, htail⟩
      · exact packedValue_lt_of_tag_lt (by omega) hrest (fun x hx => (hrest' x hx).2) (by omega) (by omega)
      · exact ih htail hrest hrest' (by omega) (by omega)

/-! ### Packed strings -/

section
variable {b b' n slots slots' : Nat} {unitOf : Scalar → Option (BitVec b)} {unitOf' : Scalar → Option (BitVec b')}
  {p q : Page} {cs cs' : List Scalar} {v v' : Bus}

/-- A packed value lies below bit N (R52). -/
theorem toNat_lt_of_packs (hn : WidthFacts n) (hfit : b * slots ≤ codingBits n) (h : Packs n slots unitOf p cs v) :
    v.toNat < 2 ^ n := by
  obtain ⟨us, -, hlen, hv⟩ := h
  have hC : b * (us.map BitVec.toNat).length ≤ codingBits n := by
    rw [List.length_map]
    exact (Nat.mul_le_mul_left b hlen).trans hfit
  calc v.toNat
      < 2 ^ (codingBits n + tagBits n) := hv ▸ packedValue_lt (storedTag_lt hn p) (units_lt us) hC
    _ = 2 ^ n := by rw [hn.split]

/-- One string packs to one value on a page. -/
theorem packs_unique (h : Packs n slots unitOf p cs v) (h' : Packs n slots' unitOf p cs v') : v = v' := by
  obtain ⟨us, hus, -, hv⟩ := h
  obtain ⟨us', hus', -, hv'⟩ := h'
  obtain rfl : us = us' := List.map_injective_iff.2 (Option.some_injective _) (hus.symm.trans hus')
  exact BitVec.eq_of_toNat_eq (hv.trans hv'.symm)

/-- On different pages the stored tags decide (R156). -/
theorem packs_lt_of_storedTag_lt (hfit : b * slots ≤ codingBits n) (hfit' : b' * slots' ≤ codingBits n)
    (htag : storedTag (tagBits n) p < storedTag (tagBits n) q) (h : Packs n slots unitOf p cs v)
    (h' : Packs n slots' unitOf' q cs' v') : v < v' := by
  obtain ⟨us, -, hlen, hv⟩ := h
  obtain ⟨us', -, hlen', hv'⟩ := h'
  rw [BitVec.lt_def] at htag ⊢
  rw [hv, hv']
  refine packedValue_lt_of_tag_lt htag (units_lt us) (units_lt us') ?_ ?_ <;> rw [List.length_map]
  · exact (Nat.mul_le_mul_left b hlen).trans hfit
  · exact (Nat.mul_le_mul_left b' hlen').trans hfit'

end

end Sys2Proof.Machine
end

section
/-! The two modes as one (R46 to R48): a page is written either in units of the special block or in codes of its
characters. What encodes on a page and what a value of the page decodes to, told by the page's mode. -/

namespace Sys2Proof.Machine

variable {P : Params} {n : Nat} {p q : Page} {c c' : Scalar} {cs cs' : List Scalar} {v v' : Bus} {m : UnitMode}

/-! ### Modes -/

/-- A way to write characters: the bits of a unit, the slots for units, and the two ways between a character and its
unit. -/
structure UnitMode where
  bits : Nat
  slots : Nat
  unitOf : Scalar → Option (BitVec bits)
  charOfUnit : BitVec bits → Scalar

/-- Ordinary mode on a table page (R46, R88, R90). -/
def ordinaryMode (P : Params) (n : Nat) (p : Page) : UnitMode where
  bits := 6
  slots := charSlots n
  unitOf := codeOf P p
  charOfUnit := charOf P p

/-- Special mode (R47, R92). -/
def specialMode (P : Params) (n : Nat) : UnitMode where
  bits := 15
  slots := specialSlots n
  unitOf := spcUnit P
  charOfUnit := spcChar P

/-- The page stands for the special block at this width (R48). -/
abbrev SpecialPage (P : Params) (n : Nat) (p : Page) : Prop := p = P.specialTag ∧ 0 < specialSlots n

/-- The mode of a page at a width. -/
def pageMode (P : Params) (n : Nat) (p : Page) : UnitMode :=
  if SpecialPage P n p then specialMode P n else ordinaryMode P n p

/-- The page the tag of a value names (R50, R132). -/
abbrev valuePage (n : Nat) (v : Bus) : Page := normTag (tagBits n) (tagField n v)

theorem pageMode_of_special (h : SpecialPage P n p) : pageMode P n p = specialMode P n := if_pos h

theorem pageMode_of_not_special (h : ¬ SpecialPage P n p) : pageMode P n p = ordinaryMode P n p := if_neg h

/-- What holds of both modes holds of every page's. -/
theorem pageMode_induction {motive : UnitMode → Prop} (P : Params) (n : Nat) (p : Page)
    (hspc : 0 < specialSlots n → motive (specialMode P n)) (hord : motive (ordinaryMode P n p)) :
    motive (pageMode P n p) := by
  by_cases h : SpecialPage P n p
  · rw [pageMode_of_special h]
    exact hspc h.2
  · rwa [pageMode_of_not_special h]

/-- `v` packs the string `cs` in this mode below the stored tag of page `p`. -/
def UnitMode.Packs (m : UnitMode) (n : Nat) (p : Page) (cs : List Scalar) (v : Bus) : Prop :=
  Machine.Packs n m.slots m.unitOf p cs v

/-- The slots of a mode lie in the coding bits (R71, R72). -/
theorem pageMode_fits (P : Params) (hn : WidthFacts n) (p : Page) :
    (pageMode P n p).bits * (pageMode P n p).slots ≤ codingBits n :=
  pageMode_induction (motive := fun m => m.bits * m.slots ≤ codingBits n) P n p
    (fun _ => hn.spc ▸ Nat.le_add_right _ _) hn.ord.ge

theorem pageMode_slots_pos (P : Params) (hn : WidthFacts n) (p : Page) : 0 < (pageMode P n p).slots :=
  pageMode_induction (motive := fun m => 0 < m.slots) P n p id hn.ordPos

/-- The branches of R143 on the tag are the modes of the page it names. -/
theorem decodeFunction_eq_readUnits (P : Params) (n : Nat) (v : Bus) : decodeFunction P n v =
    readUnits n (pageMode P n (valuePage n v)).bits (pageMode P n (valuePage n v)).charOfUnit v
      (pageMode P n (valuePage n v)).slots 0 := by
  rw [decodeFunction]
  by_cases h : SpecialPage P n (valuePage n v)
  · rw [if_pos h, pageMode_of_special h]
    rfl
  · rw [if_neg h, pageMode_of_not_special h]
    rfl

/-! ### Characters and units under valid parameters -/

/-- Characters and units of a mode correspond in order; what has no unit though a unit stands for it is the sentinel or
lies above the block (R92, R98). -/
structure UnitMode.Lawful (P : Params) (m : UnitMode) : Prop where
  unit_ne_zero : ∀ {c u}, m.unitOf c = some u → u ≠ 0
  char_of_unit : ∀ {c u}, m.unitOf c = some u → m.charOfUnit u = c
  unit_of_char : ∀ {u}, u ≠ 0 → m.unitOf (m.charOfUnit u) = some u ∨
    m.unitOf (m.charOfUnit u) = none ∧ (m.charOfUnit u = P.sentinel ∨ P.highBound < m.charOfUnit u)
  unit_lt_unit : ∀ {c c' u u'}, c < c' → m.unitOf c = some u → m.unitOf c' = some u' → u < u'
  unit_sentinel : m.unitOf P.sentinel = none

theorem ne_zero_iff_one_le {b : Nat} {u : BitVec b} : u ≠ 0 ↔ 1 ≤ u.toNat := by
  rw [Nat.one_le_iff_ne_zero, ne_eq, ne_eq, BitVec.toNat_eq]
  simp

theorem lawful_ordinaryMode (hP : P.Valid) (n : Nat) (p : Page) : (ordinaryMode P n p).Lawful P where
  unit_ne_zero h := by
    obtain ⟨-, h1, -⟩ := entry_of_codeOf h
    exact ne_zero_iff_one_le.2 h1
  char_of_unit h := by
    obtain ⟨hentry, -⟩ := entry_of_codeOf h
    exact hentry
  unit_of_char {u} hu := by
    by_cases hs : P.entry p u = P.sentinel
    · exact .inr ⟨codeOf_eq_none_iff.2 (.inl hs), .inl hs⟩
    · obtain ⟨hvalid, hle⟩ := validPage_of_entry hP hs
      exact .inl (codeOf_entry hP hvalid (ne_zero_iff_one_le.1 hu) hle)
  unit_lt_unit hlt h h' := codeOf_lt_codeOf hP hlt h h'
  unit_sentinel := codeOf_eq_none_iff.2 (.inl rfl)

/-- The last unit of the block does not wrap: `LOW_BOUND` is a code point (V8). -/
theorem lowBound_le (hP : P.Valid) : P.lowBound.toNat ≤ 0x10FFFF := by
  obtain ⟨hbounds, -, hscalar⟩ := hP.v8
  exact (hscalar P.lowBound ⟨BitVec.le_refl _, hbounds⟩).1

/-- The character of a unit has that unit, or lies above the block (R92). -/
theorem spcUnit_spcChar_cases (hP : P.Valid) {u : SpcUnit} (hu : u ≠ 0) :
    spcUnit P (spcChar P u) = some u ∨ spcUnit P (spcChar P u) = none ∧ P.highBound < spcChar P u := by
  have h1 : 1 ≤ u.toNat := ne_zero_iff_one_le.1 hu
  by_cases hle : u.toNat ≤ P.highBound.toNat - P.lowBound.toNat + 1
  · exact .inl (spcUnit_spcChar hP h1 hle)
  · have habove : P.highBound < spcChar P u := by
      rw [BitVec.lt_def, spcChar_toNat_of_le h1 (lowBound_le hP)]
      omega
    exact .inr ⟨spcUnit_of_not_inSpecial fun hc => BitVec.not_lt.2 hc.2 habove, habove⟩

/-- The units of the block are in the order of its characters (R92). -/
theorem spcUnit_lt_spcUnit (hP : P.Valid) {u u' : SpcUnit} (hlt : c < c') (h : spcUnit P c = some u)
    (h' : spcUnit P c' = some u') : u < u' := by
  obtain ⟨-, -, hval⟩ := (spcUnit_eq_some_iff hP).1 h
  obtain ⟨-, -, hval'⟩ := (spcUnit_eq_some_iff hP).1 h'
  rw [BitVec.lt_def] at hlt ⊢
  omega

theorem lawful_specialMode (hP : P.Valid) (n : Nat) : (specialMode P n).Lawful P where
  unit_ne_zero h := by
    obtain ⟨h1, -⟩ := (spcUnit_eq_some_iff hP).1 h
    exact ne_zero_iff_one_le.2 h1
  char_of_unit h := spcChar_of_spcUnit hP h
  unit_of_char hu := (spcUnit_spcChar_cases hP hu).imp_right fun ⟨hnone, habove⟩ => ⟨hnone, .inr habove⟩
  unit_lt_unit hlt h h' := spcUnit_lt_spcUnit hP hlt h h'
  unit_sentinel := by
    obtain ⟨-, -, -, -, hs⟩ := hP.v5
    exact spcUnit_of_not_inSpecial hs

theorem lawful_pageMode (hP : P.Valid) (n : Nat) (p : Page) : (pageMode P n p).Lawful P :=
  pageMode_induction P n p (fun _ => lawful_specialMode hP n) (lawful_ordinaryMode hP n p)

/-! ### The page a string chooses -/

/-- A character that chooses the special block is no table page's at `SPECIAL_TAG`, whose characters all are of the block
(V10). -/
theorem not_specialPage_of_codeOf (hP : P.Valid) {k : Code} (hc : ¬ (P.InSpecial c ∧ 0 < specialSlots n))
    (hk : codeOf P p c = some k) : ¬ SpecialPage P n p := by
  rintro ⟨rfl, hslots⟩
  have hreal := realChar_of_codeOf hk
  rcases hP.v10 with hreserved | hblock
  · obtain ⟨j, -, hj, hs⟩ := hreal
    exact hs (hj.symm.trans (hreserved j))
  · exact hc ⟨hblock c hreal, hslots⟩

theorem chosenPage_of_special (hc : P.InSpecial c ∧ 0 < specialSlots n) :
    chosenPage P n (c :: cs) = some P.specialTag := if_pos hc

theorem chosenPage_of_not_special (hc : ¬ (P.InSpecial c ∧ 0 < specialSlots n)) :
    chosenPage P n (c :: cs) = (pageOf P c).map Prod.fst := if_neg hc

/-- The page of a string is chosen by its first character, and with it the mode (R110, R111). -/
theorem chosenPage_cons_iff (hP : P.Valid) : chosenPage P n (c :: cs) = some p ↔
    ((P.InSpecial c ∧ 0 < specialSlots n) ∧ SpecialPage P n p) ∨
    (¬ (P.InSpecial c ∧ 0 < specialSlots n) ∧ ¬ SpecialPage P n p ∧ ∃ k, codeOf P p c = some k) := by
  constructor
  · intro h
    by_cases hc : P.InSpecial c ∧ 0 < specialSlots n
    · cases (chosenPage_of_special hc).symm.trans h
      exact .inl ⟨hc, rfl, hc.2⟩
    · rw [chosenPage_of_not_special hc] at h
      obtain ⟨⟨q, k⟩, hpage, rfl⟩ := Option.map_eq_some_iff.1 h
      have hk := codeOf_of_pageOf hpage
      exact .inr ⟨hc, not_specialPage_of_codeOf hP hc hk, k, hk⟩
  · rintro (⟨hc, rfl, -⟩ | ⟨hc, -, k, hk⟩)
    · exact chosenPage_of_special hc
    · rw [chosenPage_of_not_special hc, pageOf_of_codeOf hP hk]
      rfl

/-- A string whose first character has a unit on some page chooses a page, maybe another. -/
theorem exists_chosenPage_of_unit (hP : P.Valid) (h : (pageMode P n p).unitOf c ≠ none) :
    ∃ q, chosenPage P n (c :: cs) = some q := by
  by_cases hc : P.InSpecial c ∧ 0 < specialSlots n
  · exact ⟨P.specialTag, chosenPage_of_special hc⟩
  · by_cases hp : SpecialPage P n p
    · rw [pageMode_of_special hp] at h
      exact absurd (spcUnit_of_not_inSpecial fun hblock => hc ⟨hblock, hp.2⟩) h
    · rw [pageMode_of_not_special hp] at h
      exact ⟨p, (chosenPage_cons_iff hP).2 (.inr ⟨hc, hp, Option.ne_none_iff_exists'.1 h⟩)⟩

/-- The width admits the page: a narrow tag names primary pages only (R112). -/
abbrev Admits (n : Nat) (p : Page) : Prop := tagBits n = 2 → Primary p

theorem admits_of_specialPage (hP : P.Valid) (h : SpecialPage P n p) : Admits n p := fun _ => h.1 ▸ hP.v9

/-- The page a value's tag names is admitted (R132). -/
theorem admits_valuePage (n : Nat) (v : Bus) : Admits n (valuePage n v) := fun ht => primary_normTag (by omega) _

theorem valuePage_of_tagField (hn : WidthFacts n) (hp : Admits n p) (h : tagField n v = storedTag (tagBits n) p) :
    valuePage n v = p := by
  rw [valuePage, h, normTag_storedTag _ _ fun h4 => hp (hn.tag.resolve_right h4)]

/-! ### What encodes on the chosen page -/

/-- On the page it chooses a string encodes to the value that packs it in the page's mode, where the width admits the
page (R122). -/
theorem encodeResult_iff_packs {w : Width} {s : State} (hP : s.params.Valid) (hn : n = widthBits (widthCode w))
    (h : chosenPage s.params n cs = some p) : encodeResult w cs s = some ⟨.ok, v, 0⟩ ↔
      Admits n p ∧ (pageMode s.params n p).Packs n p cs v := by
  cases cs with
  | nil => cases h
  | cons c cs =>
    rw [encodeResult_cons_iff hn]
    rcases (chosenPage_cons_iff hP).1 h with ⟨hc, hp⟩ | ⟨hc, hp, k, hk⟩
    · rw [pageMode_of_special hp, or_iff_left fun hord => hord.1 hc]
      obtain ⟨rfl, -⟩ := id hp
      exact and_congr_left' (iff_of_true hc (admits_of_specialPage hP hp))
    · rw [pageMode_of_not_special hp, or_iff_right fun hspc => hc hspc.1, pageOf_of_codeOf hP hk]
      constructor
      · rintro ⟨-, q, j, hq, hadmits, hpacks⟩
        cases hq
        exact ⟨hadmits, hpacks⟩
      · exact fun hpacks => ⟨hc, p, k, rfl, hpacks⟩

/-- A string that encodes and is not empty has chosen a page. -/
theorem exists_chosenPage_of_encodes {w : Width} {s : State} (hn : n = widthBits (widthCode w)) (hne : cs ≠ [])
    (h : encodeResult w cs s = some ⟨.ok, v, 0⟩) : ∃ p, chosenPage s.params n cs = some p := by
  cases cs with
  | nil => exact absurd rfl hne
  | cons c cs =>
    rcases (encodeResult_cons_iff hn c cs v s).1 h with ⟨hc, -⟩ | ⟨hc, p, k, hpage, -⟩
    · exact ⟨_, chosenPage_of_special hc⟩
    · exact ⟨p, by rw [chosenPage_of_not_special hc, hpage]; rfl⟩

end Sys2Proof.Machine
end

section
/-! Decoding what was encoded (R143, R151, R152, R157, R159): the sequence a value spells in its page's mode, and that a
packed value spells the string packed. -/

namespace Sys2Proof.Machine

variable {P : Params} {n b j slots : Nat} {p : Page} {c : Scalar} {cs cs' : List Scalar} {v v' : Bus} {m : UnitMode}
  {w : Width} {s s' : State}

/-! ### What a value spells -/

/-- The value spells the sequence `cs`: its first units, none of them 0, are those of the characters, and the next unit is
0 where there is a slot for it (R135, R143). -/
structure UnitMode.Spells (m : UnitMode) (n : Nat) (v : Bus) (cs : List Scalar) : Prop where
  length_le : cs.length ≤ m.slots
  char : ∀ i (h : i < cs.length), unitAt n m.bits v i ≠ 0 ∧ m.charOfUnit (unitAt n m.bits v i) = cs[i]
  stop : cs.length < m.slots → unitAt n m.bits v cs.length = 0

/-- What the loop of R143 reads from unit `j` on. -/
theorem readUnits_eq_iff {charOfUnit : BitVec b → Scalar} : readUnits n b charOfUnit v slots j = cs ↔
    cs.length ≤ slots ∧
      (∀ i (h : i < cs.length), unitAt n b v (j + i) ≠ 0 ∧ charOfUnit (unitAt n b v (j + i)) = cs[i]) ∧
      (cs.length < slots → unitAt n b v (j + cs.length) = 0) := by
  induction slots generalizing j cs with
  | zero =>
    cases cs with
    | nil => simp [readUnits]
    | cons c cs => simp [readUnits]
  | succ slots ih =>
    by_cases hz : unitAt n b v j = 0
    · rw [readUnits, if_pos hz]
      cases cs with
      | nil => simp [hz]
      | cons c cs =>
        refine iff_of_false nofun fun ⟨_, hchar, _⟩ => ?_
        exact (hchar 0 (Nat.zero_lt_succ _)).1 hz
    · rw [readUnits, if_neg hz]
      cases cs with
      | nil => exact iff_of_false nofun fun ⟨_, _, hstop⟩ => hz (hstop (Nat.zero_lt_succ _))
      | cons c cs =>
        have hnext (i : Nat) : j + 1 + i = j + (i + 1) := by omega
        simp only [List.cons.injEq, ih, hnext, List.length_cons, Nat.succ_le_succ_iff, Nat.succ_lt_succ_iff]
        constructor
        · rintro ⟨hc, hlen, hchar, hstop⟩
          refine ⟨hlen, ?_, hstop⟩
          rintro (_ | i) hi
          · exact ⟨hz, hc⟩
          · exact hchar i (Nat.lt_of_succ_lt_succ hi)
        · rintro ⟨hlen, hchar, hstop⟩
          exact ⟨(hchar 0 (Nat.zero_lt_succ _)).2, hlen, fun i hi => hchar (i + 1) (Nat.succ_lt_succ hi), hstop⟩

/-- `Decode(N, v)` is what the value spells in the mode of the page its tag names (R143). -/
theorem decodeFunction_eq_iff : decodeFunction P n v = cs ↔ (pageMode P n (valuePage n v)).Spells n v cs := by
  rw [decodeFunction_eq_readUnits, readUnits_eq_iff]
  simp only [Nat.zero_add]
  exact ⟨fun ⟨hlen, hchar, hstop⟩ => ⟨hlen, hchar, hstop⟩, fun h => ⟨h.length_le, h.char, h.stop⟩⟩

theorem lowBits_of_lt (hn : WidthFacts n) (hv : v.toNat < 2 ^ n) : lowBits n v = v :=
  BitVec.eq_of_toNat_eq (by rw [lowBits_toNat n v hn.le, Nat.mod_eq_of_lt hv])

theorem lowBits_lt (hn : WidthFacts n) (a : Bus) : (lowBits n a).toNat < 2 ^ n := by
  rw [lowBits_toNat n a hn.le]
  exact Nat.mod_lt _ (Nat.two_pow_pos n)

/-- A decode transaction on a value of the width gives `Decode(N, v)`. -/
theorem decodeResult_of_lt (hv : v.toNat < 2 ^ widthBits (widthCode w)) :
    decodeResult w v s = decodeFunction s.params (widthBits (widthCode w)) v := by
  rw [decodeTransactionComputesFunction w v s, lowBits_of_lt (widthFacts (widthCode_le w)) hv]

/-! ### Strings that encode -/

/-- A packed value spells the string packed. -/
theorem spells_of_packs (hm : m.Lawful P) (hn : WidthFacts n) (hfit : m.bits * m.slots ≤ codingBits n)
    (h : m.Packs n p cs v) : m.Spells n v cs := by
  obtain ⟨-, hlen, hunits, hzero, -⟩ := (packs_iff hn hfit (toNat_lt_of_packs hn hfit h)).1 h
  exact ⟨hlen, fun i hi => ⟨hm.unit_ne_zero (hunits i hi), hm.char_of_unit (hunits i hi)⟩, hzero _ le_rfl⟩

theorem unitOf_ne_none_of_packs (h : m.Packs n p cs v) (hc : c ∈ cs) : m.unitOf c ≠ none := by
  obtain ⟨us, hus, -⟩ := h
  obtain ⟨u, -, hu⟩ := List.mem_map.1 (hus ▸ List.mem_map_of_mem (f := m.unitOf) hc)
  simp [← hu]

/-- The tag of a packed value names the page it was packed on (R50). -/
theorem valuePage_of_packs (hn : WidthFacts n) (hfit : m.bits * m.slots ≤ codingBits n) (hp : Admits n p)
    (h : m.Packs n p cs v) : valuePage n v = p := by
  obtain ⟨htag, -⟩ := (packs_iff hn hfit (toNat_lt_of_packs hn hfit h)).1 h
  exact valuePage_of_tagField hn hp htag

/-- What packs a string on a page the width admits decodes to the string. -/
theorem decodeFunction_of_packs (hP : P.Valid) (hn : WidthFacts n) (hp : Admits n p)
    (h : (pageMode P n p).Packs n p cs v) : decodeFunction P n v = cs := by
  obtain rfl := valuePage_of_packs hn (pageMode_fits P hn p) hp h
  exact decodeFunction_eq_iff.2 (spells_of_packs (lawful_pageMode hP n _) hn (pageMode_fits P hn _) h)

/-- The value 0 decodes to the empty sequence (R159). -/
theorem decodeFunction_zero (P : Params) (n : Nat) : decodeFunction P n 0 = [] :=
  decodeFunction_eq_iff.2 ⟨Nat.zero_le _, nofun, fun _ => BitVec.eq_of_toNat_eq (by rw [unitAt_toNat]; simp)⟩

theorem decodeResult_zero (w : Width) (s : State) : decodeResult w 0 s = [] := by
  rw [decodeResult_of_lt (by simp), decodeFunction_zero]

/-- A string that encodes is empty with value 0, or packed on the page it chooses (R122). -/
theorem encodeResult_cases (hP : s.params.Valid) (hn : n = widthBits (widthCode w))
    (h : encodeResult w cs s = some ⟨.ok, v, 0⟩) : (cs = [] ∧ v = 0) ∨
      ∃ p, chosenPage s.params n cs = some p ∧ Admits n p ∧ (pageMode s.params n p).Packs n p cs v := by
  by_cases hne : cs = []
  · subst hne
    cases (encodeResult_nil w s).symm.trans h
    exact .inl ⟨rfl, rfl⟩
  · obtain ⟨p, hp⟩ := exists_chosenPage_of_encodes hn hne h
    exact .inr ⟨p, hp, (encodeResult_iff_packs hP hn hp).1 h⟩

/-- What a string encodes to is a value of the width, and decodes to the string (R151). -/
theorem decodeResult_of_encodes (hP : s.params.Valid) (hs : s'.params = s.params)
    (h : encodeResult w cs s = some ⟨.ok, v, 0⟩) :
    v.toNat < 2 ^ widthBits (widthCode w) ∧ decodeResult w v s' = cs := by
  have hn := widthFacts (widthCode_le w)
  rcases encodeResult_cases hP rfl h with ⟨rfl, rfl⟩ | ⟨p, -, hadmits, hpacks⟩
  · exact ⟨by simp, decodeResult_zero w s'⟩
  · have hlt := toNat_lt_of_packs hn (pageMode_fits s.params hn p) hpacks
    exact ⟨hlt, by rw [decodeResult_of_lt hlt, hs, decodeFunction_of_packs hP hn hadmits hpacks]⟩

/-- A string that encodes holds no sentinel, and in special mode characters of the block only. -/
theorem mem_of_encodes (hP : s.params.Valid) (hn : n = widthBits (widthCode w))
    (h : encodeResult w cs s = some ⟨.ok, v, 0⟩) (hc : c ∈ cs) : c ≠ s.params.sentinel ∧
      (chosenPage s.params n cs = some s.params.specialTag → 0 < specialSlots n → s.params.InSpecial c) := by
  rcases encodeResult_cases hP hn h with ⟨rfl, -⟩ | ⟨p, hp, -, hpacks⟩
  · cases hc
  · have hunit := unitOf_ne_none_of_packs hpacks hc
    refine ⟨fun hs => hunit (hs ▸ (lawful_pageMode hP n p).unit_sentinel), fun hspc hslots => ?_⟩
    cases hp.symm.trans hspc
    rw [pageMode_of_special ⟨rfl, hslots⟩] at hunit
    by_contra hnot
    exact hunit (spcUnit_of_not_inSpecial hnot)

/-! ### The laws -/

/-- Settles O51: no units are pushed, and the value 0 has the unit 0 first. -/
theorem emptyStringIsZero : Obligations.EmptyStringIsZero := by
  unfold Obligations.EmptyStringIsZero
  exact fun w s => ⟨encodeResult_nil w s, decodeResult_zero w s⟩

/-- Settles O53: the value is packed, and so spells the string. -/
theorem roundTrip : Obligations.RoundTrip := by
  unfold Obligations.RoundTrip
  intro w cs v s s' hP hs h
  obtain ⟨-, hdecode⟩ := decodeResult_of_encodes hP hs h
  refine ⟨hdecode, fun hmem => (mem_of_encodes hP rfl h hmem).1 rfl, ?_⟩
  rintro ⟨c, hhead, hblock⟩ hslots d hd
  obtain ⟨cs, rfl⟩ := List.head?_eq_some_iff.1 hhead
  exact ((mem_of_encodes hP rfl h hd).2 (chosenPage_of_special ⟨hblock, hslots⟩) hslots).2

/-- Settles O54: both strings are what the value decodes to, and 0 decodes to the empty one. -/
theorem encodingIsInjective : Obligations.EncodingIsInjective := by
  unfold Obligations.EncodingIsInjective
  intro w cs cs' v s s' hP hs h h'
  obtain ⟨-, hdecode⟩ := decodeResult_of_encodes hP rfl h
  obtain ⟨-, hdecode'⟩ := decodeResult_of_encodes (hs.symm ▸ hP) hs.symm h'
  refine ⟨hdecode.symm.trans hdecode', ?_⟩
  rintro rfl
  rw [← hdecode, decodeResult_zero]

/-- Settles O57: only the empty string encodes to 0. -/
theorem emptyStringSortsFirst : Obligations.EmptyStringSortsFirst := by
  unfold Obligations.EmptyStringSortsFirst
  refine fun w a v s hP => ⟨encodeResult_nil w s, fun hne h => ?_⟩
  obtain ⟨-, hzero⟩ := encodingIsInjective w a a v s s hP rfl h h
  exact (BitVec.pos_iff_ne_zero v).2 fun hv => hne (hzero hv)

end Sys2Proof.Machine
end

section
/-! The order laws (R153 to R156): values of one page compare as the strings, values of different pages as the pages. -/

namespace Sys2Proof.Machine

variable {P : Params} {n : Nat} {p q : Page} {cs cs' : List Scalar} {v v' : Bus} {m : UnitMode}

/-! ### Within a page -/

/-- The units of a mode are in the order of the characters, so the lists of units are in the order of the strings. -/
theorem map_toNat_lt_of_lt (hm : m.Lawful P) {us us' : List (BitVec m.bits)} (hus : cs.map m.unitOf = us.map some)
    (hus' : cs'.map m.unitOf = us'.map some) (hlt : cs < cs') : us.map BitVec.toNat < us'.map BitVec.toNat := by
  induction cs generalizing us cs' us' with
  | nil =>
    obtain rfl := List.map_eq_nil_iff.1 hus.symm
    cases cs' with
    | nil => exact absurd hlt (List.not_lt_nil _)
    | cons c' cs' =>
      obtain ⟨u', us', rfl, -, -⟩ := List.map_eq_cons_iff.1 hus'.symm
      exact List.nil_lt_cons _ _
  | cons c cs ih =>
    cases cs' with
    | nil => exact absurd hlt (List.not_lt_nil _)
    | cons c' cs' =>
      obtain ⟨u, us, rfl, hu, htail⟩ := List.map_eq_cons_iff.1 hus.symm
      obtain ⟨u', us', rfl, hu', htail'⟩ := List.map_eq_cons_iff.1 hus'.symm
      rw [List.map_cons, List.map_cons, List.cons_lt_cons_iff]
      rcases List.cons_lt_cons_iff.1 hlt with hc | ⟨rfl, hrest⟩
      · exact .inl (hm.unit_lt_unit hc hu.symm hu'.symm)
      · exact .inr ⟨congrArg _ (Option.some.inj (hu.trans hu'.symm)), ih htail.symm htail'.symm hrest⟩

/-- On one page the values are in the order of the strings (R154, R155). -/
theorem packs_lt_of_lt (hm : m.Lawful P) (hfit : m.bits * m.slots ≤ codingBits n) (h : m.Packs n p cs v)
    (h' : m.Packs n p cs' v') (hlt : cs < cs') : v < v' := by
  obtain ⟨us, hus, hlen, hv⟩ := h
  obtain ⟨us', hus', hlen', hv'⟩ := h'
  have hunits' : ∀ u ∈ us'.map BitVec.toNat, 1 ≤ u ∧ u < 2 ^ m.bits := by
    intro u hu
    obtain ⟨k, hk, rfl⟩ := List.mem_map.1 hu
    obtain ⟨c, -, hc⟩ := List.mem_map.1 (hus' ▸ List.mem_map_of_mem hk)
    exact ⟨ne_zero_iff_one_le.1 (hm.unit_ne_zero hc), k.isLt⟩
  rw [BitVec.lt_def, hv, hv']
  refine packedValue_lt_of_lt (map_toNat_lt_of_lt hm hus hus' hlt) (units_lt us) hunits' ?_ ?_ <;>
    rw [List.length_map]
  · exact (Nat.mul_le_mul_left _ hlen).trans hfit
  · exact (Nat.mul_le_mul_left _ hlen').trans hfit

/-- On one page the values compare as the strings do: of two different strings one is the smaller. -/
theorem packs_lt_iff (hm : m.Lawful P) (hfit : m.bits * m.slots ≤ codingBits n) (h : m.Packs n p cs v)
    (h' : m.Packs n p cs' v') : cs < cs' ↔ v < v' := by
  refine ⟨packs_lt_of_lt hm hfit h h', fun hlt => ?_⟩
  rcases Std.lt_trichotomy cs cs' with hcs | rfl | hcs
  · exact hcs
  · exact absurd (packs_unique h h' ▸ hlt) (BitVec.lt_irrefl _)
  · exact absurd (packs_lt_of_lt hm hfit h' h hcs) (BitVec.lt_asymm hlt)

/-- Settles O55: both values are packed in the mode of the page. -/
theorem orderWithinPage : Obligations.OrderWithinPage := by
  unfold Obligations.OrderWithinPage
  intro w a b va vb s p hP ha hb hpa hpb
  obtain ⟨-, hpacks⟩ := (encodeResult_iff_packs hP rfl hpa).1 ha
  obtain ⟨-, hpacks'⟩ := (encodeResult_iff_packs hP rfl hpb).1 hb
  exact packs_lt_iff (lawful_pageMode hP _ p) (pageMode_fits _ (widthFacts (widthCode_le w)) p) hpacks hpacks'

/-! ### Across pages -/

/-- Stored tags of pages the width admits are in the order of the pages: a narrow tag drops two zero bits (R49, R50). -/
theorem storedTag_lt_storedTag (hn : WidthFacts n) (hp : Admits n p) (hq : Admits n q) (hlt : p < q) :
    storedTag (tagBits n) p < storedTag (tagBits n) q := by
  rw [BitVec.lt_def] at hlt ⊢
  rw [storedTag_toNat, storedTag_toNat]
  rcases hn.tag with ht | ht
  · have hp4 := (primary_iff p).1 (hp ht)
    have hq4 := (primary_iff q).1 (hq ht)
    rw [ht, if_neg (by decide), if_neg (by decide)]
    omega
  · rwa [ht, if_pos rfl, if_pos rfl]

/-- What strings are encoded on: the special block, or a valid table page. -/
def StringPage (P : Params) (n : Nat) (p : Page) : Prop := SpecialPage P n p ∨ ¬ SpecialPage P n p ∧ P.ValidPage p

theorem stringPage_of_chosenPage (hP : P.Valid) (h : chosenPage P n cs = some p) : StringPage P n p := by
  cases cs with
  | nil => cases h
  | cons c cs =>
    rcases (chosenPage_cons_iff hP).1 h with ⟨-, hp⟩ | ⟨-, hp, k, hk⟩
    · exact .inl hp
    · exact .inr ⟨hp, (validPage_of_codeOf hP hk).1⟩

theorem firstCharacter_of_special (h : SpecialPage P n p) : firstCharacter P n p = P.lowBound := if_pos h

theorem firstCharacter_of_not_special (h : ¬ SpecialPage P n p) : firstCharacter P n p = P.entry p 1 := if_neg h

/-- Where the special block has its place in V4, what strings are encoded on stands in the order of its first
characters. -/
theorem firstCharacter_lt (hP : P.Valid) (hblock : P.V4WithBlock) (hp : StringPage P n p) (hq : StringPage P n q)
    (hlt : p < q) : firstCharacter P n p < firstCharacter P n q := by
  rcases hp with hp | ⟨hp, hvalid⟩ <;> rcases hq with hq | ⟨hq, hvalid'⟩
  · exact absurd hlt (by rw [hp.1, hq.1]; exact BitVec.lt_irrefl _)
  · rw [firstCharacter_of_special hp, firstCharacter_of_not_special hq]
    exact (hblock q hvalid').2 (hp.1 ▸ hlt)
  · rw [firstCharacter_of_not_special hp, firstCharacter_of_special hq]
    exact (hblock p hvalid).1 (hq.1 ▸ hlt)
  · rw [firstCharacter_of_not_special hp, firstCharacter_of_not_special hq]
    exact hP.v4 p q hlt hvalid hvalid'

theorem firstCharacter_lt_iff (hP : P.Valid) (hblock : P.V4WithBlock) (hp : StringPage P n p)
    (hq : StringPage P n q) : p < q ↔ firstCharacter P n p < firstCharacter P n q := by
  refine ⟨firstCharacter_lt hP hblock hp hq, fun hlt => ?_⟩
  rcases Std.lt_trichotomy p q with h | rfl | h
  · exact h
  · exact absurd hlt (BitVec.lt_irrefl _)
  · exact absurd (firstCharacter_lt hP hblock hq hp h) (BitVec.lt_asymm hlt)

/-- Settles O56: the stored tags stand above the units, and V4 orders the pages. -/
theorem orderAcrossPages : Obligations.OrderAcrossPages := by
  unfold Obligations.OrderAcrossPages
  intro w a b va vb s p q hP ha hb hpa hqb
  have hn := widthFacts (widthCode_le w)
  obtain ⟨hp, hpacks⟩ := (encodeResult_iff_packs hP rfl hpa).1 ha
  obtain ⟨hq, hpacks'⟩ := (encodeResult_iff_packs hP rfl hqb).1 hb
  refine ⟨fun hlt => ?_, fun hblock => ?_⟩
  · exact packs_lt_of_storedTag_lt (pageMode_fits _ hn p) (pageMode_fits _ hn q)
      (storedTag_lt_storedTag hn hp hq hlt) hpacks hpacks'
  · exact firstCharacter_lt_iff hP hblock (stringPage_of_chosenPage hP hpa) (stringPage_of_chosenPage hP hqb)

end Sys2Proof.Machine
end

section
/-! As many characters as there are slots encode (R115, R118, R158): the loop of R122 over characters that all have a
unit. -/

namespace Sys2Proof.Machine

variable {n b slots i : Nat} {p : Page} {c : Scalar} {cs : List Scalar} {v : Bus}
  {unitOf : Scalar → Option (BitVec b)} {w : Width} {s : State}

/-- The loop over characters with units, from slot `i` on: OK while there are slots, TOO_LONG after (R122). -/
theorem packUnits_of_units (hunits : ∀ c ∈ cs.take (slots - i + 1), unitOf c ≠ none) (hi : i ≤ slots) :
    (i + cs.length ≤ slots → ∃ v', packUnits n b slots (busUnit unitOf) i v cs = ⟨.ok, v', 0⟩) ∧
    (slots < i + cs.length → packUnits n b slots (busUnit unitOf) i v cs = ⟨.tooLong, 0, 0⟩) := by
  induction cs generalizing i v with
  | nil => exact ⟨fun _ => ⟨v, rfl⟩, fun h => absurd h (Nat.not_lt.2 hi)⟩
  | cons c cs ih =>
    obtain ⟨u, hu⟩ := Option.ne_none_iff_exists'.1 (hunits c List.mem_cons_self)
    rw [List.length_cons]
    rcases Nat.eq_or_lt_of_le hi with hfull | hfree
    · exact ⟨fun h => by omega, fun _ => packUnits_of_full hu hfull.ge⟩
    · have hrest : ∀ c ∈ cs.take (slots - (i + 1) + 1), unitOf c ≠ none := fun d hd =>
        hunits d (List.mem_cons_of_mem c (by rwa [show slots - i = slots - (i + 1) + 1 by omega]))
      rw [packUnits_of_unit hu hfree, ← Nat.add_assoc, Nat.add_right_comm]
      exact ih hrest hfree

/-- On the page it chooses a string answers what the loop computes in the page's mode, where the width admits the page
(R122). -/
theorem encodeFunction_of_chosenPage {P : Params} (hP : P.Valid) (h : chosenPage P n cs = some p)
    (hadmits : Admits n p) : encodeFunction P n cs =
      packUnits n (pageMode P n p).bits (pageMode P n p).slots (busUnit (pageMode P n p).unitOf) 0 (tagged n p) cs := by
  cases cs with
  | nil => cases h
  | cons c cs =>
    rcases (chosenPage_cons_iff hP).1 h with ⟨hc, hp⟩ | ⟨hc, hp, k, hk⟩
    · rw [encodeFunction_of_special hc, pageMode_of_special hp, hp.1]
      rfl
    · rw [encodeFunction_of_ordinary hc (pageOf_of_codeOf hP hk) hadmits, pageMode_of_not_special hp]
      rfl

/-- The string encodes when it fits in the slots and is too long when it does not (R158). -/
def EncodesUpTo (slots : Nat) (w : Width) (cs : List Scalar) (s : State) : Prop :=
  (cs.length ≤ slots → ∃ v, encodeResult w cs s = some ⟨.ok, v, 0⟩) ∧
    (slots < cs.length → encodeResult w cs s = some ⟨.tooLong, 0, 0⟩)

theorem encodesUpTo_nil (slots : Nat) (w : Width) (s : State) : EncodesUpTo slots w [] s :=
  ⟨fun _ => ⟨0, encodeResult_nil w s⟩, fun h => absurd h (Nat.not_lt_zero _)⟩

/-- A string whose characters, up to one more than there are slots, all have a unit on the page it chooses. -/
theorem encodesUpTo_of_units (hP : s.params.Valid) (hn : n = widthBits (widthCode w))
    (h : chosenPage s.params n cs = some p) (hadmits : Admits n p)
    (hunits : ∀ c ∈ cs.take ((pageMode s.params n p).slots + 1), (pageMode s.params n p).unitOf c ≠ none) :
    EncodesUpTo (pageMode s.params n p).slots w cs s := by
  have hloop := packUnits_of_units (n := n) (v := tagged n p) (i := 0) hunits (Nat.zero_le _)
  rw [← encodeFunction_of_chosenPage hP h hadmits, Nat.zero_add] at hloop
  rw [EncodesUpTo, encodeTransactionComputesFunction w cs s, ← hn]
  simpa only [Option.some_inj] using hloop

/-- Settles O52: the page of the statement is the one the first character chooses. -/
theorem capacityBoundary : Obligations.CapacityBoundary := by
  unfold Obligations.CapacityBoundary
  intro w s cs n hP hn
  cases cs with
  | nil => exact ⟨fun _ _ _ _ => encodesUpTo_nil _ w s, fun _ _ => encodesUpTo_nil _ w s⟩
  | cons c cs =>
    refine ⟨fun p hadmits hcodes hfirst => ?_, fun hslots hblock => ?_⟩
    · have hc := hfirst c rfl
      obtain ⟨k, hk⟩ := Option.ne_none_iff_exists'.1 (hcodes c List.mem_cons_self)
      have hp := not_specialPage_of_codeOf hP hc hk
      have hmode := pageMode_of_not_special hp
      have hchosen : chosenPage s.params n (c :: cs) = some p := (chosenPage_cons_iff hP).2 (.inr ⟨hc, hp, k, hk⟩)
      have hupTo := encodesUpTo_of_units hP hn hchosen hadmits (by rw [hmode]; exact hcodes)
      rwa [hmode] at hupTo
    · have hp : SpecialPage s.params n s.params.specialTag := ⟨rfl, hslots⟩
      have hmode := pageMode_of_special hp
      have hchosen := chosenPage_of_special (cs := cs) ⟨hblock c List.mem_cons_self, hslots⟩
      have hunits : ∀ d ∈ (c :: cs).take (specialSlots n + 1), spcUnit s.params d ≠ none := fun d hd => by
        obtain ⟨u, hu, -⟩ := spcUnit_of_inSpecial (hblock d hd)
        simp [hu]
      have hupTo := encodesUpTo_of_units hP hn hchosen (admits_of_specialPage hP hp) (by rw [hmode]; exact hunits)
      rwa [hmode] at hupTo

end Sys2Proof.Machine
end

section
/-! Strict validation (R53, R137, R161): what encoding a decoded sequence again gives, and why it may not give the value
back. -/

namespace Sys2Proof.Machine

variable {P : Params} {n : Nat} {p : Page} {c : Scalar} {cs : List Scalar} {v a : Bus} {m : UnitMode} {w : Width}
  {s : State} {r : Response}

/-! ### Canonical values -/

/-- An encode transaction that answers OK carries no information (R60). -/
theorem encodeResult_of_ok (h : encodeResult w cs s = some r) (hok : r.status = .ok) : r = ⟨.ok, r.data, 0⟩ := by
  rw [encodeResult_eq, Option.some_inj] at h
  cases hpush : pushAll s.params cs (EncRegs.start (widthCode w)) with
  | ok e =>
    rw [hpush] at h
    cases h
    rfl
  | error x =>
    rw [hpush] at h
    cases h
    exact absurd hok (encError_status_ne_ok x)

/-- Decoding looks at the low N bits of the operand only (R131). -/
theorem decodeResult_lowBits (w : Width) (a : Bus) (s : State) :
    decodeResult w (lowBits (widthBits (widthCode w)) a) s = decodeResult w a s := by
  rw [decodeResult_of_lt (lowBits_lt (widthFacts (widthCode_le w)) a), decodeTransactionComputesFunction w a s]

/-- A value is canonical exactly when re-encoding gives it back: what encodes to it is what it decodes to (R161). -/
theorem canonical_iff_reencode (hP : s.params.Valid) (hv : v = lowBits (widthBits (widthCode w)) a) :
    Canonical w v s ↔ reencode w a s = some ⟨.ok, v, 0⟩ := by
  refine ⟨fun ⟨cs, hcs⟩ => ?_, fun h => ⟨_, h⟩⟩
  obtain ⟨-, hdecode⟩ := decodeResult_of_encodes hP rfl hcs
  rw [hv, decodeResult_lowBits] at hdecode
  rw [reencode, hdecode, hcs]

/-- Settles O59: the three forms of re-encoding, and that an answer is always given. -/
theorem strictValidationByReencoding : Obligations.StrictValidationByReencoding := by
  unfold Obligations.StrictValidationByReencoding
  intro w arg v s hP hv
  have hiff := canonical_iff_reencode hP hv
  obtain ⟨r, hr⟩ : ∃ r, reencode w arg s = some r :=
    ⟨_, encodeTransactionComputesFunction w (decodeResult w arg s) s⟩
  refine ⟨by rw [hiff, strictlyValid_iff, hv], hiff, fun hnot => ⟨r, hr, ?_⟩⟩
  by_contra hsame
  obtain ⟨hok, hdata⟩ : r.status = .ok ∧ r.data = v := by simpa only [not_or, ne_eq, not_not] using hsame
  refine hnot (hiff.2 (hr.trans ?_))
  rw [encodeResult_of_ok hr hok, hdata]

/-! ### Why it fails -/

/-- A character that a value spells has a unit, or is the sentinel or above the block (R92, R98). -/
theorem UnitMode.Spells.unit (hm : m.Lawful P) (h : m.Spells n v cs) {i : Nat} (hi : i < cs.length) :
    m.unitOf cs[i] = some (unitAt n m.bits v i) ∨
      m.unitOf cs[i] = none ∧ (cs[i] = P.sentinel ∨ P.highBound < cs[i]) := by
  obtain ⟨hne, hchar⟩ := h.char i hi
  rw [← hchar]
  exact hm.unit_of_char hne

/-- A sequence without sentinel and without values above the block, spelled by a value whose page its first character
chooses, encodes (R161). -/
theorem encodes_of_spells (hP : s.params.Valid) (hn : n = widthBits (widthCode w))
    (h : (pageMode s.params n (valuePage n v)).Spells n v cs) (hfails : ¬ ReencodingFails s.params n v cs) :
    ∃ v', encodeResult w cs s = some ⟨.ok, v', 0⟩ := by
  obtain ⟨hsentinel, habove, hpage⟩ : s.params.sentinel ∉ cs ∧ (¬ ∃ c ∈ cs, s.params.highBound < c) ∧
      ¬ SelectsAnotherPage s.params n v cs := by simpa only [ReencodingFails, not_or] using hfails
  have hunits : ∀ c ∈ cs, (pageMode s.params n (valuePage n v)).unitOf c ≠ none := by
    intro c hc
    obtain ⟨i, hi, rfl⟩ := List.mem_iff_getElem.1 hc
    rcases h.unit (lawful_pageMode hP n _) hi with hunit | ⟨-, hs | hhigh⟩
    · simp [hunit]
    · exact absurd (hs ▸ hc) hsentinel
    · exact absurd ⟨_, hc, hhigh⟩ habove
  cases cs with
  | nil => exact ⟨0, encodeResult_nil w s⟩
  | cons c cs =>
    obtain ⟨q, hq⟩ := exists_chosenPage_of_unit (cs := cs) hP (hunits c List.mem_cons_self)
    obtain rfl : q = valuePage n v := not_not.1 fun hne => hpage ⟨q, hq, hne⟩
    exact (encodesUpTo_of_units hP hn hq (admits_valuePage n v) fun d hd => hunits d (List.mem_of_mem_take hd)).1
      h.length_le

/-! ### Why it differs -/

/-- A value with a nonzero unit after a zero one, nonzero bits below the last slot, or the unit 0 first though it is not
0 (R161). -/
def UnitMode.Irregular (m : UnitMode) (n : Nat) (v : Bus) : Prop :=
  (∃ i j, i < j ∧ j < m.slots ∧ unitAt n m.bits v i = 0 ∧ unitAt n m.bits v j ≠ 0) ∨
    v.toNat % 2 ^ (codingBits n - m.bits * m.slots) ≠ 0 ∨ (unitAt n m.bits v 0 = 0 ∧ v ≠ 0)

/-- R161's reasons are the irregularities of the mode of the value's page; in ordinary mode no bits stand below the last
slot. -/
theorem reencodingDiffers_iff (hn : WidthFacts n) :
    ReencodingDiffers P n v ↔ (pageMode P n (valuePage n v)).Irregular n v := by
  by_cases h : SpecialPage P n (valuePage n v)
  · have hslack : codingBits n - 15 * specialSlots n = slack15 n := by rw [hn.spc, Nat.add_sub_cancel_left]
    rw [pageMode_of_special h, ReencodingDiffers, or_iff_left fun hord => hord.1 h, and_iff_right h, ← hslack]
    exact Iff.rfl
  · have hnone : v.toNat % 2 ^ (codingBits n - 6 * charSlots n) = 0 := by
      rw [hn.ord, Nat.sub_self]
      exact Nat.mod_one _
    rw [pageMode_of_not_special h, ReencodingDiffers, or_iff_right fun hspc => h hspc.1, and_iff_right h]
    exact or_congr_right (or_iff_right fun hlow => hlow hnone).symm

/-- A regular value packs what it spells, where the characters have units (R53, R161). -/
theorem packs_of_spells (hm : m.Lawful P) (hn : WidthFacts n) (hfit : m.bits * m.slots ≤ codingBits n)
    (hv : v.toNat < 2 ^ n) (h : m.Spells n v cs) (hunits : ∀ c ∈ cs, m.unitOf c ≠ none)
    (hregular : ¬ m.Irregular n v) : m.Packs n (valuePage n v) cs v := by
  obtain ⟨hzeros, hlow, -⟩ := by simpa only [UnitMode.Irregular, not_or] using hregular
  refine (packs_iff hn hfit hv).2 ⟨?_, h.length_le, fun i hi => ?_, fun j hj hslot => ?_, not_not.1 hlow⟩
  · exact (storedTag_normTag hn.tag (tagField_toNat hn hv).2).symm
  · exact (h.unit hm hi).resolve_right fun hnone => hunits _ (List.getElem_mem hi) hnone.1
  · have hstop := h.stop (Nat.lt_of_le_of_lt hj hslot)
    rcases Nat.eq_or_lt_of_le hj with rfl | hlt
    · exact hstop
    · exact not_not.1 fun hne => hzeros ⟨_, j, hlt, hslot, hstop, hne⟩

/-- A regular value whose page the first character of its sequence chooses is given back, where anything is (R161). -/
theorem reencoded_eq (hP : s.params.Valid) (hn : n = widthBits (widthCode w)) (hv : v.toNat < 2 ^ n)
    (h : (pageMode s.params n (valuePage n v)).Spells n v cs) {v' : Bus}
    (hencodes : encodeResult w cs s = some ⟨.ok, v', 0⟩) (hregular : ¬ ReencodingDiffers s.params n v)
    (hpage : ¬ SelectsAnotherPage s.params n v cs) : v' = v := by
  have hfacts : WidthFacts n := hn ▸ widthFacts (widthCode_le w)
  rw [reencodingDiffers_iff hfacts] at hregular
  rcases encodeResult_cases hP hn hencodes with ⟨rfl, rfl⟩ | ⟨q, hq, -, hpacks⟩
  · have hfirst := h.stop (pageMode_slots_pos s.params hfacts _)
    exact not_not.1 fun hne => hregular (.inr (.inr ⟨hfirst, fun hzero => hne hzero.symm⟩))
  · obtain rfl : q = valuePage n v := not_not.1 fun hne => hpage ⟨q, hq, hne⟩
    exact packs_unique hpacks (packs_of_spells (lawful_pageMode hP n _) hfacts (pageMode_fits s.params hfacts _) hv h
      (fun c hc => unitOf_ne_none_of_packs hpacks hc) hregular)

/-- Settles O60: with none of the reasons to fail the sequence encodes, and with none of the reasons to differ it encodes
to the value. -/
theorem reencodingFailsForReasons : Obligations.ReencodingFailsForReasons := by
  unfold Obligations.ReencodingFailsForReasons
  rintro w arg v s r n hP hn rfl hr
  have hv : (lowBits n arg).toNat < 2 ^ n := lowBits_lt (hn ▸ widthFacts (widthCode_le w)) arg
  have hspells : (pageMode s.params n (valuePage n (lowBits n arg))).Spells n (lowBits n arg)
      (decodeResult w arg s) := by
    rw [decodeTransactionComputesFunction w arg s, ← hn]
    exact decodeFunction_eq_iff.1 rfl
  refine ⟨fun herror => ?_, fun hok hdiffers => ?_⟩
  · by_contra hfails
    obtain ⟨v', hencodes⟩ := encodes_of_spells hP hn hspells hfails
    cases hr.symm.trans hencodes
    exact herror rfl
  · by_contra hnot
    obtain ⟨hregular, hpage⟩ := not_or.1 hnot
    have hencodes : encodeResult w (decodeResult w arg s) s = some ⟨.ok, r.data, 0⟩ :=
      hr.trans (congrArg some (encodeResult_of_ok hr hok))
    exact hdiffers (reencoded_eq hP hn hv hspells hencodes hregular hpage)

end Sys2Proof.Machine
end

section
/-! Errors (R165 to R173): when EPUSH raises each of the four and what it records, that a latched error stays until a
valid ESTART or a reset, and that the decoder has no error. -/

namespace Sys2Proof.Machine

variable {P : Params} {e e' : EncRegs} {c : Scalar} {x : EncError} {i : Instr} {s t : State} {b : Nat}
  {unitOf : Scalar → Option (BitVec b)}

/-! ### How the four errors are raised -/

/-- The choice of page fails in two ways (R110, R111). -/
theorem choosePage_eq_error_iff : choosePage P c e = .error x ↔
    ¬ (P.InSpecial c ∧ 0 < specialSlots (widthBits e.w)) ∧
      ((pageOf P c = none ∧ x = .noCodePage c) ∨
        ∃ p k, pageOf P c = some (p, k) ∧ tagBits (widthBits e.w) = 2 ∧ ¬ Primary p ∧ x = .pageUnavailable p) := by
  by_cases hspc : P.InSpecial c ∧ 0 < specialSlots (widthBits e.w)
  · simp [choosePage_of_special hspc, hspc]
  · rcases hpage : pageOf P c with _ | ⟨p, k⟩
    · simp [choosePage_of_noPage hspc hpage, hspc, eq_comm]
    · by_cases hnarrow : tagBits (widthBits e.w) = 2 ∧ ¬ Primary p
      · rw [choosePage_of_unavailable hspc hpage hnarrow]
        obtain ⟨ht, hp⟩ := hnarrow
        constructor
        · rintro ⟨⟩
          exact ⟨hspc, .inr ⟨p, k, rfl, ht, hp, rfl⟩⟩
        · rintro ⟨-, ⟨hnone, -⟩ | ⟨q, j, hq, -, -, rfl⟩⟩
          · cases hnone
          · cases hq
            rfl
      · rw [choosePage_of_ordinary hspc hpage fun ht => not_not.1 fun hp => hnarrow ⟨ht, hp⟩]
        refine ⟨fun h => (by cases h), ?_⟩
        rintro ⟨-, ⟨hnone, -⟩ | ⟨q, j, hq, ht, hp, -⟩⟩
        · cases hnone
        · cases hq
          exact absurd ⟨ht, hp⟩ hnarrow

/-- A first character whose page is chosen is accepted: it has a unit on that page, and every slot is free. -/
theorem pushChar_ok_of_choose (hw : e.w.toNat ≤ 4) (hm : e.mode = .empty) (h : choosePage P c e = .ok e') :
    ∃ e₁, pushChar P c e = .ok e₁ := by
  have hn := widthFacts hw
  rcases choosePage_eq_ok_iff.1 h with ⟨⟨hblock, hslots⟩, rfl⟩ | ⟨-, p, k, hpage, -, rfl⟩
  · obtain ⟨u, hu, -⟩ := spcUnit_of_inSpecial hblock
    exact ⟨_, pushChar_of_choose (pushesUnits_spc P) (by decide) hslots (hn.spcLe.trans hn.ordLe) hm h hu⟩
  · exact ⟨_, pushChar_of_choose (pushesUnits_ord P p) (by decide) hn.ordPos hn.ordLe hm h (codeOf_of_pageOf hpage)⟩

/-- The first character fails only where the choice of page does. -/
theorem pushChar_eq_error_iff_of_empty (hw : e.w.toNat ≤ 4) (hm : e.mode = .empty) :
    pushChar P c e = .error x ↔ choosePage P c e = .error x := by
  cases hchoose : choosePage P c e with
  | error y => rw [pushChar_of_empty_error hm hchoose]
  | ok e₁ =>
    obtain ⟨e₂, hpush⟩ := pushChar_ok_of_choose hw hm hchoose
    simp [hpush]

/-- A later character fails in two ways: it has no unit on the chosen page, or no slot is left (R113 to R118). -/
theorem pushChar_eq_error_iff_of_units (hunits : PushesUnits P e.mode e.page unitOf) :
    pushChar P c e = .error x ↔ (unitOf c = none ∧ x = .missingFromPage c) ∨
      (unitOf c ≠ none ∧ e.rem.toNat = 0 ∧ x = .tooLong) := by
  cases hu : unitOf c with
  | none => simp [hunits.missing rfl rfl hu, eq_comm]
  | some u => simp [hunits.unit rfl rfl hu, acceptUnit_eq_error]

theorem spcUnit_eq_none_iff : spcUnit P c = none ↔ ¬ P.InSpecial c := by
  refine ⟨fun hnone hblock => ?_, spcUnit_of_not_inSpecial⟩
  obtain ⟨u, hu, -⟩ := spcUnit_of_inSpecial hblock
  simp [hu] at hnone

/-- The condition of each error on the character and the registers before (the table of R167). -/
def EncRegs.Raises (P : Params) (c : Scalar) (e : EncRegs) : EncError → Prop
  | .noCodePage d => d = c ∧ e.mode = .empty ∧
      ¬ (P.InSpecial c ∧ 0 < specialSlots (widthBits e.w)) ∧ pageOf P c = none
  | .pageUnavailable p => e.mode = .empty ∧ ¬ (P.InSpecial c ∧ 0 < specialSlots (widthBits e.w)) ∧
      (∃ k, pageOf P c = some (p, k)) ∧ tagBits (widthBits e.w) = 2 ∧ ¬ Primary p
  | .missingFromPage d => d = c ∧
      ((e.mode = .ord ∧ codeOf P e.page c = none) ∨ (e.mode = .spc ∧ ¬ P.InSpecial c))
  | .tooLong => e.rem.toNat = 0 ∧
      ((e.mode = .ord ∧ codeOf P e.page c ≠ none) ∨ (e.mode = .spc ∧ P.InSpecial c))

/-- A character is refused with an error exactly under that error's condition: in EMPTY mode it is the choice of page
that fails, in ORD and SPC mode the unit. -/
theorem pushChar_eq_error_iff (hm : e.mode ≠ .err) (hw : e.w.toNat ≤ 4) :
    pushChar P c e = .error x ↔ e.Raises P c x := by
  cases hmode : e.mode with
  | err => exact absurd hmode hm
  | empty =>
    rw [pushChar_eq_error_iff_of_empty hw hmode, choosePage_eq_error_iff]
    cases x with
    | noCodePage d => simp [EncRegs.Raises, hmode, and_comm, and_assoc]
    | pageUnavailable p => simp [EncRegs.Raises, hmode]
    | missingFromPage d => simp [EncRegs.Raises, hmode]
    | tooLong => simp [EncRegs.Raises, hmode]
  | ord =>
    rw [pushChar_eq_error_iff_of_units (hmode.symm ▸ pushesUnits_ord P e.page)]
    cases x <;> simp [EncRegs.Raises, hmode, and_comm]
  | spc =>
    rw [pushChar_eq_error_iff_of_units (hmode.symm ▸ pushesUnits_spc_anyPage P e.page), ne_eq, spcUnit_eq_none_iff,
      not_not]
    cases x <;> simp [EncRegs.Raises, hmode, and_comm]

/-- EPUSH writes only `E.MODE`, `E.ERR` and `E.INFO` where it ends in an error (R120, R170). -/
theorem exec_epush_error_frame (hm : s.enc.mode ≠ .err) (h : exec (.epush c) s = .next t) (herr : t.enc.mode = .err) :
    t.enc = { s.enc with mode := .err, err := t.enc.err, info := t.enc.info } := by
  rw [exec_epush hm] at h
  cases h
  cases hpush : pushChar s.params c s.enc with
  | ok e =>
    rw [hpush] at herr
    exact absurd herr (pushChar_mode hm hpush)
  | error y => rfl

/-- Settles O36: an EPUSH ends in the error its character gives, which is the one whose condition holds. -/
theorem errorsAreRaisedExactlyWhen : Obligations.ErrorsAreRaisedExactlyWhen := by
  unfold Obligations.ErrorsAreRaisedExactlyWhen
  intro c s t x hm hw h
  refine ⟨?_, exec_epush_error_frame hm h⟩
  rw [exec_epush hm] at h
  cases h
  exact (settle_err_iff fun e he => pushChar_mode hm he).trans (pushChar_eq_error_iff hm hw)

/-! ### What leaves a latched error -/

/-- The encoder commands are ESTART, EREAD and EPUSH (R21). -/
theorem isEncoder_iff : i.isEncoder = true ↔ i.isEstart = true ∨ i = .eread ∨ ∃ c, i = .epush c := by
  cases i <;> simp [Instr.isEncoder, Instr.isEstart]

/-- EPUSH and EREAD answer the latched error with no data and write nothing else (R108, R119). -/
theorem exec_latched (hm : s.enc.mode = .err) (hi : i = .eread ∨ ∃ c, i = .epush c) :
    exec i s = .next (s.respond s.enc.err 0 s.enc.info) := by
  rcases hi with rfl | ⟨c, rfl⟩
  · exact exec_eread_latched hm
  · exact exec_epush_latched hm c

/-- Settles O37: EPUSH and EREAD answer the error, and every other command but ESTART is no encoder command. -/
theorem latchedErrorIsSticky : Obligations.LatchedErrorIsSticky := by
  unfold Obligations.LatchedErrorIsSticky
  intro i s hm hestart
  by_cases hi : i = .eread ∨ ∃ c, i = .epush c
  · exact ⟨_, exec_latched hm hi, rfl, fun _ => rfl⟩
  · have hne : i.isEncoder = false := Bool.eq_false_iff.2 fun h => by simp [isEncoder_iff, hestart, hi] at h
    obtain ⟨t, r, ht, -⟩ := exec_responds i s
    exact ⟨t, ht, exec_enc_of_not_encoder hne ht, fun h => absurd h hi⟩

/-- The edges that begin a new transaction of the encoder: `rst` is 1, or a valid ESTART is taken (R172). -/
def Edge.StartsEncoder (g : Edge) : Prop :=
  g.rst = true ∨ ∃ c i, g.command = some c ∧ decode c = .ok i ∧ i.isEstart = true

theorem not_startsEncoder_of_command {g : Edge} {d : Command} (hcommand : g.command = some d)
    (hdecode : ∀ i, decode d = .ok i → i.isEstart = false) : ¬ g.StartsEncoder := by
  rintro (hrst | ⟨d', i, hd', hi, hestart⟩)
  · simp [command_eq_none_of_rst hrst] at hcommand
  · cases hcommand.symm.trans hd'
    simp [hdecode i hi] at hestart

/-- All an edge can do to a latched error: it begins a new transaction, as ESTART does, or keeps every encoder
register. Reset leaves what ESTART w8 does (R27). -/
theorem step_latched_cases (h : step s = .next t) (hm : s.enc.mode = .err) :
    (s.edge.StartsEncoder ∧ ∃ w, t.enc = EncRegs.start w) ∨ (¬ s.edge.StartsEncoder ∧ t.enc = s.enc) := by
  rcases step_cases h with ⟨hrst, rfl⟩ | ⟨hrst, hnone, rfl⟩ | ⟨d, i, hd, hi, hexec⟩ | ⟨d, r, hd, hr, rfl⟩
  · exact .inl ⟨.inl hrst, 0, rfl⟩
  · exact .inr ⟨by simp [Edge.StartsEncoder, hrst, hnone], rfl⟩
  · cases hestart : i.isEstart with
    | true =>
      obtain ⟨w, rfl⟩ := isEstart_iff.1 hestart
      rw [exec_ofEstart] at hexec
      cases hexec
      exact .inl ⟨.inr ⟨d, _, hd, hi, hestart⟩, widthCode w, rfl⟩
    | false =>
      obtain ⟨t', ht', henc, -⟩ := latchedErrorIsSticky i s.advance hm hestart
      cases hexec.symm.trans ht'
      refine .inr ⟨not_startsEncoder_of_command hd fun j hj => ?_, henc⟩
      cases hi.symm.trans hj
      exact hestart
  · exact .inr ⟨not_startsEncoder_of_command hd fun j hj => by simp [hr] at hj, rfl⟩

/-- Settles O38: an edge that begins a transaction leaves the registers of ESTART, and every other edge the error. -/
theorem onlyEstartOrResetClearsError : Obligations.OnlyEstartOrResetClearsError := by
  unfold Obligations.OnlyEstartOrResetClearsError
  intro s t h hm
  rcases step_latched_cases h hm with ⟨hstarts, w, henc⟩ | ⟨hkeeps, henc⟩
  · have hmode : t.enc.mode ≠ .err := by simp [henc, EncRegs.start]
    exact ⟨iff_of_true hmode hstarts, fun _ => by simp [henc, EncRegs.start], fun herr => absurd herr hmode⟩
  · have hmode : ¬ t.enc.mode ≠ .err := by simp [henc, hm]
    exact ⟨iff_of_false hmode hkeeps, fun hne => absurd hne hmode, fun _ => henc⟩

/-! ### The decoder has no error -/

/-- Settles O47: DLOAD answers OK, and DNEXT a character or the end. -/
theorem decoderNeverFails : Obligations.DecoderNeverFails := by
  unfold Obligations.DecoderNeverFails
  intro i s hi
  cases i using Instr.byCommand with
  | dload w arg => exact ⟨_, _, exec_ofDload w arg s, rfl, .inl rfl⟩
  | dnext =>
    by_cases hz : s.dec.topUnit = 0
    · exact ⟨_, _, exec_dnext_of_zero hz, rfl, .inr rfl⟩
    · exact ⟨_, _, exec_dnext_of_unit hz, rfl, .inl rfl⟩
  | estart w => simp at hi
  | desc w => simp at hi
  | _ => cases hi

end Sys2Proof.Machine
end
